-- ==== Sys2Proof/Word.lean ====
section
/-! DEFINITION. The word types of the block: commands and responses of 64 bits (R70, R75), registers of 32 bits (R22),
output tokens of 16 bits (R77), audio samples of 16 bits in two's complement (R74). -/

namespace Sys2Proof

/-- A command word as the host presents it on the command port (R70). -/
abbrev CmdWord := BitVec 64

/-- The response word that the block returns for a command (R75). -/
abbrev RespWord := BitVec 64

/-- The contents of a register, or the DATA field of a command (R22, R70). -/
abbrev RegWord := BitVec 32

/-- One element of the output sequence (R77). -/
abbrev Token := BitVec 16

/-- One audio sample, read in two's complement (R74). -/
abbrev Sample := BitVec 16

end Sys2Proof
end

