-- ==== Sys2Proof/Syntax.lean ====
section
/-! DEFINITION. The commands of the block (R72): one constructor for each row of spec/opcode_table.json, with the operand
fields of R73 at their widths. -/

namespace Sys2Proof

/-- The eleven commands (R72). An operand is held at exactly the width of its field (R73), so every term is a command
that some word encodes. -/
inductive Instr where
  /-- Begin a decoding session (R132). -/
  | start
  /-- End the session (R133). -/
  | stop
  /-- A device or stream fault, reported by the audio input collaborator (R134). -/
  | fault
  /-- Push one audio sample; `s` is DATA[15:0] (R135). -/
  | sample (s : Sample)
  /-- Push one frequency estimate; `fw` is the Q24.8 word DATA[31:0] (R137). -/
  | freq (fw : RegWord)
  /-- Character code to frequency; `code` is DATA[7:0] (R96). -/
  | c2f (code : BitVec 8)
  /-- Frequency to character code (R97). -/
  | f2c (fw : RegWord)
  /-- Bit to frequency; `bit` is DATA[0] (R98). -/
  | b2f (bit : BitVec 1)
  /-- Frequency to bit (R99). -/
  | f2b (fw : RegWord)
  /-- Read the register at select `sel`, SEL[55:48] (R160). -/
  | rdreg (sel : BitVec 8)
  /-- Write `val`, DATA[31:0], to the register at select `sel` (R161). -/
  | wrreg (sel : BitVec 8) (val : RegWord)
deriving DecidableEq, Repr

end Sys2Proof
end

