-- ==== Sys2Proof/WellFormed.lean ====
section
/-! DEFINITION. Well-formedness. A term of `Instr` holds every operand at the width of its field (R73), so none is
ill-formed and no check of it exists. The operand checks that the spec states are the assembler's (R79): an assembler
line has its operands as plain numbers, and `AsmLine.wellFormed` says which lines an assembler accepts. The checks on
command words (R71) are part of the decoder. -/

namespace Sys2Proof

/-- The register names of R22 that RDREG and WRREG take (R79). -/
inductive RegName where
  | status
  | config
  | ethresh
  | dec
  | bits
  | est
  | fill
  | flags
  | paramRate
  | paramN
deriving DecidableEq, Repr

/-- The register operand of RDREG and WRREG: a name or a number (R79). -/
inductive RegOperand where
  | name (r : RegName)
  | number (r : Nat)
deriving DecidableEq, Repr

/-- The frequency operand of FREQ, F2C and F2B: `hz num den` is the frequency num/den in Hz, `raw w` the Q24.8 word
written `#w` (R79). -/
inductive FreqOperand where
  | hz (num den : Nat)
  | raw (w : Nat)
deriving DecidableEq, Repr

/-- The code operand of C2F: a number or a character literal (R79). -/
inductive CodeOperand where
  | number (c : Nat)
  | char (ch : Char)
deriving DecidableEq, Repr

/-- One line of assembly: a mnemonic and its operands, not yet checked (R79). -/
inductive AsmLine where
  | start
  | stop
  | fault
  | sample (s : Int)
  | freq (f : FreqOperand)
  | c2f (c : CodeOperand)
  | f2c (f : FreqOperand)
  | b2f (b : Nat)
  | f2b (f : FreqOperand)
  | rdreg (r : RegOperand)
  | wrreg (r : RegOperand) (v : Nat)
deriving DecidableEq, Repr

/-- A register number is 0..255 (R79). -/
def RegOperand.wellFormed : RegOperand → Bool
  | .name _ => true
  | .number r => r ≤ 255

/-- f·256 is an integer in [0, 2^32); a raw word has 32 bits (R79). -/
def FreqOperand.wellFormed : FreqOperand → Bool
  | .hz num den => 0 < den && num * 256 % den = 0 && num * 256 / den < 2 ^ 32
  | .raw w => w < 2 ^ 32

/-- A character code is 0..255; a character literal stands for its ASCII code (R79). DESIGN CHOICE (log entry 6): an
ASCII code is at most 127, so a literal of any other character is refused. -/
def CodeOperand.wellFormed : CodeOperand → Bool
  | .number c => c ≤ 255
  | .char ch => ch.toNat ≤ 127

/-- "An assembler refuses any operand outside its range, and any frequency that is not a multiple of 1/256 Hz" (R79). -/
def AsmLine.wellFormed : AsmLine → Bool
  | .start => true
  | .stop => true
  | .fault => true
  | .sample s => -32768 ≤ s && s ≤ 32767
  | .freq f => f.wellFormed
  | .c2f c => c.wellFormed
  | .f2c f => f.wellFormed
  | .b2f b => b ≤ 1
  | .f2b f => f.wellFormed
  | .rdreg r => r.wellFormed
  | .wrreg r v => r.wellFormed && v < 2 ^ 32

end Sys2Proof
end

