-- ==== Sys2Proof/Decode.lean ====
section
/-! DEFINITION. Decoding and encoding of command words (R70 to R74, R78), the match and mask of each table row, the byte
order of a byte-wide link (R52) and the assembler's encoding of a line (R79). -/

namespace Sys2Proof

/-- `OPC`, bits 63:56 (R70). -/
def opcField (w : CmdWord) : BitVec 8 := w.extractLsb' 56 8

/-- `SEL`, bits 55:48 (R70). -/
def selField (w : CmdWord) : BitVec 8 := w.extractLsb' 48 8

/-- `RSVD`, bits 47:32 (R70). -/
def rsvdField (w : CmdWord) : BitVec 16 := w.extractLsb' 32 16

/-- `DATA`, bits 31:0 (R70). -/
def dataField (w : CmdWord) : RegWord := w.extractLsb' 0 32

/-- Why a word is ILLEGAL (R78). The block's answer is the same for all four (R172). -/
inductive Illegal where
  /-- An OPC that R72 does not list. -/
  | opcode
  /-- A nonzero `RSVD`. -/
  | rsvd
  /-- A nonzero `SEL` outside RDREG and WRREG. -/
  | sel
  /-- A nonzero bit of `DATA` under `ZMASK(opc)`. -/
  | mustBeZero
deriving DecidableEq, Repr

/-- The eleven operation codes (R72). -/
def legalOpcode (opc : BitVec 8) : Bool :=
  opc ∈ [0x01#8, 0x02#8, 0x03#8, 0x10#8, 0x11#8, 0x20#8, 0x21#8, 0x22#8, 0x23#8, 0x30#8, 0x31#8]

/-- The two operation codes that use `SEL` (R70). -/
def usesSelect (opc : BitVec 8) : Bool := opc = 0x30#8 || opc = 0x31#8

/-- `ZMASK(opc)`: the bits of `DATA` that must be zero (R73). -/
def zmask (opc : BitVec 8) : RegWord :=
  if opc = 0x01#8 then 0xFFFFFFFF#32
  else if opc = 0x02#8 then 0xFFFFFFFF#32
  else if opc = 0x03#8 then 0xFFFFFFFF#32
  else if opc = 0x10#8 then 0xFFFF0000#32
  else if opc = 0x20#8 then 0xFFFFFF00#32
  else if opc = 0x22#8 then 0xFFFFFFFE#32
  else if opc = 0x30#8 then 0xFFFFFFFF#32
  else 0#32

/-- The command of a word that has passed the checks of R71: the operands of R73 and R74 taken out of it. -/
def commandOf (opc : BitVec 8) (sel : BitVec 8) (data : RegWord) : Option Instr :=
  if opc = 0x01#8 then some .start
  else if opc = 0x02#8 then some .stop
  else if opc = 0x03#8 then some .fault
  else if opc = 0x10#8 then some (.sample (data.extractLsb' 0 16))
  else if opc = 0x11#8 then some (.freq data)
  else if opc = 0x20#8 then some (.c2f (data.extractLsb' 0 8))
  else if opc = 0x21#8 then some (.f2c data)
  else if opc = 0x22#8 then some (.b2f (data.extractLsb' 0 1))
  else if opc = 0x23#8 then some (.f2b data)
  else if opc = 0x30#8 then some (.rdreg sel)
  else if opc = 0x31#8 then some (.wrreg sel data)
  else none

/-- The four tests of R71, in its order: `none` for a word that passes them all. -/
def illegal? (w : CmdWord) : Option Illegal :=
  if legalOpcode (opcField w) = false then some .opcode
  else if rsvdField w ≠ 0 then some .rsvd
  else if usesSelect (opcField w) = false ∧ selField w ≠ 0 then some .sel
  else if dataField w &&& zmask (opcField w) ≠ 0 then some .mustBeZero
  else none

/-- `Decode(w)` (R71): total on all words; `none` is ILLEGAL, and `illegal?` names the reason. -/
def decode (w : CmdWord) : Option Instr :=
  match illegal? w with
  | some _ => none
  | none => commandOf (opcField w) (selField w) (dataField w)

/-- The word with the given fields and `RSVD` = 0 (R70). -/
def mkWord (opc : BitVec 8) (sel : BitVec 8) (data : RegWord) : CmdWord := opc ++ sel ++ 0#16 ++ data

/-- The operation code of a command (R72). -/
def opcodeOf : Instr → BitVec 8
  | .start => 0x01
  | .stop => 0x02
  | .fault => 0x03
  | .sample _ => 0x10
  | .freq _ => 0x11
  | .c2f _ => 0x20
  | .f2c _ => 0x21
  | .b2f _ => 0x22
  | .f2b _ => 0x23
  | .rdreg _ => 0x30
  | .wrreg _ _ => 0x31

/-- The `SEL` field of a command: 0 unless it is RDREG or WRREG (R73). -/
def selectOf : Instr → BitVec 8
  | .start => 0
  | .stop => 0
  | .fault => 0
  | .sample _ => 0
  | .freq _ => 0
  | .c2f _ => 0
  | .f2c _ => 0
  | .b2f _ => 0
  | .f2b _ => 0
  | .rdreg sel => sel
  | .wrreg sel _ => sel

/-- The `DATA` field of a command: its operand, with zeros above it (R73). -/
def dataOf : Instr → RegWord
  | .start => 0
  | .stop => 0
  | .fault => 0
  | .sample s => s.setWidth 32
  | .freq fw => fw
  | .c2f code => code.setWidth 32
  | .f2c fw => fw
  | .b2f bit => bit.setWidth 32
  | .f2b fw => fw
  | .rdreg _ => 0
  | .wrreg _ val => val

/-- The word that encodes a command (R70, R73). -/
def encode (i : Instr) : CmdWord := mkWord (opcodeOf i) (selectOf i) (dataOf i)

/-- A row of spec/opcode_table.json: a word is a command of the row exactly when `(w &&& mask) = match` (R71). -/
structure TableRow where
  matchWord : CmdWord
  maskWord : CmdWord
deriving DecidableEq, Repr

/-- The row of a command, as R73 and spec/opcode_table.json give it. -/
def tableRow : Instr → TableRow
  | .start => ⟨0x0100000000000000, 0xFFFFFFFFFFFFFFFF⟩
  | .stop => ⟨0x0200000000000000, 0xFFFFFFFFFFFFFFFF⟩
  | .fault => ⟨0x0300000000000000, 0xFFFFFFFFFFFFFFFF⟩
  | .sample _ => ⟨0x1000000000000000, 0xFFFFFFFFFFFF0000⟩
  | .freq _ => ⟨0x1100000000000000, 0xFFFFFFFF00000000⟩
  | .c2f _ => ⟨0x2000000000000000, 0xFFFFFFFFFFFFFF00⟩
  | .f2c _ => ⟨0x2100000000000000, 0xFFFFFFFF00000000⟩
  | .b2f _ => ⟨0x2200000000000000, 0xFFFFFFFFFFFFFFFE⟩
  | .f2b _ => ⟨0x2300000000000000, 0xFFFFFFFF00000000⟩
  | .rdreg _ => ⟨0x3000000000000000, 0xFF00FFFFFFFFFFFF⟩
  | .wrreg _ _ => ⟨0x3100000000000000, 0xFF00FFFF00000000⟩

/-- The eleven rows, in the table's order. -/
def opcodeTable : List TableRow :=
  [tableRow .start, tableRow .stop, tableRow .fault, tableRow (.sample 0), tableRow (.freq 0), tableRow (.c2f 0),
   tableRow (.f2c 0), tableRow (.b2f 0), tableRow (.f2b 0), tableRow (.rdreg 0), tableRow (.wrreg 0 0)]

/-- A word matches a row (R71). -/
def TableRow.matches (r : TableRow) (w : CmdWord) : Bool := w &&& r.maskWord = r.matchWord

/-- The bytes of a command word, or of a response word, on a byte-wide link, least significant byte first (R52). -/
def linkBytes (w : CmdWord) : List (BitVec 8) :=
  [w.extractLsb' 0 8, w.extractLsb' 8 8, w.extractLsb' 16 8, w.extractLsb' 24 8,
   w.extractLsb' 32 8, w.extractLsb' 40 8, w.extractLsb' 48 8, w.extractLsb' 56 8]

/-- The command word that eight link bytes stand for, and the bytes after it (R52); `none` when fewer than eight bytes
have arrived. -/
def wordOfLink : List (BitVec 8) → Option (CmdWord × List (BitVec 8))
  | b0 :: b1 :: b2 :: b3 :: b4 :: b5 :: b6 :: b7 :: rest =>
    some (b7 ++ b6 ++ b5 ++ b4 ++ b3 ++ b2 ++ b1 ++ b0, rest)
  | _ => none

/-- Decoding from link bytes: the first command and the bytes after it. -/
def decodeLink (bytes : List (BitVec 8)) : Option (Instr × List (BitVec 8)) :=
  match wordOfLink bytes with
  | none => none
  | some (w, rest) =>
    match decode w with
    | none => none
    | some i => some (i, rest)

/-- The instruction the decoder reads from a word numbered as spec/opcode_table.json numbers it: a command is one
64-bit word, so the word is the number itself, with every bit above `nbits` zero. -/
def decodeTableWord (nbits w : Nat) : Option Instr := decode (BitVec.ofNat 64 (w % 2 ^ nbits))

/-- The select number of a register name (R22). -/
def selectOfName : RegName → BitVec 8
  | .status => 0x00
  | .config => 0x01
  | .ethresh => 0x02
  | .dec => 0x03
  | .bits => 0x04
  | .est => 0x05
  | .fill => 0x06
  | .flags => 0x07
  | .paramRate => 0x08
  | .paramN => 0x09

/-- The select number of a register operand (R79). -/
def selectOfOperand : RegOperand → BitVec 8
  | .name r => selectOfName r
  | .number r => BitVec.ofNat 8 r

/-- The Q24.8 word of a frequency operand: f·256 (R79, R74). -/
def wordOfFreq : FreqOperand → RegWord
  | .hz num den => BitVec.ofNat 32 (num * 256 / den)
  | .raw w => BitVec.ofNat 32 w

/-- The code of a code operand (R79). -/
def codeOfOperand : CodeOperand → BitVec 8
  | .number c => BitVec.ofNat 8 c
  | .char ch => BitVec.ofNat 8 ch.toNat

/-- The command an accepted assembler line stands for (R79). -/
def instrOfLine : AsmLine → Instr
  | .start => .start
  | .stop => .stop
  | .fault => .fault
  | .sample s => .sample (BitVec.ofInt 16 s)
  | .freq f => .freq (wordOfFreq f)
  | .c2f c => .c2f (codeOfOperand c)
  | .f2c f => .f2c (wordOfFreq f)
  | .b2f b => .b2f (BitVec.ofNat 1 b)
  | .f2b f => .f2b (wordOfFreq f)
  | .rdreg r => .rdreg (selectOfOperand r)
  | .wrreg r v => .wrreg (selectOfOperand r) (BitVec.ofNat 32 v)

/-- The assembler (R79): the word of a line, or a refusal of a line with an operand outside its range. -/
def assemble (l : AsmLine) : Option CmdWord := if l.wellFormed then some (encode (instrOfLine l)) else none

end Sys2Proof
end

