-- ==== Sys2Proof/Config.lean ====
section
/-! DEFINITION. The configuration record of R5 with its default values, the legal records (R7), the derived constants
(R8) and the one free value of the model, the estimator's draw (R117). -/

namespace Sys2Proof

/-- `P_WINDOW`: which of the two Hann windows the estimator uses (R5, R111). -/
inductive Window where
  | symmetric
  | periodic
deriving DecidableEq, Repr

/-- The build-time parameters (R5), fixed for the life of an instance. `P_ESTTOL` is any real number that is not negative
(R7 (f)): the quotient `estTolNum / estTolDen` where `estTolFree` is `none`, and where it is `some i` a positive real
number of which nothing is known, the free value `freeTolerance i` of Sys2Proof/Machine/Tolerance.lean (DESIGN CHOICE,
log entry 5). -/
structure Config where
  /-- `P_RATE`, Hz. -/
  pRate : Nat
  /-- `P_N`, samples. -/
  pN : Nat
  /-- `P_BASE`, Hz. -/
  pBase : Nat
  /-- `P_STEP`, Hz for one character code. -/
  pStep : Nat
  /-- `CODE_MIN`, fixed at 32. -/
  codeMin : Nat
  /-- `CODE_MAX`, fixed at 126. -/
  codeMax : Nat
  /-- `P_BIT0`, Hz. -/
  pBit0 : Nat
  /-- `P_BIT1`, Hz. -/
  pBit1 : Nat
  /-- `P_TOL`, Hz. -/
  pTol : Nat
  /-- `P_WINDOW`. -/
  pWindow : Window
  /-- Numerator of `P_ESTTOL`, in the units of the normalized amplitude A. -/
  estTolNum : Nat
  /-- Denominator of `P_ESTTOL`. -/
  estTolDen : Nat
  /-- Which free real number `P_ESTTOL` is; `none` where it is the quotient. -/
  estTolFree : Option Nat
  /-- `P_PLACEHOLDER`, fixed at 63. -/
  pPlaceholder : Nat
  /-- `CNT_MAX`, fixed at 255. -/
  cntMax : Nat
deriving DecidableEq, Repr

/-- The values this hardware takes by default (R5). `P_ESTTOL` is OPEN there; 0 is the reference model (R5, R117). -/
def Config.default : Config where
  pRate := 44100
  pN := 4410
  pBase := 1000
  pStep := 10
  codeMin := 32
  codeMax := 126
  pBit0 := 1000
  pBit1 := 2000
  pTol := 100
  pWindow := .symmetric
  estTolNum := 0
  estTolDen := 1
  estTolFree := none
  pPlaceholder := 63
  cntMax := 255

/-- The legal records: R7 (a) to (f), and the parameters that R5 calls fixed at their values. Of R7 (c) the quotient
is multiplied out: `P_RATE / P_N ≤ P_STEP` is `P_RATE ≤ P_STEP · P_N`. -/
abbrev Config.Legal (c : Config) : Prop :=
  (3 ≤ c.pN ∧ c.pN ≤ 65535) ∧
  (1 ≤ c.pRate ∧ c.pRate ≤ 2 ^ 32 - 1) ∧
  c.pRate ≤ c.pStep * c.pN ∧
  (0 < c.pBase ∧ 0 < c.pStep ∧ c.pBase + 126 * c.pStep < 2 ^ 24) ∧
  (c.pTol < c.pBit0 ∧ c.pBit0 < c.pBit1 ∧ 2 * c.pTol < c.pBit1 - c.pBit0 ∧ c.pBit1 + c.pTol < 2 ^ 24) ∧
  0 < c.estTolDen ∧
  (c.codeMin = 32 ∧ c.codeMax = 126 ∧ c.pPlaceholder = 63 ∧ c.cntMax = 255)

/-- `P_ESTTOL` = 0: the reference estimator (R5, R117). A free tolerance is positive. -/
abbrev Config.TolZero (c : Config) : Prop := c.estTolFree = none ∧ c.estTolNum = 0

/-- The last spectrum bin, ⌊P_N/2⌋; there are K = ⌊P_N/2⌋ + 1 bins (R8, R112). -/
def Config.lastBin (c : Config) : Nat := c.pN / 2

/-- The divisor of the Hann window: N − 1 for SYMMETRIC, N for PERIODIC (R111). -/
def Config.windowDiv (c : Config) : Nat :=
  match c.pWindow with
  | .symmetric => c.pN - 1
  | .periodic => c.pN

/-- FREE VALUE (R117, log entry 3): the outcome proposed for the `n`-th frame whose outcome is a draw, 0 for SILENT and
k for BIN(k). Nothing is known of it; the frame step takes it when it lies in the admissible set. -/
opaque Config.estDraw : Nat → Nat

end Sys2Proof
end

