-- ==== Sys2Proof/Machine/Arith.lean ====
section
/-! DEFINITION. Exact integer arithmetic: rounding to the nearest integer (R13, R94), the saturating count (R13), and
the fixed-point cosine from which the estimator's exact comparisons are made (R111, R112). -/

namespace Sys2Proof.Machine

/-- `rdiv(a, b)` = rne(a/b): the nearest integer, a tie to the even one (R94, R13). -/
def rdiv (a : Int) (b : Nat) : Int :=
  let t := a / (b : Int)
  let r := a - t * (b : Int)
  if 2 * r < b then t
  else if b < 2 * r then t + 1
  else if t % 2 = 0 then t
  else t + 1

/-- `sat_inc(c)` = min(c + 1, `CNT_MAX`) (R13). -/
def satInc (cntMax : Nat) (c : BitVec 8) : BitVec 8 := BitVec.ofNat 8 (min (c.toNat + 1) cntMax)

/-- f 0 − f 1 + f 2 − …, `n` terms. -/
def altSum (f : Nat → Nat) : Nat → Int
  | 0 => 0
  | n + 1 => if n % 2 = 0 then altSum f n + f n else altSum f n - f n

/-- 2^q · arctan(1/x) from `n` terms of the arctangent series, each term rounded down. -/
def arctanFix (q x n : Nat) : Int := altSum (fun j => 2 ^ q / ((2 * j + 1) * x ^ (2 * j + 1))) n

/-- 2^q · π by Machin's formula, π = 4 (4 arctan(1/5) − arctan(1/239)). -/
def piFix (q : Nat) : Int := 4 * (4 * arctanFix q 5 q - arctanFix q 239 q)

/-- 2^q · cos(2π·a/b) for a ≤ b: the cosine series at 2π·a/b in `q`-bit fixed point, each term rounded down. Its error
is below `cosErr q` (`abs_cosFix_sub_le` in Sys2Proof/Laws/Trig.lean). -/
def cosFix (q a b : Nat) : Int :=
  let x := 2 * (piFix q).toNat * a / b
  altSum (fun j => 2 ^ q * x ^ (2 * j) / (4 ^ (q * j) * (2 * j).factorial)) (q + 20)

/-- A bound on the error of `cosFix`, in units of 2^(-q). -/
def cosErr (q : Nat) : Nat := 64 * (q + 1)

end Sys2Proof.Machine
end

