-- ==== Sys2Proof/Machine/Operands.lean ====
section
/-! DEFINITION. Operand and result forms: the values that operands stand for (R74), frequencies as exact rationals
(R11, R116), the response codes (R171), the response word (R75) and the output token (R77). -/

namespace Sys2Proof.Machine

/-- The integer that a sample operand stands for: `int16(DATA[15:0])` (R10, R74). -/
def sampleValue (s : Sample) : Int := s.toInt

/-- An exact frequency, num/den Hz (R11). `den` is 256 for a frequency word and `P_N` for a bin, so it is positive for
every legal configuration. -/
structure Freq where
  num : Nat
  den : Nat
deriving DecidableEq, Repr

/-- The frequency 0, which means silence (R11). -/
def Freq.silence : Freq := ⟨0, 1⟩

/-- The frequency of a Q24.8 word, FW/256 Hz (R74). -/
def freqOfWord (fw : RegWord) : Freq := ⟨fw.toNat, 256⟩

/-- The frequency of estimator bin k, k·P_RATE/P_N Hz (R116). -/
def freqOfBin (c : Config) (k : Nat) : Freq := ⟨k * c.pRate, c.pN⟩

/-- The Q24.8 word of an integer frequency, F·256 (R74). -/
def wordOfHz (f : Nat) : RegWord := BitVec.ofNat 32 (f * 256)

/-- The response codes (R171). Codes 0x9 to 0xF are reserved and never returned, so they have no constructor. -/
inductive RespCode where
  | ok
  | alreadyRunning
  | notRunning
  | nomap
  | illegal
  | locked
  | badValue
  | badSel
  | readOnly
deriving DecidableEq, Repr

/-- The 4-bit value of a response code (R171). -/
def codeBits : RespCode → BitVec 4
  | .ok => 0x0
  | .alreadyRunning => 0x1
  | .notRunning => 0x2
  | .nomap => 0x3
  | .illegal => 0x4
  | .locked => 0x5
  | .badValue => 0x6
  | .badSel => 0x7
  | .readOnly => 0x8

/-- The codes of class refused (R171): `raise Error(code)`. -/
def isRefusal : RespCode → Bool
  | .ok => false
  | .nomap => false
  | .alreadyRunning => true
  | .notRunning => true
  | .illegal => true
  | .locked => true
  | .badValue => true
  | .badSel => true
  | .readOnly => true

/-- The response word: bits 63:36 are 0, then `CODE`, then `RDATA` (R75). -/
def mkResponse (code : RespCode) (data : RegWord) : RespWord := 0#28 ++ codeBits code ++ data

/-- The kinds of output token (R77). -/
inductive TokenKind where
  | char
  | byte
  | done
deriving DecidableEq, Repr

/-- `KIND`, bits 15:8 of a token (R77). -/
def kindBits : TokenKind → BitVec 8
  | .char => 0x01
  | .byte => 0x02
  | .done => 0x03

/-- The token word: `KIND`, then `VALUE` (R77). -/
def mkToken (kind : TokenKind) (value : BitVec 8) : Token := kindBits kind ++ value

/-- `KIND` of a token word (R77). -/
def tokenKind (t : Token) : BitVec 8 := t.extractLsb' 8 8

/-- `VALUE` of a token word (R77). -/
def tokenValue (t : Token) : BitVec 8 := t.extractLsb' 0 8

/-- `CODE` of a response word (R75). -/
def respCode (r : RespWord) : BitVec 4 := r.extractLsb' 32 4

/-- `RDATA` of a response word (R75). -/
def respData (r : RespWord) : RegWord := r.extractLsb' 0 32

/-- The bytes of a token on a byte-wide link, least significant byte first (R52). -/
def tokenLinkBytes (t : Token) : List (BitVec 8) := [t.extractLsb' 0 8, t.extractLsb' 8 8]

/-- The upper-case hexadecimal digit of n < 16. -/
def hexDigit (n : Nat) : Char := if n < 10 then Char.ofNat (48 + n) else Char.ofNat (55 + n)

/-- The reference rendering of one token (R77): a CHAR as its character, a BYTE as two upper-case hexadecimal digits
and a space, a DONE as nothing. -/
def renderToken (t : Token) : List Char :=
  let v := (tokenValue t).toNat
  if tokenKind t = kindBits .char then [Char.ofNat v]
  else if tokenKind t = kindBits .byte then [hexDigit (v / 16), hexDigit (v % 16), ' ']
  else []

/-- The reference rendering of `OUT` (R77). -/
def render (out : List Token) : List Char := out.flatMap renderToken

end Sys2Proof.Machine
end

