-- ==== Sys2Proof/Machine/State.lean ====
section
/-! DEFINITION. The state of the block (R20), its reset (R190), and the ways a step can stop: none. -/

namespace Sys2Proof.Machine

/-- `STATE`: the session state machine, STATUS[1:0] (R23). The value 3 never occurs, so it has no constructor. -/
inductive SessionState where
  | idle
  | running
  | stopped
deriving DecidableEq, Repr

/-- `MODE`, CONFIG[0] (R24). -/
inductive Mode where
  | text
  | binary
deriving DecidableEq, Repr

/-- `POLICY`, CONFIG[1] (R24). -/
inductive Policy where
  | drop
  | placeholder
deriving DecidableEq, Repr

/-- The frame buffer `FB` (R34): pairs of an index and a sample, indices strictly rising, no sample zero. An index that
is not listed reads 0, the value the model gives `FB` at reset (DESIGN CHOICE, log entry 4). -/
abbrev Memory := List (Nat × Sample)

/-- The state of one instance: the record of R20 (`session` to `out`), then the model's own fields. -/
structure State where
  /-- `STATE` (R23). -/
  session : SessionState
  /-- `MODE` (R24). -/
  mode : Mode
  /-- `POLICY` (R24). -/
  policy : Policy
  /-- `REPEAT_T` (R24). -/
  repeatT : BitVec 8
  /-- `ETHRESH` (R25). -/
  ethresh : RegWord
  /-- `LAST_SYM_V` (R26). -/
  lastSymV : Bool
  /-- `LAST_SYM` (R26). -/
  lastSym : BitVec 7
  /-- `RPT_CNT` (R26). -/
  rptCnt : BitVec 8
  /-- `LAST_OUT_V` (R26). -/
  lastOutV : Bool
  /-- `LAST_OUT` (R26). -/
  lastOut : BitVec 7
  /-- `PBITS` (R27). -/
  pbits : BitVec 7
  /-- `PCNT` (R27). -/
  pcnt : BitVec 3
  /-- `EVALID` (R28). -/
  evalid : Bool
  /-- `ESILENT` (R28). -/
  esilent : Bool
  /-- `EBIN` (R28). -/
  ebin : BitVec 16
  /-- `FILL` (R29). -/
  fill : BitVec 16
  /-- `F_FAULT` (R30). -/
  fFault : Bool
  /-- `F_REJECT` (R30). -/
  fReject : Bool
  /-- `F_ILLEGAL` (R30). -/
  fIllegal : Bool
  /-- `F_DROPPED` (R30). -/
  fDropped : Bool
  /-- `FB` (R34). -/
  fb : Memory
  /-- `OUT` (R35), first token first. -/
  out : List Token
  /-- The response words returned so far, first one first (R60 (a)); the model's own field (log entry 1). -/
  resp : List RespWord
  /-- The command words presented and not yet taken, next one first (R9, R58); the model's own field (log entry 1). -/
  inp : List CmdWord
  /-- How many free estimator outcomes have been drawn (R117); the model's own field (log entry 3). -/
  draws : Nat
  /-- The configuration record (R5), a parameter of every step, which no step writes (log entry 2). -/
  cfg : Config
deriving DecidableEq, Repr

/-- Why the machine stops with a fault. There is no constructor: "The model has no fault outcome for any command word"
(R186), so no meaning raises one. -/
inductive Fault where
deriving DecidableEq, Repr

/-- Why a step has no meaning for an instruction. -/
inductive Refusal where
  /-- Raised by `exec` for an instruction that has no meaning yet: none in this model. Safe: the machine stops where the
  hardware goes on. -/
  | notModelled (mnemonic : String)
deriving DecidableEq, Repr

/-- An instance with the legal configuration `c` right after reset (R190); none is built from an illegal record (R7). `FB` holds any value there (R34); the model takes all
zero (DESIGN CHOICE, log entry 4). `draws` starts at 0 (DESIGN CHOICE, log entry 3). -/
def State.resetWith (c : Config) (_legal : c.Legal) : State where
  session := .idle
  mode := .text
  policy := .drop
  repeatT := 3
  ethresh := 0x00068DB9
  lastSymV := false
  lastSym := 0
  rptCnt := 0
  lastOutV := false
  lastOut := 0
  pbits := 0
  pcnt := 0
  evalid := false
  esilent := false
  ebin := 0
  fill := 0
  fFault := false
  fReject := false
  fIllegal := false
  fDropped := false
  fb := []
  out := []
  resp := []
  inp := []
  draws := 0
  cfg := c

/-- The machine right after reset (R190), at the default configuration (R5). -/
def State.reset : State := State.resetWith Config.default (by decide)

end Sys2Proof.Machine
end

