-- ==== Sys2Proof/Machine/Flags.lean ====
section
/-! DEFINITION. The sticky FLAGS register (R30): which outcome sets which flag (R173), and clearing by writing ones
(R164). -/

namespace Sys2Proof.Machine

/-- The four flags (R30). -/
inductive Flag where
  | fault
  | reject
  | illegal
  | dropped
deriving DecidableEq, Repr

/-- Set a flag; a flag already set stays set (R173). -/
def setFlag (f : Flag) (s : State) : State :=
  match f with
  | .fault => { s with fFault := true }
  | .reject => { s with fReject := true }
  | .illegal => { s with fIllegal := true }
  | .dropped => { s with fDropped := true }

/-- The flag that a command sets when it is refused with NOT_RUNNING (R173). -/
def notRunningFlag : Instr → Option Flag
  | .start => none
  | .stop => none
  | .fault => some .fault
  | .sample _ => some .dropped
  | .freq _ => some .dropped
  | .c2f _ => none
  | .f2c _ => none
  | .b2f _ => none
  | .f2b _ => none
  | .rdreg _ => none
  | .wrreg _ _ => none

/-- The flag that a refusal sets (R173). The command is `none` for a word that is ILLEGAL. -/
def refusalFlag (cmd : Option Instr) (code : RespCode) : Option Flag :=
  match code with
  | .illegal => some .illegal
  | .alreadyRunning => if cmd = some .start then some .reject else none
  | .notRunning => cmd.bind notRunningFlag
  | .ok => none
  | .nomap => none
  | .badSel => none
  | .readOnly => none
  | .locked => none
  | .badValue => none

/-- The FLAGS effect of a refusal (R173). -/
def applyRefusalFlag (cmd : Option Instr) (code : RespCode) (s : State) : State :=
  match refusalFlag cmd code with
  | some f => setFlag f s
  | none => s

/-- FLAGS, SEL 0x07 (R30, R160). -/
def flagsWord (s : State) : RegWord :=
  0#28 ++ BitVec.ofBool s.fDropped ++ BitVec.ofBool s.fIllegal ++ BitVec.ofBool s.fReject ++ BitVec.ofBool s.fFault

/-- Clear the flags that `v` has a 1 for (R164). -/
def clearFlags (v : RegWord) (s : State) : State :=
  { s with
    fFault := s.fFault && !v.getLsbD 0
    fReject := s.fReject && !v.getLsbD 1
    fIllegal := s.fIllegal && !v.getLsbD 2
    fDropped := s.fDropped && !v.getLsbD 3 }

/-- The four flags are clear. -/
def flagsClear (s : State) : Bool := !s.fFault && !s.fReject && !s.fIllegal && !s.fDropped

end Sys2Proof.Machine
end

