-- ==== Sys2Proof/Machine/Ops.lean ====
section
/-! DEFINITION. The named operations over the state: the frame buffer (R34), responses and tokens (R12, R35, R75, R77),
`raise Error(code)`, which stands for taking an exception (R12, R170, R171, R173), and `ClearSession` (R131). The block
has no trap entry and no return from one (R170, R179), so there is no other operation of that kind. -/

namespace Sys2Proof.Machine

/-- `FB[i]` (R12, R34). An index that is not listed reads 0 (log entry 4). -/
def Memory.read : Memory → Nat → Sample
  | [], _ => 0
  | (k, v) :: rest, i => if k = i then v else Memory.read rest i

/-- `FB[i] <- v` (R12, R34), in the canonical form: writing 0 removes the entry. -/
def Memory.write : Memory → Nat → Sample → Memory
  | [], i, v => if v = 0 then [] else [(i, v)]
  | (k, w) :: rest, i, v =>
    if i < k then (if v = 0 then (k, w) :: rest else (i, v) :: (k, w) :: rest)
    else if i = k then (if v = 0 then rest else (i, v) :: rest)
    else (k, w) :: Memory.write rest i v

/-- Every index of the list is above `lo`, the indices rise strictly, and no sample is zero. -/
def Memory.wfAbove : Nat → Memory → Bool
  | _, [] => true
  | lo, (k, v) :: rest => decide (lo < k) && v != 0 && Memory.wfAbove k rest

/-- The canonical form: indices strictly rising, no sample zero. -/
def Memory.wf : Memory → Bool
  | [] => true
  | (k, v) :: rest => v != 0 && Memory.wfAbove k rest

/-- `respond(code, data)`: the command's response word (R12, R75). -/
def respond (code : RespCode) (data : RegWord) (s : State) : State := { s with resp := s.resp ++ [mkResponse code data] }

/-- `emit(KIND, value)`: one output token (R12, R77). -/
def emit (kind : TokenKind) (value : BitVec 8) (s : State) : State := { s with out := s.out ++ [mkToken kind value] }

/-- `raise Error(code)`: the response (code, 0), the FLAGS effect of R173, and nothing else (R12, R170). -/
def raiseError (cmd : Option Instr) (code : RespCode) (s : State) : State := respond code 0 (applyRefusalFlag cmd code s)

/-- A word that is ILLEGAL is refused with ILLEGAL (R71, R172). -/
def execIllegal (s : State) : Host.Outcome State Fault Refusal := .next (raiseError none .illegal s)

/-- The next command word that the host has presented, and the state without it (R9, R58); `none` when no word is
presented. -/
def takeWord (s : State) : Option (CmdWord × State) :=
  match s.inp with
  | [] => none
  | w :: rest => some (w, { s with inp := rest })

/-- Present a command word as the next one (R58). -/
def presentWord (w : CmdWord) (s : State) : State := { s with inp := w :: s.inp }

/-- `ClearSession()`: every decoder-state field to 0 (R131). -/
def clearSession (s : State) : State :=
  { s with
    lastSymV := false, lastSym := 0, rptCnt := 0
    lastOutV := false, lastOut := 0
    pbits := 0, pcnt := 0
    evalid := false, esilent := false, ebin := 0
    fill := 0 }

end Sys2Proof.Machine
end

