-- ==== Sys2Proof/Machine/Codec.lean ====
section
/-! DEFINITION. The symbol codec (R51, R90 to R94) and the four query commands C2F, F2C, B2F and F2B (R96 to R99). -/

namespace Sys2Proof.Machine

/-- `Lut(c)`, the codec ROM (R51). Undefined outside `CODE_MIN` to `CODE_MAX`, where nothing reads it. -/
def lut (c : Config) (code : Nat) : Nat := c.pBase + code * c.pStep

/-- `c2f(c)`, in Hz; `none` is NONE (R90). -/
def c2f (c : Config) (code : Nat) : Option Nat :=
  if c.codeMin ≤ code ∧ code ≤ c.codeMax then some (lut c code) else none

/-- The three answers of `f2c` (R91). -/
inductive CharMap where
  | mapped (code : BitVec 7)
  | subst (code : BitVec 7)
  | nomap
deriving DecidableEq, Repr

/-- The code nearest to a frequency, rne((f − P_BASE) / P_STEP), evaluated on integers (R91, R94). -/
def quantize (c : Config) (f : Freq) : Int := rdiv ((f.num : Int) - f.den * c.pBase) (f.den * c.pStep)

/-- `f2c(f, policy)` (R91). -/
def f2c (c : Config) (f : Freq) (p : Policy) : CharMap :=
  let code := quantize c f
  if (c.codeMin : Int) ≤ code ∧ code ≤ c.codeMax then .mapped (BitVec.ofInt 7 code)
  else
    match p with
    | .placeholder => .subst (BitVec.ofNat 7 c.pPlaceholder)
    | .drop => .nomap

/-- `b2f(b)`, in Hz (R92). -/
def b2f (c : Config) (b : BitVec 1) : Nat := if b = 0 then c.pBit0 else c.pBit1

/-- |f − centre| ≤ P_TOL, evaluated on integers (R93, R94). -/
def inBand (c : Config) (f : Freq) (centre : Nat) : Bool :=
  ((f.num : Int) - f.den * centre).natAbs ≤ f.den * c.pTol

/-- `f2b(f)`; `none` is NOMAP (R93). -/
def f2b (c : Config) (f : Freq) : Option (BitVec 1) :=
  if inBand c f c.pBit0 then some 0
  else if inBand c f c.pBit1 then some 1
  else none

/-- C2F (R96). -/
def execC2f (code : BitVec 8) (s : State) : Host.Outcome State Fault Refusal :=
  match c2f s.cfg code.toNat with
  | none => .next (respond .nomap 0 s)
  | some f => .next (respond .ok (wordOfHz f) s)

/-- F2C (R97). -/
def execF2c (fw : RegWord) (s : State) : Host.Outcome State Fault Refusal :=
  match f2c s.cfg (freqOfWord fw) s.policy with
  | .mapped code => .next (respond .ok (code.setWidth 32) s)
  | .subst code => .next (respond .nomap (code.setWidth 32) s)
  | .nomap => .next (respond .nomap 0 s)

/-- B2F (R98). -/
def execB2f (bit : BitVec 1) (s : State) : Host.Outcome State Fault Refusal :=
  .next (respond .ok (wordOfHz (b2f s.cfg bit)) s)

/-- F2B (R99). -/
def execF2b (fw : RegWord) (s : State) : Host.Outcome State Fault Refusal :=
  match f2b s.cfg (freqOfWord fw) with
  | some b => .next (respond .ok (b.setWidth 32) s)
  | none => .next (respond .nomap 0 s)

end Sys2Proof.Machine
end

