-- ==== Sys2Proof/Machine/Assembler.lean ====
section
/-! DEFINITION. The assembly text (R79) and the pseudo-instructions (R80). Neither is seen by the block: a line stands
for the command words that the host presents. -/

namespace Sys2Proof.Machine

/-- The pseudo-instructions (R80), operands not yet checked. -/
inductive Pseudo where
  | frame (samples : List Int)
  | silence
  | tone (f : FreqOperand) (a : Nat)
  | sendc (c : CodeOperand)
  | sendb (b : Nat)
  | setcfg (m p t : Nat)
  | clrflags
deriving DecidableEq, Repr

/-- What one line of assembly text holds (R79, R80). -/
inductive AsmItem where
  /-- Nothing, or a comment. -/
  | blank
  | line (l : AsmLine)
  | pseudo (p : Pseudo)
deriving DecidableEq, Repr

/-- The single quote that encloses a character literal. -/
def quote : Char := Char.ofNat 39

/-- A line without its comment: `;` starts one, unless it stands in a character literal (R79). -/
def stripComment : List Char → List Char
  | a :: b :: c :: rest =>
    if a = ';' then []
    else if a = quote ∧ c = quote then a :: b :: c :: stripComment rest
    else a :: stripComment (b :: c :: rest)
  | a :: rest => if a = ';' then [] else a :: stripComment rest
  | [] => []

/-- Without the spaces in front. -/
def trimLeft : List Char → List Char
  | [] => []
  | c :: rest => if c = ' ' then trimLeft rest else c :: rest

/-- Without the spaces at either end. -/
def trim (l : List Char) : List Char := (trimLeft (trimLeft l).reverse).reverse

/-- A mnemonic and the text after it. -/
def splitMnemonic : List Char → List Char × List Char
  | [] => ([], [])
  | c :: rest => if c = ' ' then ([], rest) else (c :: (splitMnemonic rest).1, (splitMnemonic rest).2)

/-- The text before the first comma outside a character literal, and the operands after it. -/
def splitCommas : List Char → List Char × List (List Char)
  | a :: b :: c :: rest =>
    if a = quote ∧ c = quote then
      let r := splitCommas rest
      (a :: b :: c :: r.1, r.2)
    else
      let r := splitCommas (b :: c :: rest)
      if a = ',' then ([], r.1 :: r.2) else (a :: r.1, r.2)
  | a :: rest =>
    let r := splitCommas rest
    if a = ',' then ([], r.1 :: r.2) else (a :: r.1, r.2)
  | [] => ([], [])

/-- The operands of a line, separated by commas (R79). -/
def operands (l : List Char) : List (List Char) :=
  if trim l = [] then [] else ((splitCommas l).1 :: (splitCommas l).2).map trim

/-- The value of a digit, decimal or hexadecimal. -/
def digitValue (c : Char) : Option Nat :=
  let n := c.toNat
  if 48 ≤ n ∧ n ≤ 57 then some (n - 48)
  else if 65 ≤ n ∧ n ≤ 70 then some (n - 55)
  else if 97 ≤ n ∧ n ≤ 102 then some (n - 87)
  else none

/-- Digits in a base, after those worth `acc`. DESIGN CHOICE (log entry 6): R79 says only "decimal, or hexadecimal with
`0x`", and the `_` that groups digits in the spec's own notation (R10) is not taken in assembly text. -/
def parseDigits (base : Nat) : List Char → Nat → Option Nat
  | [], acc => some acc
  | c :: rest, acc =>
    match digitValue c with
    | some d => if d < base then parseDigits base rest (acc * base + d) else none
    | none => none

/-- A number: decimal, or hexadecimal with `0x` (R79). DESIGN CHOICE (log entry 6): a character literal, which R79 says
stands for its ASCII code, is taken where a character code is asked for (`parseCode`) and is no number elsewhere. -/
def parseNat : List Char → Option Nat
  | [] => none
  | a :: b :: rest =>
    if a = '0' ∧ b = 'x' then (if rest = [] then none else parseDigits 16 rest 0)
    else parseDigits 10 (a :: b :: rest) 0
  | l => parseDigits 10 l 0

/-- A number with an optional minus sign (R79, SAMPLE). -/
def parseInt : List Char → Option Int
  | [] => none
  | c :: rest => if c = '-' then (parseNat rest).map fun n => -(n : Int) else (parseNat (c :: rest)).map Int.ofNat

/-- The digits before and after a decimal point. -/
def splitPoint : List Char → List Char × Option (List Char)
  | [] => ([], none)
  | c :: rest => if c = '.' then ([], some rest) else (c :: (splitPoint rest).1, (splitPoint rest).2)

/-- A frequency: Hz with an optional fraction, or `#` and a Q24.8 word (R79). DESIGN CHOICE (log entry 6): R79 says
"decimal with optional fraction" of Hz beside its general rule on numbers; the model takes whole Hz in hexadecimal too,
so `0x672` is 1650 Hz, and a number with a fraction in decimal only. -/
def parseFreq : List Char → Option FreqOperand
  | [] => none
  | c :: rest =>
    if c = '#' then (parseNat rest).map .raw
    else
      match splitPoint (c :: rest) with
      | (whole, none) => (parseNat whole).map fun n => .hz n 1
      | (whole, some frac) =>
        if whole = [] ∨ frac = [] then none
        else (parseDigits 10 (whole ++ frac) 0).map fun n => .hz n (10 ^ frac.length)

/-- A character code, of C2F and SENDC: a number, or a character literal (R79; log entry 6). -/
def parseCode (l : List Char) : Option CodeOperand :=
  match l with
  | [a, c, b] => if a = quote ∧ b = quote then some (.char c) else (parseNat l).map .number
  | _ => (parseNat l).map .number

/-- The register names of R22. -/
def regNames : List (List Char × RegName) :=
  [(['S', 'T', 'A', 'T', 'U', 'S'], .status), (['C', 'O', 'N', 'F', 'I', 'G'], .config),
   (['E', 'T', 'H', 'R', 'E', 'S', 'H'], .ethresh), (['D', 'E', 'C'], .dec), (['B', 'I', 'T', 'S'], .bits),
   (['E', 'S', 'T'], .est), (['F', 'I', 'L', 'L'], .fill), (['F', 'L', 'A', 'G', 'S'], .flags),
   (['P', 'A', 'R', 'A', 'M', '_', 'R', 'A', 'T', 'E'], .paramRate), (['P', 'A', 'R', 'A', 'M', '_', 'N'], .paramN)]

/-- A register: a name of R22, or a number (R79). -/
def parseReg (l : List Char) : Option RegOperand :=
  match regNames.find? fun p => p.1 = l with
  | some p => some (.name p.2)
  | none => (parseNat l).map .number

/-- A line with no operand. -/
def noOperand (ops : List (List Char)) (i : AsmItem) : Option AsmItem := if ops = [] then some i else none

/-- A line with one operand. -/
def oneOperand {α : Type} (ops : List (List Char)) (p : List Char → Option α) (k : α → AsmItem) : Option AsmItem :=
  match ops with
  | [a] => (p a).map k
  | _ => none

/-- A line with two operands. -/
def twoOperands {α β : Type} (ops : List (List Char)) (p : List Char → Option α) (q : List Char → Option β)
    (k : α → β → AsmItem) : Option AsmItem :=
  match ops with
  | [a, b] => (p a).bind fun x => (q b).map (k x)
  | _ => none

/-- A line with three numbers. -/
def threeNumbers (ops : List (List Char)) (k : Nat → Nat → Nat → AsmItem) : Option AsmItem :=
  match ops with
  | [a, b, c] => (parseNat a).bind fun x => (parseNat b).bind fun y => (parseNat c).map (k x y)
  | _ => none

/-- All the integers of a list of operands. -/
def parseInts : List (List Char) → Option (List Int)
  | [] => some []
  | l :: rest => (parseInt l).bind fun x => (parseInts rest).map (x :: ·)

/-- A line with mnemonic `m` and operands `ops` (R79, R80). -/
def parseMnemonic (m : List Char) (ops : List (List Char)) : Option AsmItem :=
  if m = ['S', 'T', 'A', 'R', 'T'] then noOperand ops (.line .start)
  else if m = ['S', 'T', 'O', 'P'] then noOperand ops (.line .stop)
  else if m = ['F', 'A', 'U', 'L', 'T'] then noOperand ops (.line .fault)
  else if m = ['S', 'A', 'M', 'P', 'L', 'E'] then oneOperand ops parseInt fun x => .line (.sample x)
  else if m = ['F', 'R', 'E', 'Q'] then oneOperand ops parseFreq fun x => .line (.freq x)
  else if m = ['C', '2', 'F'] then oneOperand ops parseCode fun x => .line (.c2f x)
  else if m = ['F', '2', 'C'] then oneOperand ops parseFreq fun x => .line (.f2c x)
  else if m = ['B', '2', 'F'] then oneOperand ops parseNat fun x => .line (.b2f x)
  else if m = ['F', '2', 'B'] then oneOperand ops parseFreq fun x => .line (.f2b x)
  else if m = ['R', 'D', 'R', 'E', 'G'] then oneOperand ops parseReg fun x => .line (.rdreg x)
  else if m = ['W', 'R', 'R', 'E', 'G'] then twoOperands ops parseReg parseNat fun x y => .line (.wrreg x y)
  else if m = ['F', 'R', 'A', 'M', 'E'] then (parseInts ops).map fun x => .pseudo (.frame x)
  else if m = ['S', 'I', 'L', 'E', 'N', 'C', 'E'] then noOperand ops (.pseudo .silence)
  else if m = ['T', 'O', 'N', 'E'] then twoOperands ops parseFreq parseNat fun x y => .pseudo (.tone x y)
  else if m = ['S', 'E', 'N', 'D', 'C'] then oneOperand ops parseCode fun x => .pseudo (.sendc x)
  else if m = ['S', 'E', 'N', 'D', 'B'] then oneOperand ops parseNat fun x => .pseudo (.sendb x)
  else if m = ['S', 'E', 'T', 'C', 'F', 'G'] then threeNumbers ops fun x y z => .pseudo (.setcfg x y z)
  else if m = ['C', 'L', 'R', 'F', 'L', 'A', 'G', 'S'] then noOperand ops (.pseudo .clrflags)
  else none

/-- One line of assembly text (R79); `none` where the text is no line of the syntax. DESIGN CHOICE (log entry 6): R79 says
"one command per line", and a line that is empty or holds only a comment is taken and stands for no command. -/
def parseLine (l : List Char) : Option AsmItem :=
  let t := trim (stripComment l)
  if t = [] then some .blank else parseMnemonic (splitMnemonic t).1 (operands (splitMnemonic t).2)

/-- The value that SETCFG writes: (t << 8) OR (p << 1) OR m (R80). DESIGN CHOICE (log entry 9): R80 gives the formula and
no ranges for m, p and t; the model takes any natural numbers, so an m above 1 or a p above 1 reaches bits of the other
fields, and the line is refused only where the value does not fit the 32 bits of WRREG (R79). -/
def setcfgValue (m p t : Nat) : Nat := (t <<< 8) ||| (p <<< 1) ||| m

/-- The lines of `FRAME` (R80): exactly `P_N` samples. -/
def expandFrame (c : Config) (samples : List Int) : Option (List AsmLine) :=
  if samples.length = c.pN then some (samples.map .sample) else none

/-- The expansion of a pseudo-instruction (R80; log entry 9 for the operands of SETCFG), TONE apart: its samples are defined by an exact sine, and `expandTone`
in Sys2Proof/Machine/Reference.lean gives them. -/
def expandPseudo (c : Config) : Pseudo → Option (List AsmLine)
  | .frame samples => expandFrame c samples
  | .silence => expandFrame c (List.replicate c.pN 0)
  | .tone _ _ => none
  | .sendc op => if op.wellFormed then (c2f c (codeOfOperand op).toNat).map fun f => [.freq (.hz f 1)] else none
  | .sendb b => if b ≤ 1 then some [.freq (.hz (b2f c (BitVec.ofNat 1 b)) 1)] else none
  | .setcfg m p t => some [.wrreg (.name .config) (setcfgValue m p t)]
  | .clrflags => some [.wrreg (.name .flags) 0xF]

/-- The words of some lines; `none` where the assembler refuses one (R79). -/
def assembleLines : List AsmLine → Option (List CmdWord)
  | [] => some []
  | l :: rest => (assemble l).bind fun w => (assembleLines rest).map (w :: ·)

/-- The command words of one line of assembly text, TONE apart (R79, R80). -/
def assembleText (c : Config) (l : List Char) : Option (List CmdWord) :=
  match parseLine l with
  | none => none
  | some .blank => some []
  | some (.line a) => assembleLines [a]
  | some (.pseudo p) => (expandPseudo c p).bind assembleLines

end Sys2Proof.Machine
end

