-- ==== Sys2Proof/Machine/Estimator.lean ====
section
/-! DEFINITION. The spectral estimator (R110 to R117), computed. R110 to R116 define it in exact real arithmetic; that
definition stands in Sys2Proof/Machine/Reference.lean, word for word. Here the same outcome is computed: every
comparison that the definition makes is settled by integer arithmetic, at growing precision, and at the last precision
two numbers that cannot be told apart are equal, because different ones would differ by more. Sys2Proof/Laws/Estimator.lean
proves that the outcome is the reference's for every legal configuration, frame and threshold. -/

namespace Sys2Proof.Machine

/-- The outcome of the estimator for one frame (R116). -/
inductive Est where
  | silent
  | bin (k : Nat)
deriving DecidableEq, Repr

/-- What the estimator reads (R120): the samples of the frame as integers, oldest first, the threshold register and the
configuration record. -/
structure Frame where
  cfg : Config
  ethresh : Nat
  samples : List Int
deriving DecidableEq, Repr

/-- An interval of integers that holds a scaled real number. -/
structure Ival where
  lo : Nat
  hi : Nat
deriving DecidableEq, Repr

/-- Σ |s| over the frame. -/
def Frame.total (f : Frame) : Nat := (f.samples.map Int.natAbs).sum

/-- The samples times twice the Hann window, at scale 2^q: s[n] · (1 − cos(2π·n / D)), with D the window's divisor
(R111); 2·w[n] = 1 − cos(2π·n / D). -/
def windowed (q : Nat) (f : Frame) : List Int :=
  f.samples.zipIdx.map fun p => p.1 * (2 ^ q - cosFix q p.2 f.cfg.windowDiv)

/-- 2^q · cos(2π·j / 4N) for j < 4N. -/
def cosTable (q n : Nat) : Array Int := ((List.range (4 * n)).map fun j => cosFix q j (4 * n)).toArray

/-- Σ v[n] · cos(2π·(k·n/N + shift/4)), at scale 4^q: with `shift` 0 the real part of the spectrum at bin `k`, with
`shift` 3 the negated imaginary part (R112). -/
def spectrumPart (table : Array Int) (n k shift : Nat) (v : List Int) : Int :=
  (v.zipIdx.map fun p => p.1 * table.getD ((4 * k * p.2 + shift * n) % (4 * n)) 0).sum

/-- A bound on the error of `spectrumPart`, in units of 4^(-q). -/
def spectrumErr (q : Nat) (f : Frame) : Nat := f.total * (cosErr q * (3 * 2 ^ q + cosErr q))

/-- The square of a real within `e` of the integer `r`. -/
def sqIval (r : Int) (e : Nat) : Ival := ⟨(r.natAbs - e) ^ 2, (r.natAbs + e) ^ 2⟩

/-- |Y[k]|² for every bin, at scale 16^q, where Y[k] = 65536·X[k] is the spectrum of the integer samples under twice the
window; M[k] = |Y[k]| / 65536 (R112). -/
def powers (q : Nat) (f : Frame) : List Ival :=
  let v := windowed q f
  let table := cosTable q f.cfg.pN
  let e := spectrumErr q f
  (List.range (f.cfg.lastBin + 1)).map fun k =>
    let a := sqIval (spectrumPart table f.cfg.pN k 0 v) e
    let b := sqIval (spectrumPart table f.cfg.pN k 3 v) e
    ⟨a.lo + b.lo, a.hi + b.hi⟩

/-- The interval of bin `k`. -/
def power (ps : List Ival) (k : Nat) : Ival := ps.getD k ⟨0, 0⟩

/-- The indices of the nonzero samples. -/
def support (f : Frame) : List Nat := (f.samples.zipIdx.filter fun p => p.1 ≠ 0).map Prod.snd

/-- A sufficient test that bins `j` and `k` have the same magnitude: on the nonzero samples k·n and j·n differ by a
constant modulo N, so the two spectra differ by a rotation. -/
def sameMagnitude (n : Nat) (supp : List Nat) (j k : Nat) : Bool :=
  match supp with
  | [] => true
  | n0 :: rest => rest.all fun m => (k * m + j * n0) % n = (j * m + k * n0) % n

/-- The test A < t/(2^32·dd) for a bin with power interval `p`, where t/(2^32·dd) is a threshold in the units of A:
A = |Y| / (16384·D) (R113, with S = D/2), so it is |Y|²·(2^18·dd)² < (D·t)². -/
def below (q : Nat) (final : Bool) (f : Frame) (t dd : Nat) (p : Ival) : Option Bool :=
  let rhs := (f.cfg.windowDiv * t) ^ 2 * 16 ^ q
  let c := (2 ^ 18 * dd) ^ 2
  if p.hi * c < rhs then some true
  else if rhs ≤ p.lo * c then some false
  else if final then some false
  else none

/-- The bins that may have the maximum magnitude, lowest first (R114). -/
def candidates (ps : List Ival) : List Nat :=
  let best := (ps.map Ival.lo).foldl max 0
  (List.range ps.length).filter fun k => best ≤ (power ps k).hi

/-- k*, the least bin of maximum magnitude (R114), where this precision settles it. -/
def peak (final : Bool) (f : Frame) (ps : List Ival) : Option Nat :=
  match candidates ps with
  | [] => none
  | k :: rest => if rest.all fun j => final || sameMagnitude f.cfg.pN (support f) j k then some k else none

/-- `Est(FB)` (R115, R116), where this precision settles it. The first two tests answer an all-zero frame,
and a frame whose every bin is below the threshold, without settling which bin is the peak. -/
def estAt (f : Frame) (q : Nat) (final : Bool) : Option Est :=
  let ps := powers q f
  if f.total = 0 then some .silent
  else if ps.all fun p => below q false f f.ethresh 1 p = some true then some .silent
  else (peak final f ps).bind fun k =>
    (below q final f f.ethresh 1 (power ps k)).map fun b => if b = true ∨ k = 0 then .silent else .bin k

/-- A[j] ≤ A[k] + δ (R117), where this precision settles it. With r = 16384·D·dn and δ = dn/dd it is
w := dd²·(|Y[j]|² − |Y[k]|²) − r² ≤ 0, or w² ≤ 4·r²·dd²·|Y[k]|². -/
def within (q : Nat) (final : Bool) (f : Frame) (pj pk : Ival) : Option Bool :=
  let dd := f.cfg.estTolDen
  let r := 2 ^ 14 * f.cfg.windowDiv * f.cfg.estTolNum
  let wLo : Int := (dd ^ 2 * pj.lo : Nat) - ((dd ^ 2 * pk.hi + r ^ 2 * 16 ^ q : Nat) : Int)
  let wHi : Int := (dd ^ 2 * pj.hi : Nat) - ((dd ^ 2 * pk.lo + r ^ 2 * 16 ^ q : Nat) : Int)
  let c := 4 * r ^ 2 * dd ^ 2 * 16 ^ q
  if wHi ≤ 0 ∨ wHi ^ 2 ≤ (c * pk.lo : Nat) then some true
  else if 0 < wLo ∧ ((c * pk.hi : Nat) : Int) < wLo ^ 2 then some false
  else if final then some true
  else none

/-- A conjunction of tests, each settled or not. -/
def allSettled : List (Option Bool) → Option Bool
  | [] => some true
  | none :: _ => none
  | some false :: _ => some false
  | some true :: rest => allSettled rest

/-- A[k] ≥ Amax − δ (R117), where this precision settles it. -/
def nearPeak (q : Nat) (final : Bool) (f : Frame) (ps : List Ival) (k : Nat) : Option Bool :=
  allSettled (ps.map fun pj => within q final f pj (power ps k))

/-- τ + δ as t/(2^32·dd). -/
def tauPlus (f : Frame) : Nat := f.ethresh * f.cfg.estTolDen + f.cfg.estTolNum * 2 ^ 32

/-- τ − δ as t/(2^32·dd); 0 where it is negative, which no amplitude is below. -/
def tauMinus (f : Frame) : Nat := f.ethresh * f.cfg.estTolDen - f.cfg.estTolNum * 2 ^ 32

/-- SILENT ∈ Adm or BIN(k) ∈ Adm (R117), where this precision settles it. Amax < τ + δ is the same as: A[k] < τ + δ for
every bin k. -/
def admitsAt (f : Frame) (e : Est) (q : Nat) (final : Bool) : Option Bool :=
  let ps := powers q f
  match e with
  | .silent =>
    (allSettled (ps.map (below q final f (tauPlus f) f.cfg.estTolDen))).bind fun b =>
      if b then some true else nearPeak q final f ps 0
  | .bin k =>
    if 1 ≤ k ∧ k ≤ f.cfg.lastBin then
      (below q final f (tauMinus f) f.cfg.estTolDen (power ps k)).bind fun b =>
        if b then some false else nearPeak q final f ps k
    else some false

/-- The precision at which numbers that cannot be told apart are equal. The numbers compared are, up to an integer
factor, algebraic integers of ℚ(ζ) with ζ a root of unity of order N·D; they and their conjugates are at most
2^70·m^4, so one that is not 0 is at least (2^70·m^4)^(-N·D). -/
def lastPrecision (f : Frame) : Nat :=
  let c := f.cfg
  let m := (f.total + 1) * (c.estTolNum + 1) * (c.estTolDen + 1) * (f.ethresh + 1) * (c.windowDiv + 1)
  2 * ((c.pN * c.windowDiv + 2) * (4 * Nat.log2 m + 80))

/-- A test made at growing precision, and at the last one for good. -/
def settle {α : Type} (f : Frame) (test : Nat → Bool → Option α) : Option α :=
  match test 64 false with
  | some a => some a
  | none =>
    match test 256 false with
    | some a => some a
    | none =>
      match test 1024 false with
      | some a => some a
      | none => test (lastPrecision f) true

/-- `Est(FB)` (R110 to R116). -/
def estimate (f : Frame) : Est := (settle f (estAt f)).getD .silent

/-- `e` ∈ `Adm(FB)` where `P_ESTTOL` is a quotient (R117). -/
def admissible (f : Frame) (e : Est) : Bool := (settle f (admitsAt f e)).getD false

/-- The outcome that a draw proposes: 0 is SILENT, k is BIN(k). -/
def drawnEst (d : Nat) : Est := if d = 0 then .silent else .bin d

end Sys2Proof.Machine
end

