-- ==== Sys2Proof/Machine/Reference.lean ====
section
/-! DEFINITION. The spectral estimator as the spec defines it, in exact real arithmetic (R110 to R117). No step runs
these definitions: the step computes the same outcome (Sys2Proof/Machine/Estimator.lean), and statements about the
estimator are made in terms of this file. -/

namespace Sys2Proof.Machine

open Finset

/-- x[n] = FB[n] / 32768 (R110). -/
noncomputable def Frame.x (f : Frame) (n : ℕ) : ℝ := (f.samples.getD n 0 : ℝ) / 32768

/-- The Hann window w[n] (R111). -/
noncomputable def hann (c : Config) (n : ℕ) : ℝ :=
  match c.pWindow with
  | .symmetric => 0.5 - 0.5 * Real.cos (2 * Real.pi * n / ((c.pN : ℝ) - 1))
  | .periodic => 0.5 - 0.5 * Real.cos (2 * Real.pi * n / c.pN)

/-- The window sum S = Σ w[n] (R111). -/
noncomputable def windowSum (c : Config) : ℝ := ∑ n ∈ range c.pN, hann c n

/-- The spectrum X[k] (R112). -/
noncomputable def Frame.spectrum (f : Frame) (k : ℕ) : ℂ :=
  ∑ n ∈ range f.cfg.pN, (f.x n : ℂ) * (hann f.cfg n : ℂ) * Complex.exp (-2 * Real.pi * Complex.I * k * n / f.cfg.pN)

/-- The magnitude M[k] = |X[k]| (R112). -/
noncomputable def Frame.magnitude (f : Frame) (k : ℕ) : ℝ := ‖f.spectrum k‖

/-- The normalized magnitude A[k] = 2·M[k] / S (R113). -/
noncomputable def Frame.amplitude (f : Frame) (k : ℕ) : ℝ := 2 * f.magnitude k / windowSum f.cfg

/-- k* = min { k : M[k] = Mmax } over the bins 0..⌊N/2⌋ (R114). -/
noncomputable def Frame.kStar (f : Frame) : ℕ :=
  sInf {k | k ≤ f.cfg.lastBin ∧ ∀ j ≤ f.cfg.lastBin, f.magnitude j ≤ f.magnitude k}

/-- τ = ETHRESH / 2^32 (R115, R25). -/
noncomputable def Frame.tau (f : Frame) : ℝ := (f.ethresh : ℝ) / 2 ^ 32

/-- The frame is SILENT: A[k*] < τ, or k* = 0 (R115). -/
def Frame.Silent (f : Frame) : Prop := f.amplitude f.kStar < f.tau ∨ f.kStar = 0

open Classical in
/-- `Est(FB)` (R116). -/
noncomputable def Frame.est (f : Frame) : Est := if f.Silent then .silent else .bin f.kStar

/-- `Adm(FB)` at the tolerance δ, with Amax = A[k*] (R117). -/
def Frame.AdmWithin (f : Frame) (δ : ℝ) : Est → Prop
  | .silent => f.amplitude f.kStar < f.tau + δ ∨ f.amplitude 0 ≥ f.amplitude f.kStar - δ
  | .bin k => (1 ≤ k ∧ k ≤ f.cfg.lastBin) ∧ f.amplitude k ≥ f.amplitude f.kStar - δ ∧ f.amplitude k ≥ f.tau - δ

/-- `P_ESTTOL` where it is a quotient (R5, log entry 5). -/
noncomputable def Frame.tolQuotient (f : Frame) : ℝ := (f.cfg.estTolNum : ℝ) / f.cfg.estTolDen

/-- A frame is complete: as many samples as the configuration's frame length, and a legal configuration (R7, R110). -/
def Frame.Complete (f : Frame) : Prop := f.cfg.Legal ∧ f.samples.length = f.cfg.pN

/-- What the block hands to the estimator: samples of 16 bits in two's complement (R74) and a threshold of 32 bits
(R25). -/
def Frame.InRange (f : Frame) : Prop := (∀ x ∈ f.samples, -32768 ≤ x ∧ x ≤ 32767) ∧ f.ethresh < 2 ^ 32

/-- The rational value of rne (R13): the integer nearest q, a tie to the even one. -/
def rne (q : ℚ) : ℤ := if q - ⌊q⌋ < 1 / 2 then ⌊q⌋ else if 1 / 2 < q - ⌊q⌋ then ⌊q⌋ + 1 else if ⌊q⌋ % 2 = 0 then ⌊q⌋ else ⌊q⌋ + 1

open Classical in
/-- rne on the reals, for the exact sine of TONE (R13, R80). -/
noncomputable def rneReal (y : ℝ) : ℤ :=
  if y - ⌊y⌋ < 1 / 2 then ⌊y⌋ else if 1 / 2 < y - ⌊y⌋ then ⌊y⌋ + 1 else if ⌊y⌋ % 2 = 0 then ⌊y⌋ else ⌊y⌋ + 1

/-- The sample `n` of the pseudo-instruction TONE f, a (R80): rne(a·sin(2π·f·n / P_RATE)), the sine exact. -/
noncomputable def toneSample (c : Config) (f : ℝ) (a n : ℕ) : ℤ := rneReal (a * Real.sin (2 * Real.pi * f * n / c.pRate))

/-- The frequency operand of TONE, in Hz (R79, R80). DESIGN CHOICE (log entry 8): TONE takes both forms that FREQ takes. -/
noncomputable def freqOperandHz : FreqOperand → ℝ
  | .hz num den => (num : ℝ) / den
  | .raw w => (w : ℝ) / 256

/-- The expansion of TONE f, a, with a ≤ 32767 (R80). DESIGN CHOICE (log entry 8): R80 bounds `a` above and says no more
of the operands; the model takes `a` as a natural number and does not ask that `f` be a multiple of 1/256 Hz, since no
frequency word is made of it. -/
noncomputable def expandTone (c : Config) (f : FreqOperand) (a : ℕ) : Option (List AsmLine) :=
  if a ≤ 32767 then expandFrame c ((List.range c.pN).map (toneSample c (freqOperandHz f) a)) else none

end Sys2Proof.Machine
end

