-- ==== Sys2Proof/Machine/Tolerance.lean ====
section
/-! DEFINITION. The estimator tolerance δ = `P_ESTTOL` (R5, R7 (f), R117): a quotient, or a real number of which nothing
is known; the admissible outcomes of a frame, and the outcome that the frame step takes. -/

namespace Sys2Proof.Machine

/-- A positive real tolerance (R7 (f)), as the test that it makes of the outcomes of a frame: no finite datum holds an
irrational number, and of a number δ the block uses nothing but which outcomes lie in `Adm(FB)` (R117). Every δ > 0 has
such a test (`exists_tolerance` in Sys2Proof/Laws/Tolerance.lean). -/
structure Tolerance where
  /-- Is the outcome admissible for the frame? -/
  admits : Frame → Est → Bool
  /-- The test is that of one real number. -/
  spec : ∃ δ : ℝ, 0 < δ ∧
    ∀ f : Frame, f.Complete → f.InRange → ∀ e : Est, admits f e = true ↔ f.AdmWithin δ e

/-- The number δ of a tolerance. -/
noncomputable def Tolerance.delta (t : Tolerance) : ℝ := t.spec.choose

/-- The window is nowhere negative (R111). -/
theorem hann_nonneg (c : Config) (n : ℕ) : 0 ≤ hann c n := by
  unfold hann
  split
  · linarith [Real.cos_le_one (2 * Real.pi * n / ((c.pN : ℝ) - 1))]
  · linarith [Real.cos_le_one (2 * Real.pi * n / c.pN)]

/-- A normalized magnitude is at most 2 for samples of 16 bits (R110 to R113). -/
theorem amplitude_le_two (f : Frame) (hf : f.InRange) (k : ℕ) : f.amplitude k ≤ 2 := by
  have hS : 0 ≤ windowSum f.cfg := Finset.sum_nonneg fun n _ => hann_nonneg _ _
  have hx : ∀ n, |f.x n| ≤ 1 := by
    intro n
    have hb : -32768 ≤ f.samples.getD n 0 ∧ f.samples.getD n 0 ≤ 32767 := by
      rw [List.getD_eq_getElem?_getD]
      rcases h : f.samples[n]? with _ | x
      · decide
      · exact hf.1 x (List.mem_of_getElem? h)
    have h1 : (-32768 : ℝ) ≤ (f.samples.getD n 0 : ℤ) := by exact_mod_cast hb.1
    have h2 : ((f.samples.getD n 0 : ℤ) : ℝ) ≤ 32767 := by exact_mod_cast hb.2
    unfold Frame.x
    rw [abs_le]
    constructor <;> linarith
  have hm : f.magnitude k ≤ windowSum f.cfg := by
    unfold Frame.magnitude Frame.spectrum windowSum
    refine (norm_sum_le _ _).trans (Finset.sum_le_sum fun n _ => ?_)
    have he : ‖Complex.exp (-2 * Real.pi * Complex.I * k * n / f.cfg.pN)‖ = 1 := by
      rw [show (-2 * Real.pi * Complex.I * k * n / f.cfg.pN : ℂ) = ((-2 * Real.pi * k * n / f.cfg.pN : ℝ) : ℂ) * Complex.I by
        push_cast; ring]
      exact Complex.norm_exp_ofReal_mul_I _
    rw [norm_mul, norm_mul, he, mul_one, Complex.norm_real, Complex.norm_real, Real.norm_eq_abs, Real.norm_eq_abs,
      abs_of_nonneg (hann_nonneg _ _)]
    exact mul_le_of_le_one_left (hann_nonneg _ _) (hx n)
  unfold Frame.amplitude
  exact div_le_of_le_mul₀ hS zero_le_two (by linarith)

/-- The tolerance 3, at which every outcome is admissible. It shows that there is a tolerance, and no step uses it. -/
def Tolerance.three : Tolerance where
  admits f e :=
    match e with
    | .silent => true
    | .bin k => decide (1 ≤ k ∧ k ≤ f.cfg.lastBin)
  spec := by
    refine ⟨3, by norm_num, fun f _ hr e => ?_⟩
    have hS : 0 ≤ windowSum f.cfg := Finset.sum_nonneg fun n _ => hann_nonneg _ _
    have ha : ∀ k, 0 ≤ f.amplitude k := fun k => by
      unfold Frame.amplitude Frame.magnitude
      positivity
    have ht0 : 0 ≤ f.tau := by unfold Frame.tau; positivity
    have ht : f.tau < 1 := by
      unfold Frame.tau
      rw [div_lt_one (by positivity)]
      exact_mod_cast hr.2
    have h2 := amplitude_le_two f hr f.kStar
    cases e with
    | silent => simp only [Frame.AdmWithin, true_iff]; left; linarith
    | bin k =>
      simp only [Frame.AdmWithin, decide_eq_true_iff]
      exact ⟨fun h => ⟨h, by linarith [ha k], by linarith [ha k]⟩, fun h => h.1⟩

/-- FREE VALUE (R5, R7 (f), log entry 5): the tolerance of an instance whose `P_ESTTOL` is given by `estTolFree`.
Nothing is known of it but that it is that of a positive real number. -/
opaque freeToleranceOf (i : Nat) [Inhabited Tolerance] : Tolerance

/-- The free tolerance number `i` (log entry 5). -/
def freeTolerance (i : Nat) : Tolerance := @freeToleranceOf i ⟨Tolerance.three⟩

/-- δ = `P_ESTTOL` (R117, R5). -/
noncomputable def Frame.delta (f : Frame) : ℝ :=
  match f.cfg.estTolFree with
  | none => f.tolQuotient
  | some i => (freeTolerance i).delta

/-- `Adm(FB)` (R117). -/
def Frame.Adm (f : Frame) (e : Est) : Prop := f.AdmWithin f.delta e

/-- `e` ∈ `Adm(FB)`, tested (R117). -/
def admitted (f : Frame) (e : Est) : Bool :=
  match f.cfg.estTolFree with
  | none => admissible f e
  | some i => (freeTolerance i).admits f e

/-- The outcome of a frame (R117): with δ = 0 the reference `Est`; with δ > 0 the draw where it lies in `Adm(FB)`, and
the reference outcome, which always lies in it, where the draw does not. So every admissible outcome is the outcome for
some draw, and no other is. -/
def outcomeOf (f : Frame) (draw : Nat) : Est :=
  if f.cfg.TolZero then estimate f
  else if admitted f (drawnEst draw) then drawnEst draw
  else estimate f

end Sys2Proof.Machine
end

