-- ==== Sys2Proof/Machine/Decoder.lean ====
section
/-! DEFINITION. The streaming decoder: the decode procedures (R138 to R141), the frame-completion step (R136), and the
commands START, STOP, FAULT, SAMPLE and FREQ (R130, R132 to R137). -/

namespace Sys2Proof.Machine

/-- "None" for the last symbol and the repeat counter: what silence does (R138). -/
def clearSymbol (s : State) : State := { s with lastSymV := false, lastSym := 0, rptCnt := 0 }

/-- Emit the character token of `c` and record it as the last output (R139). -/
def emitChar (c : BitVec 7) (s : State) : State :=
  { emit .char (c.setWidth 8) s with lastOut := c, lastOutV := true }

/-- One more detection of the last symbol: the count, and one space when it has reached the threshold (R139). -/
def repeatSymbol (s : State) : State :=
  let s := { s with rptCnt := satInc s.cfg.cntMax s.rptCnt }
  if s.repeatT ≤ s.rptCnt ∧ s.lastSym ≠ 0x20 ∧ ¬(s.lastOutV = true ∧ s.lastOut = 0x20) then emitChar 0x20 s else s

/-- A new symbol, or the first one after silence (R139). -/
def newSymbol (c : BitVec 7) (s : State) : State := { emitChar c s with lastSym := c, lastSymV := true, rptCnt := 1 }

/-- A detected character code (R139). -/
def textSymbol (c : BitVec 7) (s : State) : State :=
  if s.lastSymV = true ∧ c = s.lastSym then repeatSymbol s else newSymbol c s

/-- `DecodeText(r)` (R139, R141). -/
def decodeText (r : CharMap) (s : State) : State :=
  match r with
  | .nomap => s
  | .mapped c => textSymbol c s
  | .subst c => textSymbol c s

/-- `DecodeBinary(r)` (R140, R141). -/
def decodeBinary (r : Option (BitVec 1)) (s : State) : State :=
  match r with
  | none => s
  | some b =>
    if s.pcnt = 7 then { emit .byte (s.pbits ++ b) s with pbits := 0, pcnt := 0 }
    else { s with pbits := s.pbits.extractLsb' 0 6 ++ b, pcnt := s.pcnt + 1 }

/-- `Decode(f)` (R138). -/
def decodeFreq (f : Freq) (s : State) : State :=
  if f.num = 0 then clearSymbol s
  else
    match s.mode with
    | .text => decodeText (f2c s.cfg f s.policy) s
    | .binary => decodeBinary (f2b s.cfg f) s

/-- What the estimator reads of the state (R110, R120): the first `P_N` elements of `FB`, `ETHRESH` and the
configuration record. -/
def frameOf (s : State) : Frame where
  cfg := s.cfg
  ethresh := s.ethresh.toNat
  samples := (List.range s.cfg.pN).map fun i => (s.fb.read i).toInt

/-- The outcome of the frame in `FB`: `Est(FB)`, or with δ > 0 the next draw from `Adm(FB)` (R116, R117). -/
def frameOutcome (s : State) : Est := outcomeOf (frameOf s) (Config.estDraw s.draws)

/-- With δ > 0 the frame has taken a draw (R117, log entry 3). -/
def takeDraw (s : State) : State := if s.cfg.TolZero then s else { s with draws := s.draws + 1 }

/-- What a frame with outcome `e` does (R136). -/
def frameResult (e : Est) (s : State) : State :=
  match e with
  | .silent => decodeFreq Freq.silence { s with evalid := true, fill := 0, esilent := true, ebin := 0 }
  | .bin k =>
    decodeFreq (freqOfBin s.cfg k) { s with evalid := true, fill := 0, esilent := false, ebin := BitVec.ofNat 16 k }

/-- `FrameComplete()` (R136). -/
def frameComplete (s : State) : State := frameResult (frameOutcome s) (takeDraw s)

/-- START (R132). -/
def execStart (s : State) : Host.Outcome State Fault Refusal :=
  if s.session = .running then .next (raiseError (some .start) .alreadyRunning s)
  else .next (respond .ok 0 { clearSession s with session := .running })

/-- STOP (R133). -/
def execStop (s : State) : Host.Outcome State Fault Refusal :=
  if s.session = .running then .next (respond .ok 0 (emit .done 0x00 { clearSession s with session := .stopped }))
  else .next (raiseError (some .stop) .notRunning s)

/-- FAULT (R134). -/
def execFault (s : State) : Host.Outcome State Fault Refusal :=
  if s.session = .running then
    .next (respond .ok 0 (emit .done 0x01 { clearSession (setFlag .fault s) with session := .stopped }))
  else .next (raiseError (some .fault) .notRunning s)

/-- The index of `FB` that an accepted SAMPLE stores to: `FILL` (R34, R135). -/
def storeIndex (s : State) : Nat := s.fill.toNat

/-- `FB[FILL] <- s` (R135). -/
def storeSample (x : Sample) (s : State) : State := { s with fb := s.fb.write (storeIndex s) x }

/-- An accepted sample: it is stored, and the frame completes or `FILL` advances (R135). -/
def pushSample (x : Sample) (s : State) : State :=
  if s.fill.toNat + 1 = s.cfg.pN then frameComplete (storeSample x s)
  else { storeSample x s with fill := s.fill + 1 }

/-- SAMPLE (R135). -/
def execSample (x : Sample) (s : State) : Host.Outcome State Fault Refusal :=
  if s.session = .running then .next (respond .ok 0 (pushSample x s))
  else .next (raiseError (some (.sample x)) .notRunning s)

/-- FREQ (R137). -/
def execFreq (fw : RegWord) (s : State) : Host.Outcome State Fault Refusal :=
  if s.session = .running then .next (respond .ok 0 (decodeFreq (freqOfWord fw) s))
  else .next (raiseError (some (.freq fw)) .notRunning s)

end Sys2Proof.Machine
end

