-- ==== Sys2Proof/Machine/Registers.lean ====
section
/-! DEFINITION. The register space (R22 to R33) and the commands RDREG and WRREG (R160 to R165). -/

namespace Sys2Proof.Machine

/-- `STATE` as STATUS[1:0] (R23). -/
def stateBits : SessionState → BitVec 2
  | .idle => 0
  | .running => 1
  | .stopped => 2

/-- `MODE` as CONFIG[0] (R24). -/
def modeBit : Mode → BitVec 1
  | .text => 0
  | .binary => 1

/-- `POLICY` as CONFIG[1] (R24). -/
def policyBit : Policy → BitVec 1
  | .drop => 0
  | .placeholder => 1

/-- STATUS, SEL 0x00 (R23). -/
def statusWord (s : State) : RegWord := 0#30 ++ stateBits s.session

/-- CONFIG, SEL 0x01 (R24). -/
def configWord (s : State) : RegWord := 0#16 ++ s.repeatT ++ 0#6 ++ policyBit s.policy ++ modeBit s.mode

/-- DEC, SEL 0x03 (R26). -/
def decWord (s : State) : RegWord :=
  0#8 ++ BitVec.ofBool s.lastOutV ++ s.lastOut ++ s.rptCnt ++ BitVec.ofBool s.lastSymV ++ s.lastSym

/-- BITS, SEL 0x04 (R27). -/
def bitsWord (s : State) : RegWord := 0#21 ++ s.pcnt ++ 0#1 ++ s.pbits

/-- EST, SEL 0x05 (R28). -/
def estWord (s : State) : RegWord := s.ebin ++ 0#14 ++ BitVec.ofBool s.esilent ++ BitVec.ofBool s.evalid

/-- FILL, SEL 0x06 (R29). -/
def fillWord (s : State) : RegWord := 0#16 ++ s.fill

/-- `RegRead(sel)`; `none` for a reserved select number (R33, R160). -/
def regRead (sel : BitVec 8) (s : State) : Option RegWord :=
  if sel = 0x00#8 then some (statusWord s)
  else if sel = 0x01#8 then some (configWord s)
  else if sel = 0x02#8 then some s.ethresh
  else if sel = 0x03#8 then some (decWord s)
  else if sel = 0x04#8 then some (bitsWord s)
  else if sel = 0x05#8 then some (estWord s)
  else if sel = 0x06#8 then some (fillWord s)
  else if sel = 0x07#8 then some (flagsWord s)
  else if sel = 0x08#8 then some (BitVec.ofNat 32 s.cfg.pRate)
  else if sel = 0x09#8 then some (BitVec.ofNat 32 s.cfg.pN)
  else none

/-- RDREG (R160). -/
def execRdreg (sel : BitVec 8) (s : State) : Host.Outcome State Fault Refusal :=
  match regRead sel s with
  | some v => .next (respond .ok v s)
  | none => .next (raiseError (some (.rdreg sel)) .badSel s)

/-- The reserved select numbers, 0x0A to 0xFF (R33). -/
def reservedSel (sel : BitVec 8) : Bool := 0x0A ≤ sel.toNat

/-- The read-only registers: STATUS, DEC, BITS, EST, FILL, PARAM_RATE and PARAM_N (R165). -/
def readOnlySel (sel : BitVec 8) : Bool := sel ∈ [0x00#8, 0x03#8, 0x04#8, 0x05#8, 0x06#8, 0x08#8, 0x09#8]

/-- The registers that are locked while RUNNING: CONFIG and ETHRESH (R161). -/
def lockableSel (sel : BitVec 8) : Bool := sel = 0x01#8 || sel = 0x02#8

/-- A legal value of CONFIG (R24, R162). -/
def legalConfig (v : RegWord) : Bool :=
  v.extractLsb' 2 6 = 0#6 && v.extractLsb' 16 16 = 0#16 && v.extractLsb' 8 8 != 0#8

/-- `WriteCONFIG(v)` after its check (R162). -/
def setConfig (v : RegWord) (s : State) : State :=
  { s with
    mode := if v.getLsbD 0 then .binary else .text
    policy := if v.getLsbD 1 then .placeholder else .drop
    repeatT := v.extractLsb' 8 8 }

/-- A legal value to write to FLAGS (R30, R164). -/
def legalFlags (v : RegWord) : Bool := v.extractLsb' 4 28 = 0#28

/-- The refusal of a WRREG, if any: the four checks in their order (R161, R174). -/
def wrregRefusal (sel : BitVec 8) (v : RegWord) (s : State) : Option RespCode :=
  if reservedSel sel then some .badSel
  else if readOnlySel sel then some .readOnly
  else if lockableSel sel = true ∧ s.session = .running then some .locked
  else if sel = 0x01#8 ∧ legalConfig v = false then some .badValue
  else if sel = 0x07#8 ∧ legalFlags v = false then some .badValue
  else none

/-- The write of a WRREG that no check refuses: CONFIG (R162), ETHRESH (R163) or FLAGS (R164). -/
def regWrite (sel : BitVec 8) (v : RegWord) (s : State) : State :=
  if sel = 0x01#8 then setConfig v s
  else if sel = 0x02#8 then { s with ethresh := v }
  else if sel = 0x07#8 then clearFlags v s
  else s

/-- WRREG (R161). -/
def execWrreg (sel : BitVec 8) (val : RegWord) (s : State) : Host.Outcome State Fault Refusal :=
  match wrregRefusal sel val s with
  | some code => .next (raiseError (some (.wrreg sel val)) code s)
  | none => .next (respond .ok 0 (regWrite sel val s))

end Sys2Proof.Machine
end

