-- ==== Sys2Proof/Machine/Dispatch.lean ====
section
/-! DEFINITION. The dispatch of a command to its meaning (R72). -/

namespace Sys2Proof.Machine

def exec (i : Instr) (s : State) : Host.Outcome State Fault Refusal :=
  match i with
  | .start => Sys2Proof.Machine.execStart s
  | .stop => Sys2Proof.Machine.execStop s
  | .fault => Sys2Proof.Machine.execFault s
  | .sample x => Sys2Proof.Machine.execSample x s
  | .freq fw => Sys2Proof.Machine.execFreq fw s
  | .c2f code => Sys2Proof.Machine.execC2f code s
  | .f2c fw => Sys2Proof.Machine.execF2c fw s
  | .b2f bit => Sys2Proof.Machine.execB2f bit s
  | .f2b fw => Sys2Proof.Machine.execF2b fw s
  | .rdreg sel => Sys2Proof.Machine.execRdreg sel s
  | .wrreg sel val => Sys2Proof.Machine.execWrreg sel val s

end Sys2Proof.Machine
end

