-- ==== Sys2Proof/Machine/Step.lean ====
section
/-! DEFINITION. One step (R9, R58): the next command word that the host has presented is taken, decoded and run. -/

namespace Sys2Proof.Machine

/-- What a command word does (R71, R172): a legal one runs its command, an ILLEGAL one is refused with ILLEGAL. -/
def runWord (w : CmdWord) (s : State) : Host.Outcome State Fault Refusal :=
  match decode w with
  | some i => exec i s
  | none => execIllegal s

/-- One step: the first word of `inp` is taken and runs. With no word presented the block holds its state (R185). -/
def step (s : State) : Host.Outcome State Fault Refusal :=
  match takeWord s with
  | none => .next s
  | some (w, s) => runWord w s

/-- `s` with the word whose low `nbits` bits are `w`, the rest zero, presented as the next command (R58). -/
def State.withFetchWord (s : State) (nbits w : Nat) : State := presentWord (BitVec.ofNat 64 (w % 2 ^ nbits)) s

end Sys2Proof.Machine
end

