-- ==== Sys2Proof/Safety.lean ====
section
/-! DEFINITION. What statements about runs are made of: runs of command words (R60), the invariants (R36), the agreement
of two states (R34, R142), the completion count (R177) and "gone wrong" (R186). -/

namespace Sys2Proof.Machine

/-- The block runs the command words `ws`, in order, from `s` to `t` (R60). -/
inductive Runs : List CmdWord → State → State → Prop
  | nil (s : State) : Runs [] s s
  | cons (w : CmdWord) (ws : List CmdWord) (s t u : State) : runWord w s = .next t → Runs ws t u → Runs (w :: ws) s u

/-- The words with operation code `opc` (R70, R73): those that fit `mask` and `matchWord` are commands, `command` names
which, and all others are ILLEGAL: refused with that code, the flag set, and nothing else (R71, R172, R173). -/
def EncodedAs (opc : BitVec 8) (matchWord mask : CmdWord) (command : CmdWord → Instr) : Prop :=
  ∀ w : CmdWord, opcField w = opc →
    decode w = (if w &&& mask = matchWord then some (command w) else none) ∧
    ∀ s : State, runWord w s =
      if w &&& mask = matchWord then exec (command w) s
      else .next { s with fIllegal := true, resp := s.resp ++ [mkResponse .illegal 0] }

/-- A token that R77 allows. -/
def legalToken (t : Token) : Bool :=
  (tokenKind t == 0x01 && decide (32 ≤ (tokenValue t).toNat) && decide ((tokenValue t).toNat ≤ 126)) ||
  tokenKind t == 0x02 ||
  (tokenKind t == 0x03 && decide ((tokenValue t).toNat ≤ 1))

/-- A response word that R75 and R171 allow: bits 63:36 are 0 and the code is one of the nine. -/
def legalResponse (r : RespWord) : Bool := r.extractLsb' 36 28 == 0#28 && decide ((respCode r).toNat ≤ 8)

/-- The fields of DEC, BITS, EST and FILL are all 0 (R36 (I6), R131). -/
def SessionClear (s : State) : Prop :=
  s.lastSymV = false ∧ s.lastSym = 0 ∧ s.rptCnt = 0 ∧ s.lastOutV = false ∧ s.lastOut = 0 ∧
  s.pbits = 0 ∧ s.pcnt = 0 ∧ s.evalid = false ∧ s.esilent = false ∧ s.ebin = 0 ∧ s.fill = 0

/-- The invariants (I1) to (I8) of R36. -/
structure SpecInv (s : State) : Prop where
  i1 : s.lastSymV = false → s.lastSym = 0 ∧ s.rptCnt = 0
  i2 : s.lastSymV = true → (1 ≤ s.rptCnt.toNat ∧ s.rptCnt.toNat ≤ 255) ∧ (32 ≤ s.lastSym.toNat ∧ s.lastSym.toNat ≤ 126)
  i3 : s.lastOutV = false → s.lastOut = 0
  i4 : s.pcnt.toNat ≤ 7 ∧ s.pbits.toNat < 2 ^ s.pcnt.toNat
  i5 : s.fill.toNat < s.cfg.pN
  i6 : s.session ≠ .running → SessionClear s
  i7 : s.mode = .binary → s.lastSymV = false ∧ s.lastOutV = false
  i8 : 1 ≤ s.repeatT.toNat ∧ s.repeatT.toNat ≤ 255

/-- The invariant of the model: a legal configuration, the invariants of R36, and what the model and the field tables
add to them. -/
structure Inv (s : State) : Prop where
  legal : s.cfg.Legal
  spec : SpecInv s
  /-- `FB` is in the canonical form and lists no index outside the frame (R34). -/
  fbWf : s.fb.wf = true
  fbRange : ∀ p ∈ s.fb, p.1 < s.cfg.pN
  /-- Every token and response is well formed (R75, R77, R171). -/
  out : ∀ t ∈ s.out, legalToken t = true
  resp : ∀ r ∈ s.resp, legalResponse r = true
  /-- EST holds an outcome of the estimator or nothing (R28, R116). -/
  estNone : s.evalid = false → s.esilent = false ∧ s.ebin = 0
  estSilent : s.esilent = true → s.ebin = 0
  estBin : s.evalid = true → s.esilent = false → 1 ≤ s.ebin.toNat ∧ s.ebin.toNat ≤ s.cfg.lastBin
  /-- The last character is a character code (R26). -/
  lastOut : s.lastOutV = true → 32 ≤ s.lastOut.toNat ∧ s.lastOut.toNat ≤ 126
  /-- In text mode no bit is pending (R27). -/
  textBits : s.mode = .text → s.pbits = 0 ∧ s.pcnt = 0

/-- Two states agree but for what `FB` holds at `FILL` and above, which no frame of the session will read (R34). -/
def AgreeFrame (s t : State) : Prop := { s with fb := t.fb } = t ∧ ∀ i < s.fill.toNat, s.fb.read i = t.fb.read i

/-- Two states agree but for FLAGS and the responses returned. -/
def AgreeButFlags (s t : State) : Prop :=
  { s with fFault := t.fFault, fReject := t.fReject, fIllegal := t.fIllegal, fDropped := t.fDropped, resp := t.resp } = t

/-- Two states have the same session, configuration and decoder state: they agree but for FLAGS, the tokens and
responses of the past, and what `FB` holds at `FILL` and above (R142 (e), R192). -/
def AgreeSession (s t : State) : Prop :=
  { s with
    fFault := t.fFault, fReject := t.fReject, fIllegal := t.fIllegal, fDropped := t.fDropped
    resp := t.resp, out := t.out, fb := t.fb } = t ∧
  ∀ i < s.fill.toNat, s.fb.read i = t.fb.read i

/-- The number of DONE tokens in a token sequence (R77, R177). -/
def doneCount (out : List Token) : Nat := out.countP fun t => tokenKind t == kindBits .done

/-- 1 while a session is active, else 0 (R62). -/
def activeCount (s : State) : Nat :=
  match s.session with
  | .idle => 0
  | .running => 1
  | .stopped => 0

/-- The command is a START that is accepted (R132). -/
def acceptedStart (w : CmdWord) (s : State) : Bool := decode w == some .start && s.session != .running

/-- The block runs `ws` from `s` to `t`, and accepts `n` STARTs on the way (R177). -/
inductive RunsStarting : List CmdWord → Nat → State → State → Prop
  | nil (s : State) : RunsStarting [] 0 s s
  | cons (w : CmdWord) (ws : List CmdWord) (n : Nat) (s t u : State) :
      runWord w s = .next t → RunsStarting ws n t u →
      RunsStarting (w :: ws) (if acceptedStart w s then n + 1 else n) s u

/-- The samples that the estimator reads when a sample `x` completes the frame: what `FB` holds, with `x` at `FILL`
(R110, R135). -/
def completedFrame (x : Sample) (s : State) : Frame where
  cfg := s.cfg
  ethresh := s.ethresh.toNat
  samples := (List.range s.cfg.pN).map fun i => if i = s.fill.toNat then x.toInt else (s.fb.read i).toInt

/-- The CHAR tokens of a run of `n` detections of `c` in a row, the first one new: the character, and one space once
the count has reached the threshold (R139, R142 (b)). -/
def runTokens (repeatT : BitVec 8) (c : BitVec 7) (n : Nat) : List Token :=
  mkToken .char (c.setWidth 8) :: if 2 ≤ n ∧ repeatT.toNat ≤ n ∧ c ≠ 0x20 then [mkToken .char 0x20] else []

/-- "Gone wrong" (R186): a response other than OK or NOMAP, a DONE value 0x01, or a FLAGS bit set at the end. -/
def goneWrong (s : State) : Bool :=
  s.resp.any (fun r => isRefusalBits (respCode r)) || s.out.any (fun t => t == mkToken .done 0x01) || !flagsClear s
where
  /-- A code other than OK and NOMAP (R171). -/
  isRefusalBits (c : BitVec 4) : Bool := c != codeBits .ok && c != codeBits .nomap

end Sys2Proof.Machine
end

