-- ==== Sys2Proof/Certificates/Slice0/Obligations.lean ====
section
/-! DEFINITION. The statements for the provers. Each docstring names the rules of spec/ that the statement rests on. -/

section

open Sys2Proof Sys2Proof.Machine

/-! ## Encoding -/

/-- Every command decodes from the word that encodes it, with every operand at every value (R70 to R74). -/
def Obligations.DecodeOfEncode : Prop := ∀ i : Instr, decode (encode i) = some i

/-- A word that decodes is the word of its command: no other word stands for it (R71, R78). -/
def Obligations.EncodeOfDecode : Prop := ∀ (w : CmdWord) (i : Instr), decode w = some i → encode i = w

/-- The rows of the opcode table decide decoding: a word is ILLEGAL exactly when it matches no row, a command matches
its own row, and no word matches two rows (R71, R73). -/
def Obligations.DecodeByTable : Prop :=
  (∀ w : CmdWord, decode w = none ↔ ∀ r ∈ opcodeTable, r.matches w = false) ∧
  (∀ (w : CmdWord) (i : Instr), decode w = some i → (tableRow i).matches w = true) ∧
  opcodeTable.Pairwise fun r r' => ∀ w : CmdWord, ¬(r.matches w = true ∧ r'.matches w = true)

/-- The illegal words: an unlisted OPC, a nonzero RSVD, a nonzero SEL outside RDREG and WRREG, a nonzero must-be-zero
bit of DATA; and a reserved SEL of RDREG or WRREG is not illegal (R71, R73, R78). -/
def Obligations.IllegalWords : Prop :=
  (∀ w : CmdWord, decode w = none ↔
    opcField w ∉ [0x01#8, 0x02#8, 0x03#8, 0x10#8, 0x11#8, 0x20#8, 0x21#8, 0x22#8, 0x23#8, 0x30#8, 0x31#8] ∨
    rsvdField w ≠ 0 ∨
    (opcField w ≠ 0x30#8 ∧ opcField w ≠ 0x31#8 ∧ selField w ≠ 0) ∨
    (opcField w ∈ [0x01#8, 0x02#8, 0x03#8, 0x30#8] ∧ dataField w ≠ 0) ∨
    (opcField w = 0x10#8 ∧ dataField w &&& 0xFFFF0000#32 ≠ 0) ∨
    (opcField w = 0x20#8 ∧ dataField w &&& 0xFFFFFF00#32 ≠ 0) ∨
    (opcField w = 0x22#8 ∧ dataField w &&& 0xFFFFFFFE#32 ≠ 0)) ∧
  ∀ (sel : BitVec 8) (v : RegWord),
    decode (mkWord 0x30 sel 0) = some (.rdreg sel) ∧ decode (mkWord 0x31 sel v) = some (.wrreg sel v)

/-- Words written out from the encoding table decode to the commands they stand for (R72, R73, R74). -/
def Obligations.SampleWordsDecode : Prop :=
  decode 0x0100000000000000 = some .start ∧
  decode 0x100000000000FFFF = some (.sample (-1)) ∧
  decode 0x1100000000067200 = some (.freq 0x67200) ∧
  decode 0x2000000000000041 = some (.c2f 0x41) ∧
  decode 0x2200000000000001 = some (.b2f 1) ∧
  decode 0x3001000000000000 = some (.rdreg 0x01) ∧
  decode 0x3101000000000301 = some (.wrreg 0x01 0x301) ∧
  decode 0x10000000FFFFFFFF = none

/-- On a byte-wide link the least significant byte of a command word, a response word or a token comes first, and
nothing of a word is lost (R52). -/
def Obligations.LinkByteOrder : Prop :=
  ∀ (w : CmdWord) (rest : List (BitVec 8)),
    (linkBytes w).length = 8 ∧
    (∀ j < 8, (linkBytes w)[j]? = some (w.extractLsb' (8 * j) 8)) ∧
    wordOfLink (linkBytes w ++ rest) = some (w, rest) ∧
    ∀ t : Token, tokenLinkBytes t = [tokenValue t, tokenKind t]

/-- The assembler, form by form: the word of each accepted line with its fields as R79 lays them out, and the refusal of
every operand outside its range; a frequency in Hz is accepted exactly when f·256 is an integer below 2^32, and never
rounded. The word of an accepted line decodes to the command of the line. That a character literal stands for a code of
at most 127 is the model's choice (log entry 6). -/
def Obligations.AssemblerAgreesWithDecoder : Prop :=
  (∀ l : AsmLine, (assemble l).isSome = l.wellFormed) ∧
  (∀ (l : AsmLine) (w : CmdWord), assemble l = some w → decode w = some (instrOfLine l)) ∧
  assemble .start = some 0x0100000000000000 ∧ assemble .stop = some 0x0200000000000000 ∧
  assemble .fault = some 0x0300000000000000 ∧
  (∀ s : ℤ, assemble (.sample s) =
    if -32768 ≤ s ∧ s ≤ 32767 then some (0x10#8 ++ 0#8 ++ 0#16 ++ BitVec.ofNat 32 (s % 65536).toNat) else none) ∧
  (∀ (num den : ℕ) (w : CmdWord),
    (assemble (.freq (.hz num den)) = some w ↔
      0 < den ∧ ∃ d : ℕ, d < 2 ^ 32 ∧ (d : ℚ) = (num : ℚ) / den * 256 ∧ w = 0x11#8 ++ 0#8 ++ 0#16 ++ BitVec.ofNat 32 d) ∧
    (assemble (.f2c (.hz num den)) = some w ↔
      0 < den ∧ ∃ d : ℕ, d < 2 ^ 32 ∧ (d : ℚ) = (num : ℚ) / den * 256 ∧ w = 0x21#8 ++ 0#8 ++ 0#16 ++ BitVec.ofNat 32 d) ∧
    (assemble (.f2b (.hz num den)) = some w ↔
      0 < den ∧ ∃ d : ℕ, d < 2 ^ 32 ∧ (d : ℚ) = (num : ℚ) / den * 256 ∧ w = 0x23#8 ++ 0#8 ++ 0#16 ++ BitVec.ofNat 32 d)) ∧
  (∀ v : ℕ,
    assemble (.freq (.raw v)) = (if v < 2 ^ 32 then some (0x11#8 ++ 0#8 ++ 0#16 ++ BitVec.ofNat 32 v) else none) ∧
    assemble (.f2c (.raw v)) = (if v < 2 ^ 32 then some (0x21#8 ++ 0#8 ++ 0#16 ++ BitVec.ofNat 32 v) else none) ∧
    assemble (.f2b (.raw v)) = (if v < 2 ^ 32 then some (0x23#8 ++ 0#8 ++ 0#16 ++ BitVec.ofNat 32 v) else none)) ∧
  (∀ c : ℕ, assemble (.c2f (.number c)) =
    if c ≤ 255 then some (0x20#8 ++ 0#8 ++ 0#16 ++ BitVec.ofNat 32 c) else none) ∧
  (∀ ch : Char, assemble (.c2f (.char ch)) =
    if ch.toNat ≤ 127 then some (0x20#8 ++ 0#8 ++ 0#16 ++ BitVec.ofNat 32 ch.toNat) else none) ∧
  (∀ b : ℕ, assemble (.b2f b) = if b ≤ 1 then some (0x22#8 ++ 0#8 ++ 0#16 ++ BitVec.ofNat 32 b) else none) ∧
  (∀ r : ℕ, assemble (.rdreg (.number r)) =
    if r ≤ 255 then some (0x30#8 ++ BitVec.ofNat 8 r ++ 0#16 ++ 0#32) else none) ∧
  (∀ r v : ℕ, assemble (.wrreg (.number r) v) =
    if r ≤ 255 ∧ v < 2 ^ 32 then some (0x31#8 ++ BitVec.ofNat 8 r ++ 0#16 ++ BitVec.ofNat 32 v) else none) ∧
  ∀ p ∈ [(RegName.status, 0x00), (.config, 0x01), (.ethresh, 0x02), (.dec, 0x03), (.bits, 0x04), (.est, 0x05),
      (.fill, 0x06), (.flags, 0x07), (.paramRate, 0x08), (.paramN, 0x09)],
    assemble (.rdreg (.name p.1)) = some (0x30#8 ++ BitVec.ofNat 8 p.2 ++ 0#16 ++ 0#32) ∧
    ∀ v : ℕ, assemble (.wrreg (.name p.1) v) =
      if v < 2 ^ 32 then some (0x31#8 ++ BitVec.ofNat 8 p.2 ++ 0#16 ++ BitVec.ofNat 32 v) else none

/-! ## The step -/

/-- A step takes the next word presented and, when it decodes, runs the command (R9, R58, R71). -/
def Obligations.StepRunsDecoded : Prop :=
  ∀ (s : State) (w : CmdWord) (rest : List CmdWord) (i : Instr),
    s.inp = w :: rest → decode w = some i → step s = exec i { s with inp := rest }

/-- A step on an ILLEGAL word: the response ILLEGAL, the flag F_ILLEGAL, nothing else (R71, R172, R173). -/
def Obligations.StepOnIllegalWord : Prop :=
  ∀ (s : State) (w : CmdWord) (rest : List CmdWord), s.inp = w :: rest → decode w = none →
    step s = .next { s with inp := rest, fIllegal := true, resp := s.resp ++ [mkResponse .illegal 0] }

/-- With no command presented the block holds its state (R185). -/
def Obligations.StepHoldsState : Prop := ∀ s : State, s.inp = [] → step s = .next s

/-- The word that the host's fetch places is the word the next step runs, whatever else is presented (R9). -/
def Obligations.PresentedWordRunsNext : Prop :=
  ∀ (i : Instr) (s : State), step (s.withFetchWord 64 (encode i).toNat) = exec i s

/-- One command is one step that ends in a next state, returns exactly one response word, appends at most one token,
and removes nothing from the sequence of tokens (R9, R35, R142 (a), R170, R186). -/
def Obligations.EveryStepAnswers : Prop :=
  ∀ (s : State) (w : CmdWord) (rest : List CmdWord), s.inp = w :: rest →
    ∃ t : State, step s = .next t ∧ t.inp = rest ∧ t.cfg = s.cfg ∧
      (∃ r : RespWord, legalResponse r = true ∧ t.resp = s.resp ++ [r]) ∧
      (t.out = s.out ∨ ∃ tok : Token, t.out = s.out ++ [tok])

/-! ## Invariants and reset -/

/-- The values that reset leaves, for every legal configuration, and its codec ROM (R190). -/
def Obligations.ResetValues : Prop :=
  ∀ (c : Config) (h : c.Legal),
    (∀ code : ℕ, 32 ≤ code → code ≤ 126 → c2f c code = some (c.pBase + code * c.pStep)) ∧
    (State.resetWith c h).session = .idle ∧ (State.resetWith c h).mode = .text ∧ (State.resetWith c h).policy = .drop ∧
    (State.resetWith c h).repeatT = 3 ∧ SessionClear (State.resetWith c h) ∧ flagsClear (State.resetWith c h) = true ∧
    (State.resetWith c h).out = [] ∧
    regRead 0x00 (State.resetWith c h) = some 0x00000000 ∧ regRead 0x01 (State.resetWith c h) = some 0x00000300 ∧
    regRead 0x02 (State.resetWith c h) = some 0x00068DB9 ∧ regRead 0x03 (State.resetWith c h) = some 0x00000000 ∧
    regRead 0x04 (State.resetWith c h) = some 0x00000000 ∧ regRead 0x05 (State.resetWith c h) = some 0x00000000 ∧
    regRead 0x06 (State.resetWith c h) = some 0x00000000 ∧ regRead 0x07 (State.resetWith c h) = some 0x00000000 ∧
    regRead 0x08 (State.resetWith c h) = some (BitVec.ofNat 32 c.pRate) ∧
    regRead 0x09 (State.resetWith c h) = some (BitVec.ofNat 32 c.pN)

/-- The invariant holds right after reset, for every legal configuration and for the machine's own (R36, R190). -/
def Obligations.ResetMeetsInvariant : Prop := (∀ (c : Config) (h : c.Legal), Inv (State.resetWith c h)) ∧ Inv State.reset

/-- Every step keeps the invariant, from every state that meets it (R36). -/
def Obligations.StepKeepsInvariant : Prop := ∀ s t : State, Inv s → step s = .next t → Inv t

/-- (I1) to (I8) hold in every state reachable from reset by any command sequence (R36). -/
def Obligations.ReachableInvariants : Prop :=
  ∀ (c : Config) (h : c.Legal) (ws : List CmdWord) (s : State), Runs ws (State.resetWith c h) s → SpecInv s

/-! ## The commands -/

/-- START (R132). -/
def Obligations.StartResult : Prop :=
  EncodedAs 0x01 0x0100000000000000 0xFFFFFFFFFFFFFFFF (fun _ => .start) ∧
  ∀ s : State, exec .start s = .next
    (if s.session = .running then { s with fReject := true, resp := s.resp ++ [mkResponse .alreadyRunning 0] }
    else
      { s with
        session := .running
        lastSymV := false, lastSym := 0, rptCnt := 0, lastOutV := false, lastOut := 0, pbits := 0, pcnt := 0
        evalid := false, esilent := false, ebin := 0, fill := 0
        resp := s.resp ++ [mkResponse .ok 0] })

/-- STOP (R133). -/
def Obligations.StopResult : Prop :=
  EncodedAs 0x02 0x0200000000000000 0xFFFFFFFFFFFFFFFF (fun _ => .stop) ∧
  ∀ s : State, exec .stop s = .next
    (if s.session = .running then
      { s with
        session := .stopped
        lastSymV := false, lastSym := 0, rptCnt := 0, lastOutV := false, lastOut := 0, pbits := 0, pcnt := 0
        evalid := false, esilent := false, ebin := 0, fill := 0
        out := s.out ++ [0x0300]
        resp := s.resp ++ [mkResponse .ok 0] }
    else { s with resp := s.resp ++ [mkResponse .notRunning 0] })

/-- FAULT (R134). -/
def Obligations.FaultResult : Prop :=
  EncodedAs 0x03 0x0300000000000000 0xFFFFFFFFFFFFFFFF (fun _ => .fault) ∧
  ∀ s : State, exec .fault s = .next
    (if s.session = .running then
      { s with
        session := .stopped
        fFault := true
        lastSymV := false, lastSym := 0, rptCnt := 0, lastOutV := false, lastOut := 0, pbits := 0, pcnt := 0
        evalid := false, esilent := false, ebin := 0, fill := 0
        out := s.out ++ [0x0301]
        resp := s.resp ++ [mkResponse .ok 0] }
    else { s with fFault := true, resp := s.resp ++ [mkResponse .notRunning 0] })

/-- SAMPLE (R135): refused outside a session; else the sample is stored at FILL, and FILL advances or the frame
completes. -/
def Obligations.SampleResult : Prop :=
  EncodedAs 0x10 0x1000000000000000 0xFFFFFFFFFFFF0000 (fun w => .sample (w.extractLsb' 0 16)) ∧
  ∀ (x : Sample) (s : State), exec (.sample x) s = .next
    (if s.session ≠ .running then { s with fDropped := true, resp := s.resp ++ [mkResponse .notRunning 0] }
    else if s.fill.toNat + 1 = s.cfg.pN then respond .ok 0 (frameComplete { s with fb := s.fb.write s.fill.toNat x })
    else
      { s with fb := s.fb.write s.fill.toNat x, fill := s.fill + 1, resp := s.resp ++ [mkResponse .ok 0] })

/-- The frame step (R136): the outcome is Est(FB), or with P_ESTTOL > 0 a draw, which is counted; EST and FILL are
written, and the outcome's frequency is decoded, 0 for SILENT and exactly k·P_RATE/P_N for BIN(k). -/
def Obligations.FrameStepResult : Prop :=
  ∀ s : State,
    frameComplete s = frameResult (frameOutcome s) (if s.cfg.TolZero then s else { s with draws := s.draws + 1 }) ∧
    frameResult .silent s = decodeFreq ⟨0, 1⟩ { s with evalid := true, fill := 0, esilent := true, ebin := 0 } ∧
    ∀ k : Nat, frameResult (.bin k) s = decodeFreq ⟨k * s.cfg.pRate, s.cfg.pN⟩
      { s with evalid := true, fill := 0, esilent := false, ebin := BitVec.ofNat 16 k }

/-- With P_ESTTOL = 0 the sample that completes a frame acts on the reference outcome Est(FB), which R110 to R116 define
in real arithmetic, of the frame with that sample last (R110 to R116, R117, R135, R136). -/
def Obligations.FrameUsesReferenceEstimator : Prop :=
  ∀ (x : Sample) (s : State), s.cfg.Legal → s.fb.wf = true → s.cfg.TolZero → s.session = .running →
    s.fill.toNat + 1 = s.cfg.pN →
    exec (.sample x) s =
      .next (respond .ok 0 (frameResult (completedFrame x s).est { s with fb := s.fb.write s.fill.toNat x }))

/-- With P_ESTTOL > 0 the sample that completes a frame acts on an outcome in Adm(FB), which is the free draw whenever
that lies in Adm(FB), so no admissible outcome is left out (R117). The draw is a free value (log entry 3), and P_ESTTOL
is a quotient or a free real number (log entry 5): the statement holds whatever they are. -/
def Obligations.FrameDrawsAdmissibleOutcome : Prop :=
  ∀ (x : Sample) (s : State), s.cfg.Legal → s.fb.wf = true → ¬s.cfg.TolZero → s.session = .running →
    s.fill.toNat + 1 = s.cfg.pN →
    ∃ e : Est, (completedFrame x s).Adm e ∧
      ((completedFrame x s).Adm (drawnEst (Config.estDraw s.draws)) → e = drawnEst (Config.estDraw s.draws)) ∧
      exec (.sample x) s = .next
        (respond .ok 0 (frameResult e { s with fb := s.fb.write s.fill.toNat x, draws := s.draws + 1 }))

/-- Adm(FB) holds the reference outcome, so it is never empty; and no BIN is admissible when Amax < τ − δ (R117). -/
def Obligations.AdmissibleSetNeverEmpty : Prop :=
  ∀ f : Frame, f.Complete →
    f.Adm f.est ∧ (f.amplitude f.kStar < f.tau - f.delta → ∀ k : ℕ, ¬f.Adm (.bin k))

/-- A constant frame, an all-zero frame among them, is SILENT at every legal configuration and threshold
(R114, R115, R119 (a) and (b)). -/
def Obligations.ConstantFrameIsSilent : Prop :=
  ∀ f : Frame, f.Complete → (∃ v : ℤ, ∀ x ∈ f.samples, x = v) → f.est = .silent ∧ estimate f = .silent

/-- FREQ (R137). -/
def Obligations.FreqResult : Prop :=
  EncodedAs 0x11 0x1100000000000000 0xFFFFFFFF00000000 (fun w => .freq (w.extractLsb' 0 32)) ∧
  ∀ (fw : RegWord) (s : State), exec (.freq fw) s = .next
    (if s.session = .running then respond .ok 0 (decodeFreq ⟨fw.toNat, 256⟩ s)
    else { s with fDropped := true, resp := s.resp ++ [mkResponse .notRunning 0] })

/-- C2F (R90, R96). -/
def Obligations.C2fResult : Prop :=
  EncodedAs 0x20 0x2000000000000000 0xFFFFFFFFFFFFFF00 (fun w => .c2f (w.extractLsb' 0 8)) ∧
  ∀ (code : BitVec 8) (s : State), s.cfg.Legal → exec (.c2f code) s = .next
    (if 32 ≤ code.toNat ∧ code.toNat ≤ 126 then
      { s with resp := s.resp ++ [mkResponse .ok (BitVec.ofNat 32 ((s.cfg.pBase + code.toNat * s.cfg.pStep) * 256))] }
    else { s with resp := s.resp ++ [mkResponse .nomap 0] })

/-- F2C (R97). At a legal configuration a substitute is the placeholder 63 and comes under PLACEHOLDER alone, and no
mapping under DROP alone. -/
def Obligations.F2cResult : Prop :=
  EncodedAs 0x21 0x2100000000000000 0xFFFFFFFF00000000 (fun w => .f2c (w.extractLsb' 0 32)) ∧
  (∀ (fw : RegWord) (s : State), exec (.f2c fw) s = .next
    (match f2c s.cfg ⟨fw.toNat, 256⟩ s.policy with
    | .mapped code => { s with resp := s.resp ++ [mkResponse .ok (code.setWidth 32)] }
    | .subst code => { s with resp := s.resp ++ [mkResponse .nomap (code.setWidth 32)] }
    | .nomap => { s with resp := s.resp ++ [mkResponse .nomap 0] })) ∧
  ∀ (fw : RegWord) (s : State), s.cfg.Legal →
    (∀ code, f2c s.cfg ⟨fw.toNat, 256⟩ s.policy = .subst code → code = 63 ∧ s.policy = .placeholder) ∧
    (f2c s.cfg ⟨fw.toNat, 256⟩ s.policy = .nomap → s.policy = .drop)

/-- B2F (R92, R98). -/
def Obligations.B2fResult : Prop :=
  EncodedAs 0x22 0x2200000000000000 0xFFFFFFFFFFFFFFFE (fun w => .b2f (w.extractLsb' 0 1)) ∧
  ∀ (bit : BitVec 1) (s : State), exec (.b2f bit) s = .next
    { s with resp := s.resp ++ [mkResponse .ok (BitVec.ofNat 32 ((if bit = 0 then s.cfg.pBit0 else s.cfg.pBit1) * 256))] }

/-- F2B (R99). -/
def Obligations.F2bResult : Prop :=
  EncodedAs 0x23 0x2300000000000000 0xFFFFFFFF00000000 (fun w => .f2b (w.extractLsb' 0 32)) ∧
  ∀ (fw : RegWord) (s : State), exec (.f2b fw) s = .next
    (match f2b s.cfg ⟨fw.toNat, 256⟩ with
    | some b => { s with resp := s.resp ++ [mkResponse .ok (b.setWidth 32)] }
    | none => { s with resp := s.resp ++ [mkResponse .nomap 0] })

/-- RDREG (R160): the value of every register as the shifts and ors of its fields, BAD_SEL for a reserved select. -/
def Obligations.RdregResult : Prop :=
  EncodedAs 0x30 0x3000000000000000 0xFF00FFFFFFFFFFFF (fun w => .rdreg (w.extractLsb' 48 8)) ∧
  ∀ (sel : BitVec 8) (s : State), exec (.rdreg sel) s = .next
    { s with resp := s.resp ++
      [if 0x0A ≤ sel.toNat then mkResponse .badSel 0
      else mkResponse .ok
        (if sel = 0x00 then (match s.session with | .idle => 0 | .running => 1 | .stopped => 2)
        else if sel = 0x01 then
          (s.repeatT.setWidth 32 <<< 8) ||| ((if s.policy = .placeholder then 1 else 0) <<< 1) |||
            (if s.mode = .binary then 1 else 0)
        else if sel = 0x02 then s.ethresh
        else if sel = 0x03 then
          ((BitVec.ofBool s.lastOutV).setWidth 32 <<< 23) ||| (s.lastOut.setWidth 32 <<< 16) |||
            (s.rptCnt.setWidth 32 <<< 8) ||| ((BitVec.ofBool s.lastSymV).setWidth 32 <<< 7) ||| s.lastSym.setWidth 32
        else if sel = 0x04 then (s.pcnt.setWidth 32 <<< 8) ||| s.pbits.setWidth 32
        else if sel = 0x05 then
          (s.ebin.setWidth 32 <<< 16) ||| ((BitVec.ofBool s.esilent).setWidth 32 <<< 1) |||
            (BitVec.ofBool s.evalid).setWidth 32
        else if sel = 0x06 then s.fill.setWidth 32
        else if sel = 0x07 then
          ((BitVec.ofBool s.fDropped).setWidth 32 <<< 3) ||| ((BitVec.ofBool s.fIllegal).setWidth 32 <<< 2) |||
            ((BitVec.ofBool s.fReject).setWidth 32 <<< 1) ||| (BitVec.ofBool s.fFault).setWidth 32
        else if sel = 0x08 then BitVec.ofNat 32 s.cfg.pRate
        else BitVec.ofNat 32 s.cfg.pN)] }

/-- WRREG (R161 to R165): the four checks in their order, then the write of CONFIG, ETHRESH or FLAGS. -/
def Obligations.WrregResult : Prop :=
  EncodedAs 0x31 0x3100000000000000 0xFF00FFFF00000000 (fun w => .wrreg (w.extractLsb' 48 8) (w.extractLsb' 0 32)) ∧
  ∀ (sel : BitVec 8) (v : RegWord) (s : State), exec (.wrreg sel v) s = .next
    (if 0x0A ≤ sel.toNat then { s with resp := s.resp ++ [mkResponse .badSel 0] }
    else if sel ∈ [0x00#8, 0x03#8, 0x04#8, 0x05#8, 0x06#8, 0x08#8, 0x09#8] then
      { s with resp := s.resp ++ [mkResponse .readOnly 0] }
    else if (sel = 0x01#8 ∨ sel = 0x02#8) ∧ s.session = .running then
      { s with resp := s.resp ++ [mkResponse .locked 0] }
    else if sel = 0x01#8 then
      (if v.extractLsb' 2 6 ≠ 0 ∨ v.extractLsb' 16 16 ≠ 0 ∨ v.extractLsb' 8 8 = 0 then
        { s with resp := s.resp ++ [mkResponse .badValue 0] }
      else
        { s with
          mode := if v.getLsbD 0 then .binary else .text
          policy := if v.getLsbD 1 then .placeholder else .drop
          repeatT := v.extractLsb' 8 8
          resp := s.resp ++ [mkResponse .ok 0] })
    else if sel = 0x02#8 then { s with ethresh := v, resp := s.resp ++ [mkResponse .ok 0] }
    else if v.extractLsb' 4 28 ≠ 0 then { s with resp := s.resp ++ [mkResponse .badValue 0] }
    else
      { s with
        fFault := s.fFault && !v.getLsbD 0
        fReject := s.fReject && !v.getLsbD 1
        fIllegal := s.fIllegal && !v.getLsbD 2
        fDropped := s.fDropped && !v.getLsbD 3
        resp := s.resp ++ [mkResponse .ok 0] })

/-! ## The codec -/

/-- The integer evaluation of the quantizers equals the rational definition: rdiv is rne of the quotient; f2c is the
code rne((f − P_BASE)/P_STEP) where it lies in 32..126, else the policy's answer; f2b tests |f − centre| ≤ P_TOL
(R91, R93, R94). -/
def Obligations.QuantizersAreExact : Prop :=
  (∀ (a : ℤ) (b : ℕ), 0 < b → rdiv a b = rne ((a : ℚ) / b)) ∧
  (∀ (c : Config) (f : Freq) (p : Policy), c.Legal → 0 < f.den →
    f2c c f p =
      if 32 ≤ rne (((f.num : ℚ) / f.den - c.pBase) / c.pStep) ∧ rne (((f.num : ℚ) / f.den - c.pBase) / c.pStep) ≤ 126 then
        .mapped (BitVec.ofInt 7 (rne (((f.num : ℚ) / f.den - c.pBase) / c.pStep)))
      else if p = .placeholder then .subst 63 else .nomap) ∧
  ∀ (c : Config) (f : Freq), 0 < f.den →
    f2b c f =
      if |(f.num : ℚ) / f.den - c.pBit0| ≤ c.pTol then some 0
      else if |(f.num : ℚ) / f.den - c.pBit1| ≤ c.pTol then some 1
      else none

/-- The codec round-trips: every character's frequency gives that character back under either policy, every bit's
frequency gives that bit back and lies outside the other bit's band; f2c is monotone; and at the default parameters the
frequencies that f2c maps to code x run from 995 + 10x to 1005 + 10x Hz, both ends included for an even x and neither
for an odd x (R95 (a) to (d)). -/
def Obligations.CodecRoundTrip : Prop :=
  (∀ c : Config, c.Legal →
    (∀ (code : ℕ) (p : Policy), 32 ≤ code → code ≤ 126 →
      ∃ f : ℕ, c2f c code = some f ∧ ∀ d : ℕ, 0 < d → f2c c ⟨f * d, d⟩ p = .mapped (BitVec.ofNat 7 code)) ∧
    (∀ (b : BitVec 1) (d : ℕ), 0 < d → f2b c ⟨b2f c b * d, d⟩ = some b ∧
      ¬|(b2f c b : ℚ) - b2f c (~~~b)| ≤ c.pTol) ∧
    ∀ (f f' : Freq) (p p' : Policy) (x x' : BitVec 7), 0 < f.den → 0 < f'.den → (f.num : ℚ) / f.den ≤ f'.num / f'.den →
      f2c c f p = .mapped x → f2c c f' p' = .mapped x' → x.toNat ≤ x'.toNat) ∧
  ∀ (f : Freq) (p : Policy) (x : BitVec 7), 0 < f.den → 32 ≤ x.toNat → x.toNat ≤ 126 →
    (f2c Config.default f p = .mapped x ↔
      if x.toNat % 2 = 0 then 995 + 10 * (x.toNat : ℚ) ≤ (f.num : ℚ) / f.den ∧ (f.num : ℚ) / f.den ≤ 1005 + 10 * x.toNat
      else 995 + 10 * (x.toNat : ℚ) < (f.num : ℚ) / f.den ∧ (f.num : ℚ) / f.den < 1005 + 10 * x.toNat)

/-- At the default parameters bin k is at 10·k Hz, which is no rounding tie, and this is what each bin maps to
(R100). -/
def Obligations.DefaultCodecMaps : Prop :=
  (∀ k : ℕ, ((freqOfBin Config.default k).num : ℚ) / (freqOfBin Config.default k).den = 10 * k ∧
    quantize Config.default (freqOfBin Config.default k) = (k : ℤ) - 100) ∧
  (∀ (k : ℕ) (p : Policy), f2c Config.default (freqOfBin Config.default k) p =
    if 132 ≤ k ∧ k ≤ 226 then .mapped (BitVec.ofNat 7 (k - 100)) else if p = .placeholder then .subst 63 else .nomap) ∧
  ∀ k : ℕ, f2b Config.default (freqOfBin Config.default k) =
    if 90 ≤ k ∧ k ≤ 110 then some 0 else if 190 ≤ k ∧ k ≤ 210 then some 1 else none

/-! ## The decode procedures -/

/-- Decode(f): silence clears the last symbol and the repeat counter in both modes; any other frequency goes to the
mode's procedure (R138). -/
def Obligations.DecodeFrequency : Prop :=
  ∀ (f : Freq) (s : State), decodeFreq f s =
    if f.num = 0 then { s with lastSymV := false, lastSym := 0, rptCnt := 0 }
    else if s.mode = .text then decodeText (f2c s.cfg f s.policy) s
    else decodeBinary (f2b s.cfg f) s

/-- DecodeText(r): the debounce, the pause space and the new symbol (R139, R141). One more detection of the last symbol
counts up to 255 and no further (R13). -/
def Obligations.DecodeTextProcedure : Prop :=
  ∀ s : State, decodeText .nomap s = s ∧
    ∀ (r : CharMap) (c : BitVec 7), r = .mapped c ∨ r = .subst c →
      (s.lastSymV = true ∧ c = s.lastSym → s.cfg.Legal →
        decodeText r s =
          if s.repeatT.toNat ≤ min (s.rptCnt.toNat + 1) 255 ∧ c ≠ 0x20 ∧ ¬(s.lastOutV = true ∧ s.lastOut = 0x20) then
            { s with
              rptCnt := BitVec.ofNat 8 (min (s.rptCnt.toNat + 1) 255)
              out := s.out ++ [0x0120], lastOut := 0x20, lastOutV := true }
          else { s with rptCnt := BitVec.ofNat 8 (min (s.rptCnt.toNat + 1) 255) }) ∧
      (¬(s.lastSymV = true ∧ c = s.lastSym) →
        decodeText r s =
          { s with
            out := s.out ++ [0x01#8 ++ c.setWidth 8], lastOut := c, lastOutV := true
            lastSym := c, lastSymV := true, rptCnt := 1 })

/-- DecodeBinary(r): a bit is appended, and the eighth drains the buffer into a BYTE, oldest bit first (R140, R141). -/
def Obligations.DecodeBinaryProcedure : Prop :=
  ∀ s : State, decodeBinary none s = s ∧
    ∀ b : BitVec 1, decodeBinary (some b) s =
      if s.pcnt = 7 then { s with out := s.out ++ [0x02#8 ++ (s.pbits ++ b)], pbits := 0, pcnt := 0 }
      else { s with pbits := s.pbits.extractLsb' 0 6 ++ b, pcnt := s.pcnt + 1 }

/-- A run of n detections of one symbol in a row, the first one new, emits the symbol once, then at most one space: the
space exactly when the run reaches the threshold, a second detection at least, and the symbol is no space
(R139, R142 (b)). -/
def Obligations.TextRunEmitsOnce : Prop :=
  ∀ (s : State) (c : BitVec 7) (n : ℕ), s.cfg.Legal → ¬(s.lastSymV = true ∧ c = s.lastSym) →
    ((decodeText (.mapped c))^[n + 1] s).out = s.out ++ runTokens s.repeatT c (n + 1)

/-- Eight mapped bits from an empty accumulator emit one BYTE, the first bit as bit 7, and leave it empty
(R140, R142 (c)). -/
def Obligations.EightBitsMakeAByte : Prop :=
  ∀ (s : State) (b : BitVec 8), s.pbits = 0 → s.pcnt = 0 →
    (List.range 8).foldl (fun t j => decodeBinary (some (b.extractLsb' (7 - j) 1)) t) s =
      { s with out := s.out ++ [0x02#8 ++ b] }

/-! ## Rules of the whole machine -/

/-- The response code of every command word, by its exact condition, and the data of NOMAP: 63 for a substitute, else 0
(R172, R174). -/
def Obligations.ResponseMatrix : Prop :=
  ∀ (w : CmdWord) (s : State), s.cfg.Legal → ∃ (t : State) (code : RespCode) (data : RegWord),
    runWord w s = .next t ∧ t.resp = s.resp ++ [mkResponse code data] ∧
    (code = match decode w with
      | none => .illegal
      | some .start => if s.session = .running then .alreadyRunning else .ok
      | some .stop => if s.session = .running then .ok else .notRunning
      | some .fault => if s.session = .running then .ok else .notRunning
      | some (.sample _) => if s.session = .running then .ok else .notRunning
      | some (.freq _) => if s.session = .running then .ok else .notRunning
      | some (.c2f c) => if 32 ≤ c.toNat ∧ c.toNat ≤ 126 then .ok else .nomap
      | some (.f2c fw) =>
        match f2c s.cfg (freqOfWord fw) s.policy with
        | .mapped _ => .ok
        | .subst _ => .nomap
        | .nomap => .nomap
      | some (.b2f _) => .ok
      | some (.f2b fw) =>
        match f2b s.cfg (freqOfWord fw) with
        | some _ => .ok
        | none => .nomap
      | some (.rdreg sel) => if sel.toNat ≤ 0x09 then .ok else .badSel
      | some (.wrreg sel v) =>
        if 0x0A ≤ sel.toNat then .badSel
        else if sel ≠ 0x01 ∧ sel ≠ 0x02 ∧ sel ≠ 0x07 then .readOnly
        else if sel ≠ 0x07 ∧ s.session = .running then .locked
        else if sel = 0x01 ∧ (v.extractLsb' 2 6 ≠ 0 ∨ v.extractLsb' 16 16 ≠ 0 ∨ v.extractLsb' 8 8 = 0) then .badValue
        else if sel = 0x07 ∧ v.extractLsb' 4 28 ≠ 0 then .badValue
        else .ok) ∧
    (∀ fw, decode w = some (.f2c fw) → code = .nomap → data = if s.policy = .placeholder then 63 else 0) ∧
    ((∀ fw, decode w ≠ some (.f2c fw)) → code = .nomap → data = 0)

/-- A refused command is precise: RDATA is 0, no token is emitted and nothing but FLAGS changes (R170, R171). -/
def Obligations.RefusalsArePrecise : Prop :=
  ∀ (w : CmdWord) (s t : State) (code : RespCode) (data : RegWord),
    runWord w s = .next t → t.resp = s.resp ++ [mkResponse code data] → isRefusal code = true →
    data = 0 ∧ AgreeButFlags s t

/-- What each command does to each flag: the only ways a flag is set, and the only one by which it is cleared
(R30, R164, R173). -/
def Obligations.FlagsRule : Prop :=
  ∀ (w : CmdWord) (s t : State), runWord w s = .next t →
    (∀ v : RegWord, decode w = some (.wrreg 0x07 v) → v.extractLsb' 4 28 = 0 →
      t.fFault = (s.fFault && !v.getLsbD 0) ∧ t.fReject = (s.fReject && !v.getLsbD 1) ∧
      t.fIllegal = (s.fIllegal && !v.getLsbD 2) ∧ t.fDropped = (s.fDropped && !v.getLsbD 3)) ∧
    ((∀ v : RegWord, decode w = some (.wrreg 0x07 v) → v.extractLsb' 4 28 ≠ 0) →
      (t.fFault = true ↔ s.fFault = true ∨ decode w = some .fault) ∧
      (t.fReject = true ↔ s.fReject = true ∨ (decode w = some .start ∧ s.session = .running)) ∧
      (t.fIllegal = true ↔ s.fIllegal = true ∨ decode w = none) ∧
      (t.fDropped = true ↔ s.fDropped = true ∨
        (s.session ≠ .running ∧ ((∃ x, decode w = some (.sample x)) ∨ ∃ fw, decode w = some (.freq fw)))))

/-- STATE changes only by an accepted START, STOP or FAULT, and as they say (R23, R130). -/
def Obligations.SessionTransitions : Prop :=
  ∀ (w : CmdWord) (s t : State), runWord w s = .next t →
    t.session =
      if decode w = some .start then .running
      else if (decode w = some .stop ∨ decode w = some .fault) ∧ s.session = .running then .stopped
      else s.session

/-- While a session is running no command changes CONFIG or ETHRESH; outside one only WRREG does (R24, R25, R162). -/
def Obligations.SettingsAreLocked : Prop :=
  ∀ (w : CmdWord) (s t : State), runWord w s = .next t →
    s.session = .running ∨ (∀ sel v, decode w ≠ some (.wrreg sel v)) →
    t.mode = s.mode ∧ t.policy = s.policy ∧ t.repeatT = s.repeatT ∧ t.ethresh = s.ethresh

/-- The decoder state changes only through START, STOP, FAULT, SAMPLE and FREQ, and only those emit a token
(R161, R180). -/
def Obligations.DecoderStateIsProtected : Prop :=
  ∀ (w : CmdWord) (s t : State), runWord w s = .next t →
    decode w ≠ some .start → decode w ≠ some .stop → decode w ≠ some .fault →
    (∀ x, decode w ≠ some (.sample x)) → (∀ fw, decode w ≠ some (.freq fw)) →
    t = { s with
      mode := t.mode, policy := t.policy, repeatT := t.repeatT, ethresh := t.ethresh
      fFault := t.fFault, fReject := t.fReject, fIllegal := t.fIllegal, fDropped := t.fDropped, resp := t.resp }

/-- A write is seen by the reads that follow it: RDREG of CONFIG or ETHRESH right after an accepted WRREG returns the
value written (R24, R25, R58, R194). -/
def Obligations.WriteThenRead : Prop :=
  ∀ (sel : BitVec 8) (v : RegWord) (s t : State), exec (.wrreg sel v) s = .next t →
    t.resp = s.resp ++ [mkResponse .ok 0] → sel = 0x01 ∨ sel = 0x02 →
    exec (.rdreg sel) t = .next { t with resp := t.resp ++ [mkResponse .ok v] }

/-- Completion: along every run, the DONE tokens emitted and the session still active are together as many as the
STARTs accepted (R177). -/
def Obligations.DoneOncePerSession : Prop :=
  ∀ (ws : List CmdWord) (n : ℕ) (s t : State), RunsStarting ws n s t →
    doneCount t.out + activeCount t = doneCount s.out + activeCount s + n

/-- The DONE of a session is its last token: outside a session no command emits a token (R142 (d), R177). -/
def Obligations.NoTokenOutsideSession : Prop :=
  ∀ (w : CmdWord) (s t : State), runWord w s = .next t → s.session ≠ .running → t.out = s.out

/-- What FB holds at FILL and above is not observable: two states that differ only there answer every command with the
same response and token, and agree as much afterwards (R34). -/
def Obligations.FrameBufferIsUnobservable : Prop :=
  ∀ (w : CmdWord) (s t s' : State), s.fb.wf = true → t.fb.wf = true → AgreeFrame s t → runWord w s = .next s' →
    ∃ t' : State, runWord w t = .next t' ∧ AgreeFrame s' t' ∧ s'.resp = t'.resp ∧ s'.out = t'.out

/-- FLAGS and the responses of the past influence nothing but FLAGS, and what RDREG FLAGS returns (R142 (e), R173). -/
def Obligations.FlagsInfluenceNothing : Prop :=
  ∀ (w : CmdWord) (s t s' : State), AgreeButFlags s t → runWord w s = .next s' →
    ∃ t' : State, runWord w t = .next t' ∧ AgreeButFlags s' t' ∧
      (decode w ≠ some (.rdreg 0x07) → ∃ r, s'.resp = s.resp ++ [r] ∧ t'.resp = t.resp ++ [r])

/-- A session does not depend on what came before it: two states with the same settings, whatever their pasts, are in
the same session state after START, and from then on emit the same tokens for the same commands
(R132, R142 (e), R192). -/
def Obligations.SessionsAreIndependent : Prop :=
  (∀ s t s' t' : State, s.session ≠ .running → t.session ≠ .running → s.mode = t.mode → s.policy = t.policy →
    s.repeatT = t.repeatT → s.ethresh = t.ethresh → s.cfg = t.cfg → s.draws = t.draws → s.inp = t.inp →
    exec .start s = .next s' → exec .start t = .next t' → AgreeSession s' t') ∧
  ∀ (w : CmdWord) (s t s' : State), s.fb.wf = true → t.fb.wf = true → AgreeSession s t → runWord w s = .next s' →
    ∃ t' : State, runWord w t = .next t' ∧ AgreeSession s' t' ∧
      ∃ new : List Token, s'.out = s.out ++ new ∧ t'.out = t.out ++ new

/-! ## Frames -/

/-- The codec queries and RDREG complete in every state and change nothing but the responses: no register, no flag, no
element of FB and no token (R54, R96 to R99, R160). -/
def Obligations.QueriesFrame : Prop :=
  ∀ (i : Instr) (s : State),
    (∃ c, i = .c2f c) ∨ (∃ fw, i = .f2c fw) ∨ (∃ b, i = .b2f b) ∨ (∃ fw, i = .f2b fw) ∨ (∃ sel, i = .rdreg sel) →
    ∃ (t : State) (r : RespWord), exec i s = .next t ∧ t = { s with resp := s.resp ++ [r] } ∧
      ∀ a : ℕ, t.fb.read a = s.fb.read a

/-- START, STOP and FAULT complete in every state and leave every setting, the flags they do not name, the free draws
and every element of FB as they were (R131 to R134). -/
def Obligations.SessionCommandsFrame : Prop :=
  ∀ (i : Instr) (s : State), i = .start ∨ i = .stop ∨ i = .fault →
    ∃ t : State, exec i s = .next t ∧
      t.mode = s.mode ∧ t.policy = s.policy ∧ t.repeatT = s.repeatT ∧ t.ethresh = s.ethresh ∧
      (i ≠ .fault → t.fFault = s.fFault) ∧ (i ≠ .start → t.fReject = s.fReject) ∧
      t.fIllegal = s.fIllegal ∧ t.fDropped = s.fDropped ∧ t.inp = s.inp ∧ t.draws = s.draws ∧ t.cfg = s.cfg ∧
      ∀ a : ℕ, t.fb.read a = s.fb.read a

/-- FREQ completes in every state and leaves the session state, every setting, EST, FILL, FB, the other flags and, in
each mode, the other mode's decoder state as they were (R137 to R141, R197). -/
def Obligations.FreqFrame : Prop :=
  ∀ (fw : RegWord) (s : State), ∃ t : State, exec (.freq fw) s = .next t ∧
    t.session = s.session ∧ t.mode = s.mode ∧ t.policy = s.policy ∧ t.repeatT = s.repeatT ∧ t.ethresh = s.ethresh ∧
    t.evalid = s.evalid ∧ t.esilent = s.esilent ∧ t.ebin = s.ebin ∧ t.fill = s.fill ∧
    t.fFault = s.fFault ∧ t.fReject = s.fReject ∧ t.fIllegal = s.fIllegal ∧
    (s.session = .running → t.fDropped = s.fDropped) ∧
    (s.mode = .text → t.pbits = s.pbits ∧ t.pcnt = s.pcnt) ∧
    (s.mode = .binary → t.lastOutV = s.lastOutV ∧ t.lastOut = s.lastOut) ∧
    (s.mode = .binary → fw ≠ 0 → t.lastSymV = s.lastSymV ∧ t.lastSym = s.lastSym ∧ t.rptCnt = s.rptCnt) ∧
    t.inp = s.inp ∧ t.draws = s.draws ∧ t.cfg = s.cfg ∧ ∀ a : ℕ, t.fb.read a = s.fb.read a

/-- SAMPLE completes in every state: accepted, it stores the sample at FILL and leaves every other element of FB as it
was; refused, it stores nothing; and it leaves the session state, every setting and the flags other than F_DROPPED
as they were, and the decoder state too unless it completes a frame (R135, R136). -/
def Obligations.SampleFrame : Prop :=
  ∀ (x : Sample) (s : State), s.fb.wf = true → ∃ t : State, exec (.sample x) s = .next t ∧
    t.session = s.session ∧ t.mode = s.mode ∧ t.policy = s.policy ∧ t.repeatT = s.repeatT ∧ t.ethresh = s.ethresh ∧
    t.fFault = s.fFault ∧ t.fReject = s.fReject ∧ t.fIllegal = s.fIllegal ∧
    (s.session = .running → t.fDropped = s.fDropped) ∧ t.inp = s.inp ∧ t.cfg = s.cfg ∧
    (s.session = .running → t.fb.read (storeIndex s) = x ∧ ∀ a : ℕ, a ≠ storeIndex s → t.fb.read a = s.fb.read a) ∧
    (s.session ≠ .running → ∀ a : ℕ, t.fb.read a = s.fb.read a) ∧
    (s.session ≠ .running ∨ s.fill.toNat + 1 ≠ s.cfg.pN →
      t.lastSymV = s.lastSymV ∧ t.lastSym = s.lastSym ∧ t.rptCnt = s.rptCnt ∧ t.lastOutV = s.lastOutV ∧
      t.lastOut = s.lastOut ∧ t.pbits = s.pbits ∧ t.pcnt = s.pcnt ∧ t.evalid = s.evalid ∧ t.esilent = s.esilent ∧
      t.ebin = s.ebin ∧ t.out = s.out ∧ t.draws = s.draws)

/-- WRREG completes in every state and leaves everything but the register it names as it was: the session and decoder
state, FB, the tokens, and each of CONFIG, ETHRESH and FLAGS that it does not name (R161 to R165). -/
def Obligations.WrregFrame : Prop :=
  ∀ (sel : BitVec 8) (v : RegWord) (s : State), ∃ t : State, exec (.wrreg sel v) s = .next t ∧
    (sel ≠ 0x01 → t.mode = s.mode ∧ t.policy = s.policy ∧ t.repeatT = s.repeatT) ∧
    (sel ≠ 0x02 → t.ethresh = s.ethresh) ∧
    (sel ≠ 0x07 → t.fFault = s.fFault ∧ t.fReject = s.fReject ∧ t.fIllegal = s.fIllegal ∧ t.fDropped = s.fDropped) ∧
    t = { s with
      mode := t.mode, policy := t.policy, repeatT := t.repeatT, ethresh := t.ethresh
      fFault := t.fFault, fReject := t.fReject, fIllegal := t.fIllegal, fDropped := t.fDropped, resp := t.resp } ∧
    ∀ a : ℕ, t.fb.read a = s.fb.read a

end
end

