-- ==== Sys2Proof/Laws/Decode.lean ====
section
/-! SUPPORT. The fields of a command word, and the words of each command. -/

namespace Sys2Proof

@[simp] theorem opcField_mkWord (opc sel : BitVec 8) (data : RegWord) : opcField (mkWord opc sel data) = opc := by
  apply BitVec.eq_of_getLsbD_eq
  intro i hi
  simp only [opcField, mkWord, BitVec.getLsbD_extractLsb', BitVec.getLsbD_append]
  simp [hi, show ¬ 56 + i < 32 by omega, show ¬ 56 + i - 32 < 16 by omega, show ¬ 56 + i - 32 - 16 < 8 by omega,
    show 56 + i - 32 - 16 - 8 = i by omega]

@[simp] theorem selField_mkWord (opc sel : BitVec 8) (data : RegWord) : selField (mkWord opc sel data) = sel := by
  apply BitVec.eq_of_getLsbD_eq
  intro i hi
  simp only [selField, mkWord, BitVec.getLsbD_extractLsb', BitVec.getLsbD_append]
  simp [hi, show ¬ 48 + i < 32 by omega, show 48 + i - 32 - 16 = i by omega]
  omega

@[simp] theorem rsvdField_mkWord (opc sel : BitVec 8) (data : RegWord) : rsvdField (mkWord opc sel data) = 0 := by
  apply BitVec.eq_of_getLsbD_eq
  intro i hi
  simp only [rsvdField, mkWord, BitVec.getLsbD_extractLsb', BitVec.getLsbD_append]
  simp [hi]

@[simp] theorem dataField_mkWord (opc sel : BitVec 8) (data : RegWord) : dataField (mkWord opc sel data) = data := by
  apply BitVec.eq_of_getLsbD_eq
  intro i hi
  simp only [dataField, mkWord, BitVec.getLsbD_extractLsb', BitVec.getLsbD_append]
  simp [hi]

/-- A word whose `RSVD` is 0 is made of its other three fields. -/
theorem mkWord_fields (w : CmdWord) (h : rsvdField w = 0) : mkWord (opcField w) (selField w) (dataField w) = w := by
  apply BitVec.eq_of_getLsbD_eq
  intro i hi
  have hr : ∀ j < 16, w.getLsbD (32 + j) = false := by
    intro j hj
    have := congrArg (fun v => v.getLsbD j) h
    simpa [rsvdField, BitVec.getLsbD_extractLsb', hj] using this
  simp only [opcField, selField, dataField, mkWord, BitVec.getLsbD_extractLsb', BitVec.getLsbD_append]
  rcases lt_or_ge i 32 with h1 | h1
  · simp [h1]
  · rcases lt_or_ge i 48 with h2 | h2
    · have := hr (i - 32) (by omega)
      rw [show 32 + (i - 32) = i by omega] at this
      simp [show ¬ i < 32 by omega, show i - 32 < 16 by omega, this]
    · rcases lt_or_ge i 56 with h3 | h3
      · simp [show ¬ i < 32 by omega, show ¬ i - 32 < 16 by omega, show i - 32 - 16 < 8 by omega,
          show 48 + (i - 32 - 16) = i by omega]
      · simp [show ¬ i < 32 by omega, show ¬ i - 32 < 16 by omega, show ¬ i - 32 - 16 < 8 by omega,
          show i - 32 - 16 - 8 < 8 by omega, show 56 + (i - 32 - 16 - 8) = i by omega]

/-- Words are the same exactly when their fields are. -/
theorem mkWord_inj {opc opc' sel sel' : BitVec 8} {data data' : RegWord} :
    mkWord opc sel data = mkWord opc' sel' data' ↔ opc = opc' ∧ sel = sel' ∧ data = data' := by
  constructor
  · intro h
    exact ⟨by simpa using congrArg opcField h, by simpa using congrArg selField h, by simpa using congrArg dataField h⟩
  · rintro ⟨rfl, rfl, rfl⟩; rfl

/-- A mask acts on each field. -/
theorem mkWord_and (opc sel o s : BitVec 8) (r : BitVec 16) (data d : RegWord) :
    mkWord opc sel data &&& (o ++ s ++ r ++ d) = mkWord (opc &&& o) (sel &&& s) (data &&& d) := by
  apply BitVec.eq_of_getLsbD_eq
  intro i hi
  simp only [mkWord, BitVec.getLsbD_and, BitVec.getLsbD_append]
  split_ifs <;> simp

/-- A word that fits a mask which covers `RSVD` and a match with `RSVD` 0 has `RSVD` 0. -/
theorem rsvdField_of_and {w k m : CmdWord} (hk : rsvdField k = BitVec.allOnes 16) (hm : rsvdField m = 0) (h : w &&& k = m) :
    rsvdField w = 0 := by
  have := congrArg rsvdField h
  simp only [rsvdField, BitVec.extractLsb'_and] at this hk hm ⊢
  rw [hk, hm, BitVec.and_allOnes] at this
  exact this

/-- The low bits of a word are the low bits of its `DATA`. -/
theorem extract_mkWord (opc sel : BitVec 8) (data : RegWord) {n : ℕ} (hn : n ≤ 32) :
    (mkWord opc sel data).extractLsb' 0 n = data.extractLsb' 0 n := by
  conv_rhs => rw [← dataField_mkWord opc sel data]
  apply BitVec.eq_of_getLsbD_eq
  intro i hi
  simp [dataField, BitVec.getLsbD_extractLsb', hi]
  intro h; omega

/-- Bits of `DATA` above the operand are 0 exactly when the operand, zero-extended, is `DATA`. -/
theorem data_eq_setWidth (n : ℕ) (d m : RegWord) (hm : ∀ i < 32, m.getLsbD i = decide (n ≤ i)) :
    d &&& m = 0#32 ↔ (d.extractLsb' 0 n).setWidth 32 = d := by
  have hbits : d &&& m = 0#32 ↔ ∀ i < 32, n ≤ i → d.getLsbD i = false := by
    constructor
    · intro h i hi hni
      have := congrArg (fun v => v.getLsbD i) h
      simp only [BitVec.getLsbD_and, hm i hi, hni, decide_true, Bool.and_true] at this
      simpa using this
    · intro h
      apply BitVec.eq_of_getLsbD_eq
      intro i hi
      simp only [BitVec.getLsbD_and, hm i hi]
      rcases lt_or_ge i n with h1 | h1
      · simp [show ¬ n ≤ i by omega]
      · simp [h i hi h1]
  rw [hbits]
  constructor
  · intro h
    apply BitVec.eq_of_getLsbD_eq
    intro i hi
    simp only [BitVec.getLsbD_setWidth, BitVec.getLsbD_extractLsb', hi, decide_true, Bool.true_and, Nat.zero_add]
    rcases lt_or_ge i n with h1 | h1
    · simp [h1]
    · simp [show ¬ i < n by omega, h i hi h1]
  · intro h i hi hni
    rw [← h]
    simp [BitVec.getLsbD_setWidth, BitVec.getLsbD_extractLsb', show ¬ i < n by omega]

theorem zmask_sample_iff (d : RegWord) : d &&& 0xFFFF0000#32 = 0#32 ↔ (d.extractLsb' 0 16).setWidth 32 = d :=
  data_eq_setWidth 16 d _ (by decide)

theorem zmask_c2f_iff (d : RegWord) : d &&& 0xFFFFFF00#32 = 0#32 ↔ (d.extractLsb' 0 8).setWidth 32 = d :=
  data_eq_setWidth 8 d _ (by decide)

theorem zmask_b2f_iff (d : RegWord) : d &&& 0xFFFFFFFE#32 = 0#32 ↔ (d.extractLsb' 0 1).setWidth 32 = d :=
  data_eq_setWidth 1 d _ (by decide)

theorem zmask_none_iff (d : RegWord) : d &&& 0xFFFFFFFF#32 = 0#32 ↔ d = 0#32 := by
  rw [show (0xFFFFFFFF#32) = BitVec.allOnes 32 by decide, BitVec.and_allOnes]

theorem extract_setWidth (n : ℕ) (hn : n ≤ 32) (x : BitVec n) : (x.setWidth 32).extractLsb' 0 n = x := by
  apply BitVec.eq_of_getLsbD_eq
  intro i hi
  simp [BitVec.getLsbD_setWidth, hi]
  omega

theorem illegal?_mkWord (opc sel : BitVec 8) (data : RegWord) : illegal? (mkWord opc sel data) =
    if legalOpcode opc = false then some .opcode
    else if usesSelect opc = false ∧ sel ≠ 0 then some .sel
    else if data &&& zmask opc ≠ 0 then some .mustBeZero
    else none := by
  simp only [illegal?, opcField_mkWord, rsvdField_mkWord, selField_mkWord, dataField_mkWord, ne_eq, not_true_eq_false, if_false]

/-- A word with a nonzero `RSVD` is ILLEGAL. -/
theorem decode_of_rsvd (w : CmdWord) (h : rsvdField w ≠ 0) : decode w = none := by
  unfold decode illegal?
  split_ifs <;> simp

theorem commandOf_of_not_legal {opc : BitVec 8} (h : legalOpcode opc = false) (sel : BitVec 8) (data : RegWord) :
    commandOf opc sel data = none := by
  have hne : ∀ c : BitVec 8, legalOpcode c = true → opc ≠ c := fun c hc he => by rw [he, hc] at h; exact absurd h (by decide)
  unfold commandOf
  rw [if_neg (hne 0x01#8 (by decide))]
  rw [if_neg (hne 0x02#8 (by decide))]
  rw [if_neg (hne 0x03#8 (by decide))]
  rw [if_neg (hne 0x10#8 (by decide))]
  rw [if_neg (hne 0x11#8 (by decide))]
  rw [if_neg (hne 0x20#8 (by decide))]
  rw [if_neg (hne 0x21#8 (by decide))]
  rw [if_neg (hne 0x22#8 (by decide))]
  rw [if_neg (hne 0x23#8 (by decide))]
  rw [if_neg (hne 0x30#8 (by decide))]
  rw [if_neg (hne 0x31#8 (by decide))]

/-- Decoding of a word from its fields. -/
theorem decode_mkWord (opc sel : BitVec 8) (data : RegWord) : decode (mkWord opc sel data) =
    if (usesSelect opc = true ∨ sel = 0) ∧ data &&& zmask opc = 0 then commandOf opc sel data else none := by
  unfold decode
  rw [illegal?_mkWord, opcField_mkWord, selField_mkWord, dataField_mkWord]
  by_cases h1 : legalOpcode opc = false
  · rw [if_pos h1, commandOf_of_not_legal h1, ite_self]
  · rw [if_neg h1]
    by_cases h2 : usesSelect opc = false ∧ sel ≠ 0
    · rw [if_pos h2, if_neg]
      rintro ⟨h | h, _⟩
      · rw [h2.1] at h; exact absurd h (by decide)
      · exact h2.2 h
    · rw [if_neg h2]
      have h2' : usesSelect opc = true ∨ sel = 0 := by
        by_cases hs : sel = 0
        · exact Or.inr hs
        · left; cases hu : usesSelect opc
          · exact absurd ⟨hu, hs⟩ h2
          · rfl
      by_cases h3 : data &&& zmask opc = 0
      · rw [if_neg (by simpa using h3), if_pos ⟨h2', h3⟩]
      · rw [if_pos h3, if_neg (fun h => h3 h.2)]

/-- A word that decodes is made of the fields of its command. -/
theorem decode_cases {w : CmdWord} {i : Instr} (h : decode w = some i) :
    w = mkWord (opcField w) (selField w) (dataField w) ∧ (usesSelect (opcField w) = true ∨ selField w = 0) ∧
    dataField w &&& zmask (opcField w) = 0 ∧ commandOf (opcField w) (selField w) (dataField w) = some i := by
  have hr : rsvdField w = 0 := by
    by_contra hr
    rw [decode_of_rsvd w hr] at h
    exact absurd h (by simp)
  have hw := mkWord_fields w hr
  rw [← hw, decode_mkWord] at h
  split_ifs at h with hc
  exact ⟨hw.symm, hc.1, hc.2, h⟩

/-- The operation code, select and operand of the command that a word's fields stand for. -/
theorem commandOf_cases {opc sel : BitVec 8} {data : RegWord} {i : Instr} (h : commandOf opc sel data = some i) :
    (opc = 0x01 ∧ i = .start) ∨ (opc = 0x02 ∧ i = .stop) ∨ (opc = 0x03 ∧ i = .fault) ∨
    (opc = 0x10 ∧ i = .sample (data.extractLsb' 0 16)) ∨ (opc = 0x11 ∧ i = .freq data) ∨
    (opc = 0x20 ∧ i = .c2f (data.extractLsb' 0 8)) ∨ (opc = 0x21 ∧ i = .f2c data) ∨
    (opc = 0x22 ∧ i = .b2f (data.extractLsb' 0 1)) ∨ (opc = 0x23 ∧ i = .f2b data) ∨
    (opc = 0x30 ∧ i = .rdreg sel) ∨ (opc = 0x31 ∧ i = .wrreg sel data) := by
  unfold commandOf at h
  by_cases c0 : opc = 0x01#8
  · rw [if_pos c0] at h; exact Or.inl ⟨c0, (Option.some.inj h).symm⟩
  rw [if_neg c0] at h
  by_cases c1 : opc = 0x02#8
  · rw [if_pos c1] at h; exact Or.inr (Or.inl ⟨c1, (Option.some.inj h).symm⟩)
  rw [if_neg c1] at h
  by_cases c2 : opc = 0x03#8
  · rw [if_pos c2] at h; exact Or.inr (Or.inr (Or.inl ⟨c2, (Option.some.inj h).symm⟩))
  rw [if_neg c2] at h
  by_cases c3 : opc = 0x10#8
  · rw [if_pos c3] at h; exact Or.inr (Or.inr (Or.inr (Or.inl ⟨c3, (Option.some.inj h).symm⟩)))
  rw [if_neg c3] at h
  by_cases c4 : opc = 0x11#8
  · rw [if_pos c4] at h; exact Or.inr (Or.inr (Or.inr (Or.inr (Or.inl ⟨c4, (Option.some.inj h).symm⟩))))
  rw [if_neg c4] at h
  by_cases c5 : opc = 0x20#8
  · rw [if_pos c5] at h; exact Or.inr (Or.inr (Or.inr (Or.inr (Or.inr (Or.inl ⟨c5, (Option.some.inj h).symm⟩)))))
  rw [if_neg c5] at h
  by_cases c6 : opc = 0x21#8
  · rw [if_pos c6] at h; exact Or.inr (Or.inr (Or.inr (Or.inr (Or.inr (Or.inr (Or.inl ⟨c6, (Option.some.inj h).symm⟩))))))
  rw [if_neg c6] at h
  by_cases c7 : opc = 0x22#8
  · rw [if_pos c7] at h; exact Or.inr (Or.inr (Or.inr (Or.inr (Or.inr (Or.inr (Or.inr (Or.inl ⟨c7, (Option.some.inj h).symm⟩)))))))
  rw [if_neg c7] at h
  by_cases c8 : opc = 0x23#8
  · rw [if_pos c8] at h; exact Or.inr (Or.inr (Or.inr (Or.inr (Or.inr (Or.inr (Or.inr (Or.inr (Or.inl ⟨c8, (Option.some.inj h).symm⟩))))))))
  rw [if_neg c8] at h
  by_cases c9 : opc = 0x30#8
  · rw [if_pos c9] at h; exact Or.inr (Or.inr (Or.inr (Or.inr (Or.inr (Or.inr (Or.inr (Or.inr (Or.inr (Or.inl ⟨c9, (Option.some.inj h).symm⟩)))))))))
  rw [if_neg c9] at h
  by_cases c10 : opc = 0x31#8
  · rw [if_pos c10] at h; exact Or.inr (Or.inr (Or.inr (Or.inr (Or.inr (Or.inr (Or.inr (Or.inr (Or.inr (Or.inr (⟨c10, (Option.some.inj h).symm⟩))))))))))
  rw [if_neg c10] at h
  exact absurd h (by simp)

end Sys2Proof
end

