-- ==== Sys2Proof/Laws/Separation.lean ====
section
/-! SUPPORT. A nonzero algebraic integer of a cyclotomic field whose conjugates are bounded is bounded below: its norm is
a nonzero integer. This is what lets finite precision decide the estimator's comparisons exactly. -/

namespace Sys2Proof.Machine

open IntermediateField Finset

/-- The root of unity e^(2πi/m). -/
noncomputable def rootOfUnity (m : ℕ) : ℂ := Complex.exp (2 * Real.pi * Complex.I / m)

theorem rootOfUnity_pow (m : ℕ) (k : ℕ) : rootOfUnity m ^ k = Complex.exp (2 * Real.pi * Complex.I * (k / m)) := by
  rw [rootOfUnity, ← Complex.exp_nat_mul]; congr 1; ring

theorem rootOfUnity_pow_self {m : ℕ} (hm : m ≠ 0) : rootOfUnity m ^ m = 1 :=
  (Complex.isPrimitiveRoot_exp m hm).pow_eq_one

/-- `z` is an algebraic integer of ℚ(e^(2πi/m)) that, with all its conjugates, is at most `B` in absolute value. -/
def ConjBounded (m : ℕ) (B : ℝ) (z : ℂ) : Prop :=
  ∃ x : ℚ⟮rootOfUnity m⟯, IsIntegral ℤ x ∧ (x : ℂ) = z ∧ ∀ σ : ℚ⟮rootOfUnity m⟯ →ₐ[ℚ] ℂ, ‖σ x‖ ≤ B

namespace ConjBounded

variable {m : ℕ} {A B : ℝ} {y z : ℂ}

theorem mono (h : ConjBounded m A z) (hAB : A ≤ B) : ConjBounded m B z := by
  obtain ⟨x, hx, rfl, hb⟩ := h
  exact ⟨x, hx, rfl, fun σ => (hb σ).trans hAB⟩

theorem int (n : ℤ) : ConjBounded m |(n : ℝ)| n := by
  refine ⟨n, ?_, by simp, fun σ => by simp⟩
  exact isIntegral_algebraMap (R := ℤ) (x := n)

theorem zero : ConjBounded m 0 0 := by simpa using int (m := m) 0

theorem pow_root (hm : m ≠ 0) (k : ℕ) : ConjBounded m 1 (rootOfUnity m ^ k) := by
  set g : ℚ⟮rootOfUnity m⟯ := ⟨rootOfUnity m, mem_adjoin_simple_self ℚ _⟩ with hg
  have h1 : g ^ m = 1 := by
    apply Subtype.ext
    rw [SubmonoidClass.coe_pow]
    exact rootOfUnity_pow_self hm
  have hi : IsIntegral ℤ g := by
    apply IsIntegral.of_pow (Nat.pos_of_ne_zero hm)
    rw [h1]; exact isIntegral_one
  refine ⟨g ^ k, hi.pow k, by simp [hg], fun σ => ?_⟩
  have : (σ g) ^ m = 1 := by rw [← map_pow, h1, map_one]
  rw [map_pow, norm_pow, Complex.norm_eq_one_of_pow_eq_one this hm, one_pow]

theorem add (hy : ConjBounded m A y) (hz : ConjBounded m B z) : ConjBounded m (A + B) (y + z) := by
  obtain ⟨x, hx, rfl, hb⟩ := hy
  obtain ⟨w, hw, rfl, hc⟩ := hz
  exact ⟨x + w, hx.add hw, by simp, fun σ => by rw [map_add]; exact (norm_add_le _ _).trans (add_le_add (hb σ) (hc σ))⟩

theorem sub (hy : ConjBounded m A y) (hz : ConjBounded m B z) : ConjBounded m (A + B) (y - z) := by
  obtain ⟨x, hx, rfl, hb⟩ := hy
  obtain ⟨w, hw, rfl, hc⟩ := hz
  exact ⟨x - w, hx.sub hw, by simp, fun σ => by rw [map_sub]; exact (norm_sub_le _ _).trans (add_le_add (hb σ) (hc σ))⟩

theorem mul (hA : 0 ≤ A) (hy : ConjBounded m A y) (hz : ConjBounded m B z) : ConjBounded m (A * B) (y * z) := by
  obtain ⟨x, hx, rfl, hb⟩ := hy
  obtain ⟨w, hw, rfl, hc⟩ := hz
  exact ⟨x * w, hx.mul hw, by simp, fun σ => by
    rw [map_mul, norm_mul]; exact mul_le_mul (hb σ) (hc σ) (norm_nonneg _) hA⟩

theorem sum {ι : Type} (s : Finset ι) (b : ι → ℝ) (f : ι → ℂ) (h : ∀ i ∈ s, ConjBounded m (b i) (f i)) :
    ConjBounded m (∑ i ∈ s, b i) (∑ i ∈ s, f i) := by
  classical
  induction s using Finset.induction_on with
  | empty => simpa using zero
  | insert a s ha ih =>
    rw [sum_insert ha, sum_insert ha]
    exact (h a (mem_insert_self a s)).add (ih fun i hi => h i (mem_insert_of_mem hi))

/-- A conjugate-bounded number that is not 0 is not small. -/
theorem one_le_norm_mul (hm : m ≠ 0) (hB : 1 ≤ B) (hz : ConjBounded m B z) (h0 : z ≠ 0) : 1 ≤ ‖z‖ * B ^ m := by
  obtain ⟨x, hx, rfl, hb⟩ := hz
  have hint : IsIntegral ℚ (rootOfUnity m) := by
    apply IsIntegral.of_pow (Nat.pos_of_ne_zero hm)
    rw [rootOfUnity_pow_self hm]; exact isIntegral_one
  have hfd : FiniteDimensional ℚ ℚ⟮rootOfUnity m⟯ := adjoin.finiteDimensional hint
  have hx0 : x ≠ 0 := fun h => h0 (by simp [h])
  have hcard : Fintype.card (ℚ⟮rootOfUnity m⟯ →ₐ[ℚ] ℂ) ≤ m := by
    rw [AlgHom.card, adjoin.finrank hint]
    have hdvd : minpoly ℚ (rootOfUnity m) ∣ (Polynomial.X ^ m - 1 : Polynomial ℚ) := by
      apply minpoly.dvd
      simp [rootOfUnity_pow_self hm]
    have hne : (Polynomial.X ^ m - 1 : Polynomial ℚ) ≠ 0 :=
      (Polynomial.monic_X_pow_sub_C (1 : ℚ) hm).ne_zero
    have := Polynomial.natDegree_le_of_dvd hdvd hne
    rwa [show (Polynomial.X ^ m - 1 : Polynomial ℚ) = Polynomial.X ^ m - Polynomial.C 1 by simp,
      Polynomial.natDegree_X_pow_sub_C] at this
  obtain ⟨n, hn⟩ := IsIntegrallyClosed.isIntegral_iff.mp (Algebra.isIntegral_norm ℚ hx)
  have hnorm := Algebra.norm_eq_prod_embeddings ℚ ℂ x
  have hn0 : n ≠ 0 := by
    rintro rfl
    rw [map_zero] at hn
    exact hx0 (Algebra.norm_eq_zero_iff.mp hn.symm)
  have h1 : (1 : ℝ) ≤ ∏ σ : ℚ⟮rootOfUnity m⟯ →ₐ[ℚ] ℂ, ‖σ x‖ := by
    rw [← norm_prod, ← hnorm, ← hn]
    have : (1 : ℝ) ≤ |(n : ℝ)| := by exact_mod_cast Int.one_le_abs hn0
    simpa using this
  classical
  set v : ℚ⟮rootOfUnity m⟯ →ₐ[ℚ] ℂ := (algebraMap ℚ⟮rootOfUnity m⟯ ℂ).toRatAlgHom with hv
  have hvx : ‖v x‖ = ‖(x : ℂ)‖ := rfl
  rw [← Finset.mul_prod_erase univ (fun σ => ‖σ x‖) (mem_univ v), hvx] at h1
  refine h1.trans (mul_le_mul_of_nonneg_left ?_ (norm_nonneg _))
  calc ∏ σ ∈ univ.erase v, ‖σ x‖ ≤ ∏ σ ∈ univ.erase v, B :=
        prod_le_prod (fun σ _ => norm_nonneg _) fun σ _ => hb σ
    _ = B ^ (univ.erase v).card := by rw [prod_const]
    _ ≤ B ^ m := pow_le_pow_right₀ hB ((card_le_card (erase_subset _ _)).trans hcard)

end ConjBounded

end Sys2Proof.Machine
end

