-- ==== Sys2Proof/Laws/Trig.lean ====
section
/-! SUPPORT. The fixed-point cosine is within `cosErr` of the cosine. -/

namespace Sys2Proof.Machine

open Finset Real

/-- Rounding each term down costs less than one unit a term. -/
theorem abs_altSum_sub_le (f : Nat → Nat) (g : Nat → ℝ) (h : ∀ j, (f j : ℝ) ≤ g j ∧ g j ≤ f j + 1) (n : Nat) :
    |(altSum f n : ℝ) - ∑ j ∈ range n, (-1) ^ j * g j| ≤ n := by
  induction n with
  | zero => simp [altSum]
  | succ n ih =>
    rw [sum_range_succ, altSum]
    obtain ⟨h1, h2⟩ := h n
    rw [abs_le] at ih ⊢
    rcases Nat.even_or_odd n with hn | hn
    · rw [if_pos (Nat.even_iff.mp hn), hn.neg_one_pow]
      push_cast
      constructor <;> linarith [ih.1, ih.2]
    · rw [if_neg (by rw [Nat.odd_iff] at hn; omega), hn.neg_one_pow]
      push_cast
      constructor <;> linarith [ih.1, ih.2]

/-- A floored quotient of naturals brackets the real quotient. -/
theorem nat_div_bracket (a b : Nat) : ((a / b : Nat) : ℝ) ≤ (a : ℝ) / b ∧ (a : ℝ) / b ≤ (a / b : Nat) + 1 := by
  constructor
  · exact Nat.cast_div_le
  · rcases Nat.eq_zero_or_pos b with rfl | hb
    · simp
    · rw [div_le_iff₀ (by exact_mod_cast hb)]
      have := Nat.lt_div_mul_add hb (a := a)
      have h2 : a ≤ (a / b + 1) * b := by rw [add_mul, one_mul]; omega
      exact_mod_cast h2

/-- A partial sum of an alternating series of decreasing terms is within its next term of the limit. -/
theorem abs_alternating_sub_le {f : Nat → ℝ} {l : ℝ} (ha : Antitone f)
    (hl : Filter.Tendsto (fun n => ∑ i ∈ range n, (-1) ^ i * f i) Filter.atTop (nhds l)) (n : Nat) :
    |∑ i ∈ range n, (-1) ^ i * f i - l| ≤ f n := by
  rcases Nat.even_or_odd n with ⟨k, hk⟩ | ⟨k, hk⟩
  · have h1 := ha.alternating_series_le_tendsto hl k
    have h2 := ha.tendsto_le_alternating_series hl k
    rw [sum_range_succ, (even_two_mul k).neg_one_pow, one_mul] at h2
    rw [← two_mul] at hk
    subst hk
    rw [abs_le]; constructor <;> linarith
  · have h1 := ha.tendsto_le_alternating_series hl k
    have h2 := ha.alternating_series_le_tendsto hl (k + 1)
    rw [show 2 * (k + 1) = (2 * k + 1) + 1 by ring, sum_range_succ, (odd_two_mul_add_one k).neg_one_pow] at h2
    subst hk
    rw [abs_le]; constructor <;> linarith

/-- The arctangent series in fixed point. -/
theorem abs_arctanFix_sub_le (q x n : Nat) (hx : 2 ≤ x) (hn : 2 ^ q ≤ x ^ (2 * n + 1)) :
    |(arctanFix q x n : ℝ) - 2 ^ q * arctan ((x : ℝ)⁻¹)| ≤ n + 1 := by
  have hx0 : (0 : ℝ) < x := by positivity
  have hx1 : (x : ℝ)⁻¹ < 1 := inv_lt_one_of_one_lt₀ (by exact_mod_cast hx)
  set f : Nat → ℝ := fun j => (x : ℝ)⁻¹ ^ (2 * j + 1) / ((2 * j + 1 : Nat) : ℝ) with hf
  have hanti : Antitone f := by
    apply antitone_nat_of_succ_le
    intro j
    simp only [hf]
    apply div_le_div₀ (by positivity) _ (by positivity) (by push_cast; linarith)
    exact pow_le_pow_of_le_one (by positivity) hx1.le (by omega)
  have hs : Filter.Tendsto (fun n => ∑ i ∈ range n, (-1) ^ i * f i) Filter.atTop (nhds (arctan (x : ℝ)⁻¹)) := by
    have := (hasSum_arctan (x := (x : ℝ)⁻¹) (by rw [Real.norm_of_nonneg (by positivity)]; exact hx1)).tendsto_sum_nat
    refine this.congr fun n => sum_congr rfl fun i _ => ?_
    simp only [hf]; rw [mul_div_assoc]
  have hmain := abs_alternating_sub_le hanti hs n
  have hround := abs_altSum_sub_le (fun j => 2 ^ q / ((2 * j + 1) * x ^ (2 * j + 1))) (fun j => 2 ^ q * f j) (fun j => by
    have := nat_div_bracket (2 ^ q) ((2 * j + 1) * x ^ (2 * j + 1))
    have e : (2 : ℝ) ^ q * f j = ((2 ^ q : Nat) : ℝ) / (((2 * j + 1) * x ^ (2 * j + 1) : Nat) : ℝ) := by
      simp only [hf]; push_cast; rw [inv_pow]; field_simp
    rw [e]; exact this) n
  have hfn : 2 ^ q * f n ≤ 1 := by
    simp only [hf]
    rw [inv_pow, ← mul_div_assoc, div_le_one (by positivity)]
    have h1 : (2 : ℝ) ^ q ≤ x ^ (2 * n + 1) := by exact_mod_cast hn
    calc (2 : ℝ) ^ q * ((x : ℝ) ^ (2 * n + 1))⁻¹ ≤ 1 := by
          rw [← div_eq_mul_inv, div_le_one (by positivity)]; exact h1
      _ ≤ _ := by push_cast; linarith [Nat.cast_nonneg (α := ℝ) n]
  have e2 : (arctanFix q x n : ℝ) - 2 ^ q * arctan ((x : ℝ)⁻¹)
      = ((arctanFix q x n : ℝ) - ∑ j ∈ range n, (-1) ^ j * (2 ^ q * f j))
        + 2 ^ q * (∑ i ∈ range n, (-1) ^ i * f i - arctan (x : ℝ)⁻¹) := by
    rw [mul_sub, mul_sum]
    have : ∑ j ∈ range n, (-1 : ℝ) ^ j * (2 ^ q * f j) = ∑ i ∈ range n, 2 ^ q * ((-1) ^ i * f i) :=
      sum_congr rfl fun i _ => by ring
    rw [this]; ring
  rw [e2]
  refine (abs_add_le _ _).trans (add_le_add hround ?_)
  rw [abs_mul, abs_of_nonneg (by positivity)]
  exact (mul_le_mul_of_nonneg_left hmain (by positivity)).trans hfn

/-- π in fixed point. -/
theorem abs_piFix_sub_le (q : Nat) : |(piFix q : ℝ) - 2 ^ q * π| ≤ 20 * (q + 1) := by
  have h5 := abs_arctanFix_sub_le q 5 q (by norm_num)
    ((Nat.pow_le_pow_left (by norm_num) q).trans (Nat.pow_le_pow_right (by norm_num) (by omega)))
  have h239 := abs_arctanFix_sub_le q 239 q (by norm_num)
    ((Nat.pow_le_pow_left (by norm_num) q).trans (Nat.pow_le_pow_right (by norm_num) (by omega)))
  have hpi := four_mul_arctan_inv_5_sub_arctan_inv_239
  push_cast at h5 h239
  have e : (piFix q : ℝ) - 2 ^ q * π = 16 * ((arctanFix q 5 q : ℝ) - 2 ^ q * arctan 5⁻¹)
      - 4 * ((arctanFix q 239 q : ℝ) - 2 ^ q * arctan 239⁻¹) := by
    rw [piFix]; push_cast; linear_combination (4 * 2 ^ q) * hpi
  rw [e, abs_le]
  rw [abs_le] at h5 h239
  constructor <;> linarith [h5.1, h5.2, h239.1, h239.2]

/-- The cosine series of `n` terms. -/
theorem abs_cos_series_sub_le (y : ℝ) (n : Nat) (hy : |y| ≤ 7) (hn : 20 ≤ n) :
    |∑ j ∈ range n, (-1) ^ j * (y ^ (2 * j) / (2 * j).factorial) - cos y| ≤ 7 ^ (2 * n) / (2 * n).factorial * 2 := by
  have key : ∀ n : Nat, (∑ m ∈ range (2 * n), (y * Complex.I : ℂ) ^ m / m.factorial).re
      = ∑ j ∈ range n, (-1) ^ j * (y ^ (2 * j) / (2 * j).factorial) := by
    intro n
    induction n with
    | zero => simp
    | succ n ih =>
      rw [show 2 * (n + 1) = 2 * n + 1 + 1 by ring, sum_range_succ, sum_range_succ, sum_range_succ, Complex.add_re,
        Complex.add_re, ih, add_assoc]
      congr 1
      have h1 : ((y * Complex.I : ℂ) ^ (2 * n) / ((2 * n).factorial : ℂ)) = (((-1) ^ n * (y ^ (2 * n) / (2 * n).factorial) : ℝ) : ℂ) := by
        rw [mul_pow, pow_mul Complex.I, Complex.I_sq]; push_cast; ring
      have h2 : ((y * Complex.I : ℂ) ^ (2 * n + 1) / ((2 * n + 1).factorial : ℂ))
          = (((-1) ^ n * (y ^ (2 * n + 1) / (2 * n + 1).factorial) : ℝ) : ℂ) * Complex.I := by
        rw [mul_pow, pow_succ Complex.I, pow_mul Complex.I, Complex.I_sq]; push_cast; ring
      rw [h1, h2, Complex.ofReal_re, Complex.re_ofReal_mul, Complex.I_re, mul_zero, add_zero]
  have hb := Complex.exp_bound' (x := y * Complex.I) (n := 2 * n) (by
    rw [norm_mul, Complex.norm_I, mul_one, Complex.norm_real, Real.norm_eq_abs, div_le_iff₀ (by positivity)]
    have : (20 : ℝ) ≤ n := by exact_mod_cast hn
    push_cast; linarith)
  rw [norm_mul, Complex.norm_I, mul_one, Complex.norm_real, Real.norm_eq_abs] at hb
  have hre := (Complex.abs_re_le_norm _).trans hb
  rw [Complex.sub_re, key, Complex.exp_ofReal_mul_I_re, abs_sub_comm] at hre
  refine hre.trans ?_
  gcongr

/-- One more pair of factors in the factorial outweighs one more bit and two more powers of 7. -/
theorem cos_tail_step {T S F A B : ℝ} (hT : 0 ≤ T) (hS : 0 ≤ S) (hF : 0 < F) (h : 98 ≤ A * B) :
    T * 2 * (49 * S / (A * (B * F)) * 2) ≤ T * (S / F * 2) := by
  have hAB : 0 < A * B := by linarith
  calc T * 2 * (49 * S / (A * (B * F)) * 2) = T * (S / F * 2) * (98 / (A * B)) := by
        rw [← mul_assoc A B F]; field_simp; ring
    _ ≤ T * (S / F * 2) * 1 := by
        gcongr
        rw [div_le_one hAB]; exact h
    _ = T * (S / F * 2) := mul_one _

/-- The tail of the cosine series is below one unit. -/
theorem cos_tail_le (q : Nat) : (2 : ℝ) ^ q * (7 ^ (2 * (q + 20)) / (2 * (q + 20)).factorial * 2) ≤ 1 := by
  induction q with
  | zero => norm_num [Nat.factorial]
  | succ q ih =>
    have e : (2 * (q + 1 + 20)).factorial = (2 * q + 42) * ((2 * q + 41) * (2 * (q + 20)).factorial) := by
      rw [show 2 * (q + 1 + 20) = 2 * (q + 20) + 1 + 1 by ring, Nat.factorial_succ, Nat.factorial_succ]
      rfl
    have h7 : (7 : ℝ) ^ (2 * (q + 1 + 20)) = 49 * 7 ^ (2 * (q + 20)) := by
      rw [show 2 * (q + 1 + 20) = 2 * (q + 20) + 2 by ring, pow_add]; ring
    have h98 : (98 : ℝ) ≤ ((2 * q + 42 : Nat) : ℝ) * ((2 * q + 41 : Nat) : ℝ) := by
      have : 42 * 41 ≤ (2 * q + 42) * (2 * q + 41) := Nat.mul_le_mul (by omega) (by omega)
      have h : (98 : Nat) ≤ (2 * q + 42) * (2 * q + 41) := le_trans (by norm_num) this
      exact_mod_cast h
    rw [e, h7, pow_succ, Nat.cast_mul, Nat.cast_mul]
    exact (cos_tail_step (pow_nonneg (by norm_num) _) (pow_nonneg (by norm_num) _)
      (Nat.cast_pos.mpr (Nat.factorial_pos _)) h98).trans ih

/-- The error of the fixed-point cosine. -/
theorem abs_cosFix_sub_le (q a b : Nat) (hq : 12 ≤ q) (hb0 : 0 < b) (hab : a ≤ b) :
    |(cosFix q a b : ℝ) - 2 ^ q * cos (2 * π * a / b)| ≤ cosErr q := by
  have hb : (0 : ℝ) < b := by exact_mod_cast hb0
  have ha : (a : ℝ) / b ≤ 1 := by rw [div_le_one hb]; exact_mod_cast hab
  have ha0 : (0 : ℝ) ≤ (a : ℝ) / b := by positivity
  set P : Nat := (piFix q).toNat with hP
  have hpi : |(P : ℝ) - 2 ^ q * π| ≤ 20 * (q + 1) := by
    have h := abs_piFix_sub_le q
    have h0 : (0 : ℝ) ≤ 2 ^ q * π := by positivity
    have hc : (P : ℝ) = max (piFix q : ℝ) 0 := by
      rw [hP]
      have : (((piFix q).toNat : Int) : ℝ) = ((max (piFix q) 0 : Int) : ℝ) := by rw [Int.toNat_eq_max]
      rw [Int.cast_max] at this
      exact_mod_cast this
    rw [abs_le] at h ⊢
    rw [hc]
    have h1 : (0:ℝ) ≤ 20 * (q + 1) := by positivity
    constructor
    · linarith [h.1, le_max_left (piFix q : ℝ) 0]
    · rw [sub_le_iff_le_add]; exact max_le (by linarith [h.2]) (by linarith)
  set x : Nat := 2 * P * a / b with hx
  have hx1 := nat_div_bracket (2 * P * a) b
  rw [← hx] at hx1
  have hxe : |(x : ℝ) - 2 ^ q * (2 * π * a / b)| ≤ 1 + 40 * (q + 1) := by
    have e : ((2 * P * a : Nat) : ℝ) / b - 2 ^ q * (2 * π * a / b) = 2 * ((P : ℝ) - 2 ^ q * π) * (a / b) := by
      push_cast; ring
    have h2 : |2 * ((P : ℝ) - 2 ^ q * π) * (a / b)| ≤ 40 * (q + 1) := by
      rw [abs_mul, abs_mul, abs_of_nonneg ha0, abs_of_nonneg (by norm_num : (0 : ℝ) ≤ 2)]
      calc 2 * |(P : ℝ) - 2 ^ q * π| * (a / b) ≤ 2 * |(P : ℝ) - 2 ^ q * π| * 1 := by gcongr
        _ ≤ _ := by linarith
    rw [← e] at h2
    rw [abs_le] at h2 ⊢
    constructor <;> linarith [h2.1, h2.2, hx1.1, hx1.2]
  have h2q : (0 : ℝ) < 2 ^ q := by positivity
  set y : ℝ := x / 2 ^ q with hy
  have hye : |2 ^ q * y - 2 ^ q * (2 * π * a / b)| ≤ 1 + 40 * (q + 1) := by
    rw [hy, mul_div_cancel₀ _ h2q.ne']; exact hxe
  have hsmall : 1 + 40 * ((q : ℝ) + 1) ≤ 2 ^ q * (1 / 7) := by
    have h : 7 + 280 * (q + 1) ≤ 2 ^ q := by
      clear * - hq
      induction q, hq using Nat.le_induction with
      | base => norm_num
      | succ k _ ih =>
        rw [pow_succ]
        linarith
    have h' : (7 : ℝ) + 280 * (q + 1) ≤ 2 ^ q := by exact_mod_cast h
    linarith
  have hy7 : |y| ≤ 7 := by
    have hθ : (2 * π * a / b : ℝ) ≤ 6.4 := by
      rw [mul_div_assoc]
      calc (2 * π) * (a / b) ≤ 2 * π * 1 := by gcongr
        _ ≤ 6.4 := by linarith [pi_lt_d2]
    have hy0 : 0 ≤ y := by positivity
    rw [abs_of_nonneg hy0]
    rw [← mul_sub, abs_mul, abs_of_pos h2q] at hye
    have h3 := le_of_mul_le_mul_left (hye.trans hsmall) h2q
    rw [abs_le] at h3
    linarith [h3.2]
  have hser := abs_cos_series_sub_le y (q + 20) hy7 (by omega)
  have hround := abs_altSum_sub_le (fun j => 2 ^ q * x ^ (2 * j) / (4 ^ (q * j) * (2 * j).factorial))
    (fun j => 2 ^ q * (y ^ (2 * j) / (2 * j).factorial)) (fun j => by
      have := nat_div_bracket (2 ^ q * x ^ (2 * j)) (4 ^ (q * j) * (2 * j).factorial)
      have e : (2 : ℝ) ^ q * (y ^ (2 * j) / (2 * j).factorial)
          = ((2 ^ q * x ^ (2 * j) : Nat) : ℝ) / ((4 ^ (q * j) * (2 * j).factorial : Nat) : ℝ) := by
        have h4 : (4 : ℝ) ^ (q * j) = (2 ^ q) ^ (2 * j) := by
          rw [show (4 : ℝ) = 2 ^ 2 by norm_num, ← pow_mul, ← pow_mul]; congr 1; ring
        rw [hy]; push_cast; rw [h4, div_pow]; field_simp
      rw [e]; exact this) (q + 20)
  have e3 : (cosFix q a b : ℝ) - 2 ^ q * cos (2 * π * a / b)
      = ((cosFix q a b : ℝ) - ∑ j ∈ range (q + 20), (-1) ^ j * (2 ^ q * (y ^ (2 * j) / (2 * j).factorial)))
        + 2 ^ q * (∑ j ∈ range (q + 20), (-1) ^ j * (y ^ (2 * j) / (2 * j).factorial) - cos y)
        + 2 ^ q * (cos y - cos (2 * π * a / b)) := by
    have : ∑ j ∈ range (q + 20), (-1 : ℝ) ^ j * (2 ^ q * (y ^ (2 * j) / (2 * j).factorial))
        = 2 ^ q * ∑ j ∈ range (q + 20), (-1) ^ j * (y ^ (2 * j) / (2 * j).factorial) := by
      rw [mul_sum]; exact sum_congr rfl fun i _ => by ring
    rw [this]; ring
  have h1 : |(cosFix q a b : ℝ) - ∑ j ∈ range (q + 20), (-1) ^ j * (2 ^ q * (y ^ (2 * j) / (2 * j).factorial))|
      ≤ ((q + 20 : Nat) : ℝ) := hround
  have h2 : |2 ^ q * (∑ j ∈ range (q + 20), (-1) ^ j * (y ^ (2 * j) / (2 * j).factorial) - cos y)| ≤ 1 := by
    rw [abs_mul, abs_of_pos h2q]
    exact (mul_le_mul_of_nonneg_left hser h2q.le).trans (cos_tail_le q)
  have h3 : |2 ^ q * (cos y - cos (2 * π * a / b))| ≤ 1 + 40 * (q + 1) := by
    rw [abs_mul, abs_of_pos h2q]
    refine le_trans (mul_le_mul_of_nonneg_left (abs_cos_sub_cos_le _ _) h2q.le) ?_
    rw [← mul_sub, abs_mul, abs_of_pos h2q] at hye
    exact hye
  rw [e3]
  refine (abs_add_three _ _ _).trans ?_
  have : ((q + 20 : Nat) : ℝ) + 1 + (1 + 40 * (q + 1)) ≤ cosErr q := by
    rw [cosErr]; push_cast; linarith [Nat.cast_nonneg (α := ℝ) q]
  linarith

end Sys2Proof.Machine
end

