-- ==== Sys2Proof/Laws/Spectrum.lean ====
section
/-! SUPPORT. The integer spectrum of the estimator: the reference amplitude in terms of it, the intervals that `powers`
computes hold it, and its squared magnitudes are algebraic integers with bounded conjugates. -/

namespace Sys2Proof.Machine

open Finset Real

/-- The window divisor as a real is what R111 divides by. -/
theorem hann_eq (c : Config) (hc : c.Legal) (n : ℕ) : hann c n = (1 - cos (2 * π * n / c.windowDiv)) / 2 := by
  unfold hann Config.windowDiv
  cases c.pWindow
  · simp only
    rw [Nat.cast_sub (by have := hc.1.1; omega)]
    norm_num; ring
  · simp only
    norm_num; ring

theorem windowDiv_pos (c : Config) (hc : c.Legal) : 2 ≤ c.windowDiv := by
  unfold Config.windowDiv
  have := hc.1.1
  cases c.pWindow <;> simp only <;> omega

theorem le_windowDiv (c : Config) (n : ℕ) (hn : n < c.pN) : n ≤ c.windowDiv := by
  unfold Config.windowDiv
  cases c.pWindow <;> simp only <;> omega

/-- The cosines of a full period sum to 0. -/
theorem sum_cos_period (d : ℕ) (hd : 2 ≤ d) : ∑ n ∈ range d, cos (2 * π * n / d) = 0 := by
  have h := (Complex.isPrimitiveRoot_exp d (by omega)).geom_sum_eq_zero (by omega)
  have hre := congrArg Complex.re h
  rw [Complex.re_sum, Complex.zero_re] at hre
  rw [← hre]
  refine sum_congr rfl fun n _ => ?_
  rw [← Complex.exp_nat_mul, show (n : ℂ) * (2 * π * Complex.I / d) = ((2 * π * n / d : ℝ) : ℂ) * Complex.I by
    push_cast; ring, Complex.exp_ofReal_mul_I_re]

/-- S is half the window's divisor (R111). -/
theorem windowSum_eq (c : Config) (hc : c.Legal) : windowSum c = c.windowDiv / 2 := by
  have hd := windowDiv_pos c hc
  have hd0 : (c.windowDiv : ℝ) ≠ 0 := by have : (0:ℝ) < c.windowDiv := by exact_mod_cast (by omega : 0 < c.windowDiv)
                                         exact this.ne'
  have h0 := sum_cos_period c.windowDiv hd
  unfold windowSum
  rw [sum_congr rfl fun n _ => hann_eq c hc n, ← sum_div, sum_sub_distrib]
  simp only [sum_const, card_range, nsmul_eq_mul, mul_one]
  congr 1
  rcases hw : c.pWindow with _ | _
  · have hN : c.pN = c.windowDiv + 1 := by unfold Config.windowDiv; rw [hw]; have := hc.1.1; simp only; omega
    rw [hN, sum_range_succ, h0, mul_div_assoc, div_self hd0, mul_one, cos_two_pi]; push_cast; ring
  · have hN : c.pN = c.windowDiv := by unfold Config.windowDiv; rw [hw]
    rw [hN, h0, sub_zero]

/-- The integer sample `n` of a frame. -/
def Frame.s (f : Frame) (n : ℕ) : ℤ := f.samples.getD n 0

/-- Y[k]: the spectrum of the integer samples under twice the window; X[k] = Y[k] / 65536. -/
noncomputable def Frame.Y (f : Frame) (k : ℕ) : ℂ :=
  ∑ n ∈ range f.cfg.pN, (f.s n : ℂ) * ((1 - cos (2 * π * n / f.cfg.windowDiv) : ℝ) : ℂ)
    * Complex.exp (-2 * π * Complex.I * k * n / f.cfg.pN)

/-- |Y[k]|². -/
noncomputable def Frame.u (f : Frame) (k : ℕ) : ℝ := ‖f.Y k‖ ^ 2

theorem Frame.spectrum_eq (f : Frame) (hc : f.cfg.Legal) (k : ℕ) : f.spectrum k = f.Y k / 65536 := by
  unfold Frame.spectrum Frame.Y Frame.x
  rw [sum_div]
  refine sum_congr rfl fun n _ => ?_
  rw [hann_eq f.cfg hc, Frame.s]
  push_cast; ring

theorem Frame.magnitude_eq (f : Frame) (hc : f.cfg.Legal) (k : ℕ) : f.magnitude k = ‖f.Y k‖ / 65536 := by
  rw [Frame.magnitude, f.spectrum_eq hc, norm_div]; norm_num

/-- A[k] = |Y[k]| / (16384·D). -/
theorem Frame.amplitude_eq (f : Frame) (hc : f.cfg.Legal) (k : ℕ) :
    f.amplitude k = ‖f.Y k‖ / (2 ^ 14 * f.cfg.windowDiv) := by
  have hd : (0 : ℝ) < f.cfg.windowDiv := by exact_mod_cast (by have := windowDiv_pos f.cfg hc; omega : 0 < f.cfg.windowDiv)
  rw [Frame.amplitude, f.magnitude_eq hc, windowSum_eq f.cfg hc]
  field_simp; norm_num; ring

theorem Frame.u_nonneg (f : Frame) (k : ℕ) : 0 ≤ f.u k := by unfold Frame.u; positivity

theorem Frame.magnitude_le_iff (f : Frame) (hc : f.cfg.Legal) (j k : ℕ) : f.magnitude j ≤ f.magnitude k ↔ f.u j ≤ f.u k := by
  rw [f.magnitude_eq hc, f.magnitude_eq hc, Frame.u, Frame.u, div_le_div_iff_of_pos_right (by norm_num),
    pow_le_pow_iff_left₀ (norm_nonneg _) (norm_nonneg _) two_ne_zero]

/-! ## The intervals -/

/-- The cosine has period 1 turn: a fraction of turns may be reduced. -/
theorem cos_turns_mod (a b : ℕ) (hb : 0 < b) : cos (2 * π * ((a % b : ℕ) : ℝ) / b) = cos (2 * π * a / b) := by
  have hb' : (b : ℝ) ≠ 0 := by exact_mod_cast hb.ne'
  have h : (a : ℝ) = (a % b : ℕ) + b * (a / b : ℕ) := by exact_mod_cast (Nat.mod_add_div a b).symm
  generalize a % b = r at *
  generalize a / b = d at *
  rw [show 2 * π * (a : ℝ) / b = 2 * π * (r : ℝ) / b + d * (2 * π) by rw [h]; field_simp, cos_add_nat_mul_two_pi]

theorem sum_zipIdx (l : List ℤ) (g : ℤ → ℕ → ℤ) (o : ℕ) :
    ((l.zipIdx o).map fun p => g p.1 p.2).sum = ∑ n ∈ range l.length, g (l.getD n 0) (n + o) := by
  induction l generalizing o with
  | nil => simp
  | cons a l ih =>
    rw [List.zipIdx_cons, List.map_cons, List.sum_cons, ih, List.length_cons, sum_range_succ', add_comm]
    congr 1
    · refine sum_congr rfl fun n _ => ?_
      rw [List.getD_cons_succ, add_right_comm, add_assoc]
    · simp

theorem windowed_length (q : ℕ) (f : Frame) : (windowed q f).length = f.samples.length := by simp [windowed]

theorem windowed_getD (q : ℕ) (f : Frame) (n : ℕ) :
    (windowed q f).getD n 0 = f.s n * (2 ^ q - cosFix q n f.cfg.windowDiv) := by
  unfold windowed Frame.s
  rw [List.getD_eq_getElem?_getD, List.getD_eq_getElem?_getD, List.getElem?_map, List.getElem?_zipIdx]
  rcases h : f.samples[n]? with _ | a <;> simp

theorem cosTable_getD (q n j : ℕ) (hj : j < 4 * n) : (cosTable q n).getD j 0 = cosFix q j (4 * n) := by
  simp [cosTable, hj]

/-- The part of the integer spectrum that `spectrumPart` approximates. -/
noncomputable def Frame.part (f : Frame) (k shift : ℕ) : ℝ :=
  ∑ n ∈ range f.cfg.pN, (f.s n : ℝ) * (1 - cos (2 * π * n / f.cfg.windowDiv))
    * cos (2 * π * ((4 * k * n + shift * f.cfg.pN : ℕ) : ℝ) / ((4 * f.cfg.pN : ℕ) : ℝ))

theorem Frame.total_eq (f : Frame) (hl : f.samples.length = f.cfg.pN) : (f.total : ℝ) = ∑ n ∈ range f.cfg.pN, |(f.s n : ℝ)| := by
  have h : ∀ (l : List ℤ), (((l.map Int.natAbs).sum : ℕ) : ℝ) = ∑ n ∈ range l.length, |((l.getD n 0 : ℤ) : ℝ)| := by
    intro l
    induction l with
    | nil => simp
    | cons a l ih =>
      rw [List.map_cons, List.sum_cons, List.length_cons, sum_range_succ', Nat.cast_add, ih, add_comm]
      congr 1
      simp [Nat.cast_natAbs]
  rw [Frame.total, h, hl]; rfl

/-- The error of a product of two approximations. -/
theorem abs_prod_err {w w' c c' t e : ℝ} (hw : |w' - t * w| ≤ e) (hc : |c' - t * c| ≤ e) (h2 : |w| ≤ 2) (h1 : |c| ≤ 1) (ht : 0 ≤ t) :
    |w' * c' - t * t * (w * c)| ≤ e * (3 * t + e) := by
  have he : 0 ≤ e := (abs_nonneg _).trans hw
  have e1 : w' * c' - t * t * (w * c) = (w' - t * w) * (c' - t * c) + (w' - t * w) * (t * c) + t * w * (c' - t * c) := by ring
  rw [e1]
  have a1 : |(w' - t * w) * (c' - t * c)| ≤ e * e := by rw [abs_mul]; gcongr
  have a2 : |(w' - t * w) * (t * c)| ≤ e * t := by
    rw [abs_mul, abs_mul, abs_of_nonneg ht]
    calc |w' - t * w| * (t * |c|) ≤ e * (t * 1) := by gcongr
      _ = e * t := by ring
  have a3 : |t * w * (c' - t * c)| ≤ t * 2 * e := by
    rw [abs_mul, abs_mul, abs_of_nonneg ht]; gcongr
  refine (abs_add_three _ _ _).trans ?_
  linarith

theorem spectrumPart_err (q : ℕ) (hq : 12 ≤ q) (f : Frame) (hf : f.Complete) (k shift : ℕ) :
    |(spectrumPart (cosTable q f.cfg.pN) f.cfg.pN k shift (windowed q f) : ℝ) - 4 ^ q * f.part k shift| ≤ spectrumErr q f := by
  obtain ⟨hc, hl⟩ := hf
  have hN : 0 < f.cfg.pN := by have := hc.1.1; omega
  have hD := windowDiv_pos f.cfg hc
  unfold spectrumPart
  rw [sum_zipIdx (windowed q f) (fun a n => a * (cosTable q f.cfg.pN).getD ((4 * k * n + shift * f.cfg.pN) % (4 * f.cfg.pN)) 0) 0,
    windowed_length, hl, Frame.part, mul_sum, Int.cast_sum, ← sum_sub_distrib, spectrumErr, Nat.cast_mul f.total, f.total_eq hl, sum_mul]
  refine (abs_sum_le_sum_abs _ _).trans (sum_le_sum fun n hn => ?_)
  rw [mem_range] at hn
  have hj : (4 * k * n + shift * f.cfg.pN) % (4 * f.cfg.pN) < 4 * f.cfg.pN := Nat.mod_lt _ (by omega)
  rw [add_zero, windowed_getD, cosTable_getD _ _ _ hj]
  have hcos := abs_cosFix_sub_le q _ (4 * f.cfg.pN) hq (by omega) hj.le
  rw [cos_turns_mod _ _ (by omega)] at hcos
  have hwin := abs_cosFix_sub_le q n f.cfg.windowDiv hq (by omega) (le_windowDiv _ _ hn)
  set C := cos (2 * π * ((4 * k * n + shift * f.cfg.pN : ℕ) : ℝ) / ((4 * f.cfg.pN : ℕ) : ℝ)) with hC
  set W := cos (2 * π * n / f.cfg.windowDiv) with hW
  have hw' : |((2 : ℝ) ^ q - cosFix q n f.cfg.windowDiv) - 2 ^ q * (1 - W)| ≤ cosErr q := by
    rw [show ((2 : ℝ) ^ q - cosFix q n f.cfg.windowDiv) - 2 ^ q * (1 - W) = -(cosFix q n f.cfg.windowDiv - 2 ^ q * W) by ring, abs_neg]
    exact hwin
  have hW2 : |1 - W| ≤ 2 := by
    rw [abs_le]; constructor <;> linarith [neg_one_le_cos (2 * π * n / f.cfg.windowDiv), cos_le_one (2 * π * n / f.cfg.windowDiv)]
  have key := abs_prod_err hw' hcos hW2 (abs_cos_le_one _) (by positivity)
  have e : ((f.s n * (2 ^ q - cosFix q n f.cfg.windowDiv)
        * cosFix q ((4 * k * n + shift * f.cfg.pN) % (4 * f.cfg.pN)) (4 * f.cfg.pN) : ℤ) : ℝ)
      - 4 ^ q * ((f.s n : ℝ) * (1 - W) * C)
      = f.s n * (((2 : ℝ) ^ q - cosFix q n f.cfg.windowDiv)
        * cosFix q ((4 * k * n + shift * f.cfg.pN) % (4 * f.cfg.pN)) (4 * f.cfg.pN) - 2 ^ q * 2 ^ q * ((1 - W) * C)) := by
    rw [show (4 : ℝ) ^ q = 2 ^ q * 2 ^ q by rw [← mul_pow]; norm_num]
    push_cast; ring
  rw [e, abs_mul]
  have : ((cosErr q * (3 * 2 ^ q + cosErr q) : ℕ) : ℝ) = cosErr q * (3 * 2 ^ q + cosErr q) := by push_cast; ring
  rw [this]
  exact mul_le_mul_of_nonneg_left key (abs_nonneg _)

/-- |part| ≤ 2·Σ|s|. -/
theorem Frame.abs_part_le (f : Frame) (hl : f.samples.length = f.cfg.pN) (k shift : ℕ) : |f.part k shift| ≤ 2 * f.total := by
  rw [f.total_eq hl, mul_sum]
  refine (abs_sum_le_sum_abs _ _).trans (sum_le_sum fun n _ => ?_)
  rw [abs_mul, abs_mul]
  have hW2 : |1 - cos (2 * π * n / f.cfg.windowDiv)| ≤ 2 := by
    rw [abs_le]; constructor <;> linarith [neg_one_le_cos (2 * π * n / f.cfg.windowDiv), cos_le_one (2 * π * n / f.cfg.windowDiv)]
  calc _ ≤ |(f.s n : ℝ)| * 2 * 1 := by gcongr; exact abs_cos_le_one _
    _ = _ := by ring

/-- |Y[k]|² is the sum of the squares of the two parts. -/
theorem Frame.u_eq (f : Frame) (hc : f.cfg.Legal) (k : ℕ) : f.u k = f.part k 0 ^ 2 + f.part k 3 ^ 2 := by
  have hN : (f.cfg.pN : ℝ) ≠ 0 := by
    have : 0 < f.cfg.pN := by have := hc.1.1; omega
    exact_mod_cast this.ne'
  have hY : f.Y k = (f.part k 0 : ℂ) - (f.part k 3 : ℂ) * Complex.I := by
    unfold Frame.Y Frame.part
    rw [Complex.ofReal_sum, Complex.ofReal_sum, sum_mul, ← sum_sub_distrib]
    refine sum_congr rfl fun n _ => ?_
    have h1 : 2 * π * ((4 * k * n + 0 * f.cfg.pN : ℕ) : ℝ) / ((4 * f.cfg.pN : ℕ) : ℝ) = 2 * π * k * n / f.cfg.pN := by
      push_cast; field_simp; ring
    have h2 : cos (2 * π * ((4 * k * n + 3 * f.cfg.pN : ℕ) : ℝ) / ((4 * f.cfg.pN : ℕ) : ℝ)) = sin (2 * π * k * n / f.cfg.pN) := by
      have : 2 * π * ((4 * k * n + 3 * f.cfg.pN : ℕ) : ℝ) / ((4 * f.cfg.pN : ℕ) : ℝ) = 2 * π * k * n / f.cfg.pN - π / 2 + 2 * π := by
        push_cast; field_simp; ring
      rw [this, cos_add_two_pi, cos_sub_pi_div_two]
    rw [h1, h2]
    have h3 : Complex.exp (-2 * π * Complex.I * k * n / f.cfg.pN)
        = (cos (2 * π * k * n / f.cfg.pN) : ℂ) - (sin (2 * π * k * n / f.cfg.pN) : ℂ) * Complex.I := by
      rw [show -2 * π * Complex.I * k * n / f.cfg.pN = ((-(2 * π * k * n / f.cfg.pN) : ℝ) : ℂ) * Complex.I by push_cast; ring,
        Complex.exp_mul_I, ← Complex.ofReal_cos, ← Complex.ofReal_sin, cos_neg, sin_neg]
      push_cast; ring
    rw [h3]; push_cast; ring
  rw [Frame.u, hY, ← Complex.normSq_eq_norm_sq, Complex.normSq_apply]
  simp; ring

theorem Frame.u_le (f : Frame) (hf : f.Complete) (k : ℕ) : f.u k ≤ 8 * f.total ^ 2 := by
  rw [f.u_eq hf.1]
  have h0 := f.abs_part_le hf.2 k 0
  have h3 := f.abs_part_le hf.2 k 3
  have : (0 : ℝ) ≤ f.total := Nat.cast_nonneg _
  have := sq_le_sq' (by linarith [abs_nonneg (f.part k 0), neg_abs_le (f.part k 0)]) ((le_abs_self _).trans h0)
  have := sq_le_sq' (by linarith [abs_nonneg (f.part k 3), neg_abs_le (f.part k 3)]) ((le_abs_self _).trans h3)
  nlinarith

/-- `sqIval` holds the square, and is not wide. -/
theorem sqIval_sound {r : ℤ} {e : ℕ} {x : ℝ} (h : |(r : ℝ) - x| ≤ e) :
    ((sqIval r e).lo : ℝ) ≤ x ^ 2 ∧ x ^ 2 ≤ (sqIval r e).hi ∧ ((sqIval r e).hi : ℝ) - (sqIval r e).lo ≤ 4 * e * (|x| + 2 * e) := by
  have hr : ((r.natAbs : ℕ) : ℝ) = |(r : ℝ)| := by rw [Nat.cast_natAbs, Int.cast_abs]
  have hx1 : |x| ≤ |(r : ℝ)| + e := by
    have := abs_sub_abs_le_abs_sub x r; rw [abs_sub_comm] at this; linarith
  have hx2 : |(r : ℝ)| ≤ |x| + e := by
    have := abs_sub_abs_le_abs_sub (r : ℝ) x; linarith
  have he : (0 : ℝ) ≤ e := Nat.cast_nonneg _
  have hR : (0 : ℝ) ≤ |(r : ℝ)| := abs_nonneg _
  have hX : (0 : ℝ) ≤ |x| := abs_nonneg _
  have hhi : ((sqIval r e).hi : ℝ) = (|(r : ℝ)| + e) ^ 2 := by simp [sqIval, hr]
  rw [hhi, ← sq_abs x]
  rcases le_total r.natAbs e with hle | hle
  · have hlo : ((sqIval r e).lo : ℝ) = 0 := by simp [sqIval, Nat.sub_eq_zero_of_le hle]
    have hle' : |(r : ℝ)| ≤ e := by rw [← hr]; exact_mod_cast hle
    rw [hlo]
    refine ⟨by positivity, by gcongr, ?_⟩
    nlinarith
  · have hlo : ((sqIval r e).lo : ℝ) = (|(r : ℝ)| - e) ^ 2 := by simp [sqIval, Nat.cast_sub hle, hr]
    have hle' : (e : ℝ) ≤ |(r : ℝ)| := by rw [← hr]; exact_mod_cast hle
    rw [hlo]
    refine ⟨by apply pow_le_pow_left₀ <;> linarith, by gcongr, ?_⟩
    nlinarith

/-- A bound on the width of the intervals of `powers`. -/
def powerWidth (q : ℕ) (f : Frame) : ℕ := 8 * spectrumErr q f * (2 * f.total * 4 ^ q + 2 * spectrumErr q f)

theorem powers_length (q : ℕ) (f : Frame) : (powers q f).length = f.cfg.lastBin + 1 := by simp [powers]

/-- What `powers` computes: an interval about |Y[k]|² at scale 16^q for every bin. -/
theorem power_sound (q : ℕ) (hq : 12 ≤ q) (f : Frame) (hf : f.Complete) (k : ℕ) (hk : k ≤ f.cfg.lastBin) :
    ((power (powers q f) k).lo : ℝ) ≤ 16 ^ q * f.u k ∧ 16 ^ q * f.u k ≤ (power (powers q f) k).hi ∧
    ((power (powers q f) k).hi : ℝ) - (power (powers q f) k).lo ≤ powerWidth q f := by
  have hk' : k < f.cfg.lastBin + 1 := by omega
  have hp : power (powers q f) k =
      ⟨(sqIval (spectrumPart (cosTable q f.cfg.pN) f.cfg.pN k 0 (windowed q f)) (spectrumErr q f)).lo
        + (sqIval (spectrumPart (cosTable q f.cfg.pN) f.cfg.pN k 3 (windowed q f)) (spectrumErr q f)).lo,
       (sqIval (spectrumPart (cosTable q f.cfg.pN) f.cfg.pN k 0 (windowed q f)) (spectrumErr q f)).hi
        + (sqIval (spectrumPart (cosTable q f.cfg.pN) f.cfg.pN k 3 (windowed q f)) (spectrumErr q f)).hi⟩ := by
    simp [power, powers, List.getD_eq_getElem?_getD, hk']
  obtain ⟨a1, a2, a3⟩ := sqIval_sound (spectrumPart_err q hq f hf k 0)
  obtain ⟨b1, b2, b3⟩ := sqIval_sound (spectrumPart_err q hq f hf k 3)
  rw [hp]
  have e : (16 : ℝ) ^ q * f.u k = (4 ^ q * f.part k 0) ^ 2 + (4 ^ q * f.part k 3) ^ 2 := by
    rw [f.u_eq hf.1, show (16 : ℝ) ^ q = (4 ^ q) ^ 2 by rw [← pow_mul, mul_comm, pow_mul]; norm_num]; ring
  rw [e]
  push_cast
  refine ⟨by linarith, by linarith, ?_⟩
  have p0 : |4 ^ q * f.part k 0| ≤ 2 * f.total * 4 ^ q := by
    rw [abs_mul, abs_of_pos (by positivity)]; nlinarith [f.abs_part_le hf.2 k 0, (by positivity : (0:ℝ) < 4 ^ q)]
  have p3 : |4 ^ q * f.part k 3| ≤ 2 * f.total * 4 ^ q := by
    rw [abs_mul, abs_of_pos (by positivity)]; nlinarith [f.abs_part_le hf.2 k 3, (by positivity : (0:ℝ) < 4 ^ q)]
  have hE : (0 : ℝ) ≤ spectrumErr q f := Nat.cast_nonneg _
  rw [powerWidth]; push_cast
  nlinarith

/-- The width against the scale. -/
theorem powerWidth_le (q : ℕ) (hq : 12 ≤ q) (f : Frame) :
    (powerWidth q f : ℝ) * 2 ^ q ≤ 16 ^ q * (320 * f.total ^ 2 * cosErr q) := by
  have he : cosErr q ≤ 2 ^ q := by
    unfold cosErr
    induction q, hq using Nat.le_induction with
    | base => norm_num
    | succ k _ ih => rw [pow_succ]; linarith
  have h1 : spectrumErr q f ≤ 4 * f.total * cosErr q * 2 ^ q := by
    unfold spectrumErr
    calc f.total * (cosErr q * (3 * 2 ^ q + cosErr q)) ≤ f.total * (cosErr q * (3 * 2 ^ q + 2 ^ q)) := by gcongr
      _ = _ := by ring
  have h2 : spectrumErr q f ≤ 4 * f.total * 4 ^ q := by
    refine h1.trans ?_
    calc 4 * f.total * cosErr q * 2 ^ q ≤ 4 * f.total * 2 ^ q * 2 ^ q := by gcongr
      _ = 4 * f.total * (2 ^ q * 2 ^ q) := by ring
      _ = 4 * f.total * 4 ^ q := by rw [← mul_pow]; norm_num
  have h3 : powerWidth q f * 2 ^ q ≤ 16 ^ q * (320 * f.total ^ 2 * cosErr q) := by
    unfold powerWidth
    calc 8 * spectrumErr q f * (2 * f.total * 4 ^ q + 2 * spectrumErr q f) * 2 ^ q
        ≤ 8 * (4 * f.total * cosErr q * 2 ^ q) * (2 * f.total * 4 ^ q + 2 * (4 * f.total * 4 ^ q)) * 2 ^ q := by gcongr
      _ = (2 ^ q * 2 ^ q * 4 ^ q) * (320 * f.total ^ 2 * cosErr q) := by ring
      _ = 16 ^ q * (320 * f.total ^ 2 * cosErr q) := by rw [← mul_pow, ← mul_pow]; norm_num
  exact_mod_cast h3

/-! ## Conjugates -/

/-- The order of the roots of unity that the spectrum is made of. -/
def Frame.order (f : Frame) : ℕ := f.cfg.pN * f.cfg.windowDiv

theorem exp_conjBounded (m : ℕ) (hm : m ≠ 0) (k : ℤ) : ConjBounded m 1 (Complex.exp (2 * π * Complex.I * (k / m))) := by
  have hm' : (m : ℤ) ≠ 0 := by exact_mod_cast hm
  have hmc : (m : ℂ) ≠ 0 := by exact_mod_cast hm
  have h := ConjBounded.pow_root hm (k % m).toNat
  have e : rootOfUnity m ^ (k % m).toNat = Complex.exp (2 * π * Complex.I * (k / m)) := by
    rw [rootOfUnity_pow]
    have h1 : (((k % m).toNat : ℕ) : ℂ) = ((k % m : ℤ) : ℂ) := by
      exact_mod_cast congrArg (Int.cast (R := ℂ)) (Int.toNat_of_nonneg (Int.emod_nonneg k hm'))
    have h2 : (k : ℂ) = ((k % m : ℤ) : ℂ) + m * ((k / m : ℤ) : ℂ) := by
      exact_mod_cast (Int.emod_add_mul_ediv k m).symm
    rw [h1, Complex.exp_eq_exp_iff_exists_int]
    refine ⟨-(k / m), ?_⟩
    rw [h2]; push_cast; field_simp; ring
  rwa [e] at h

/-- 2·Y[k] is an algebraic integer that, with its conjugates, is at most 4·Σ|s|. -/
theorem Frame.Y_conjBounded (f : Frame) (hf : f.Complete) (k : ℕ) (sgn : ℤ) :
    ConjBounded f.order (4 * f.total) (∑ n ∈ range f.cfg.pN, (f.s n : ℂ)
      * (2 - Complex.exp (2 * π * Complex.I * (((n * f.cfg.pN : ℤ) : ℂ) / f.order))
           - Complex.exp (2 * π * Complex.I * (((-(n * f.cfg.pN) : ℤ) : ℂ) / f.order)))
      * Complex.exp (2 * π * Complex.I * (((sgn * (k * n * f.cfg.windowDiv) : ℤ) : ℂ) / f.order))) := by
  have hm : f.order ≠ 0 := by
    have := windowDiv_pos f.cfg hf.1
    have := hf.1.1.1
    exact Nat.mul_ne_zero (by omega) (by omega)
  rw [f.total_eq hf.2, mul_sum]
  refine ConjBounded.sum _ _ _ fun n _ => ?_
  have h2 : ConjBounded f.order 2 (2 : ℂ) := by
    have := ConjBounded.int (m := f.order) 2
    norm_num at this
    exact this
  have hw := (h2.sub (exp_conjBounded f.order hm (n * f.cfg.pN))).sub (exp_conjBounded f.order hm (-(n * f.cfg.pN)))
  have hs := ConjBounded.mul (abs_nonneg _) (ConjBounded.int (m := f.order) (f.s n)) hw
  have := ConjBounded.mul (by positivity) hs (exp_conjBounded f.order hm (sgn * (k * n * f.cfg.windowDiv)))
  refine this.mono (le_of_eq ?_)
  ring

/-- 4·|Y[k]|² is an algebraic integer that, with its conjugates, is at most 16·(Σ|s|)². -/
theorem Frame.u_conjBounded (f : Frame) (hf : f.Complete) (k : ℕ) :
    ConjBounded f.order (16 * f.total ^ 2) ((4 * f.u k : ℝ) : ℂ) := by
  have hN : (f.cfg.pN : ℂ) ≠ 0 := by
    have : f.cfg.pN ≠ 0 := by have := hf.1.1.1; omega
    exact_mod_cast this
  have hD : (f.cfg.windowDiv : ℂ) ≠ 0 := by
    have : f.cfg.windowDiv ≠ 0 := by have := windowDiv_pos f.cfg hf.1; omega
    exact_mod_cast this
  have hterm : ∀ (sgn : ℤ), (∑ n ∈ range f.cfg.pN, (f.s n : ℂ)
      * (2 - Complex.exp (2 * π * Complex.I * (((n * f.cfg.pN : ℤ) : ℂ) / f.order))
           - Complex.exp (2 * π * Complex.I * (((-(n * f.cfg.pN) : ℤ) : ℂ) / f.order)))
      * Complex.exp (2 * π * Complex.I * (((sgn * (k * n * f.cfg.windowDiv) : ℤ) : ℂ) / f.order)))
      = 2 * ∑ n ∈ range f.cfg.pN, (f.s n : ℂ) * ((1 - cos (2 * π * n / f.cfg.windowDiv) : ℝ) : ℂ)
          * Complex.exp (sgn * (2 * π * Complex.I * k * n / f.cfg.pN)) := by
    intro sgn
    rw [mul_sum]
    refine sum_congr rfl fun n _ => ?_
    have e1 : 2 * π * Complex.I * (((n * f.cfg.pN : ℤ) : ℂ) / f.order) = ((2 * π * n / f.cfg.windowDiv : ℝ) : ℂ) * Complex.I := by
      unfold Frame.order; push_cast; field_simp
    have e2 : 2 * π * Complex.I * (((-(n * f.cfg.pN) : ℤ) : ℂ) / f.order) = -((2 * π * n / f.cfg.windowDiv : ℝ) : ℂ) * Complex.I := by
      unfold Frame.order; push_cast; field_simp
    have e3 : 2 * π * Complex.I * (((sgn * (k * n * f.cfg.windowDiv) : ℤ) : ℂ) / f.order) = sgn * (2 * π * Complex.I * k * n / f.cfg.pN) := by
      unfold Frame.order; push_cast; field_simp
    have e4 : (2 : ℂ) - Complex.exp (((2 * π * n / f.cfg.windowDiv : ℝ) : ℂ) * Complex.I)
        - Complex.exp (-((2 * π * n / f.cfg.windowDiv : ℝ) : ℂ) * Complex.I)
        = 2 * ((1 - cos (2 * π * n / f.cfg.windowDiv) : ℝ) : ℂ) := by
      rw [Complex.exp_mul_I, Complex.exp_mul_I, Complex.cos_neg, Complex.sin_neg]
      push_cast; ring
    rw [e1, e2, e3, e4]; ring
  have h1 := f.Y_conjBounded hf k (-1)
  have h2 := f.Y_conjBounded hf k 1
  rw [hterm] at h1 h2
  have hY : (∑ n ∈ range f.cfg.pN, (f.s n : ℂ) * ((1 - cos (2 * π * n / f.cfg.windowDiv) : ℝ) : ℂ)
          * Complex.exp (((-1 : ℤ) : ℂ) * (2 * π * Complex.I * k * n / f.cfg.pN))) = f.Y k := by
    unfold Frame.Y
    refine sum_congr rfl fun n _ => ?_
    congr 2; push_cast; ring
  have hYc : (∑ n ∈ range f.cfg.pN, (f.s n : ℂ) * ((1 - cos (2 * π * n / f.cfg.windowDiv) : ℝ) : ℂ)
          * Complex.exp (((1 : ℤ) : ℂ) * (2 * π * Complex.I * k * n / f.cfg.pN))) = (starRingEnd ℂ) (f.Y k) := by
    unfold Frame.Y
    rw [map_sum]
    refine sum_congr rfl fun n _ => ?_
    rw [map_mul, map_mul, Complex.conj_ofReal, ← Complex.exp_conj, map_intCast]
    congr 2
    simp only [map_mul, map_div₀, Complex.conj_I, Complex.conj_ofReal, map_natCast, map_neg, map_ofNat]
    push_cast; ring
  rw [hY] at h1
  rw [hYc] at h2
  have h := ConjBounded.mul (by positivity) h1 h2
  have e : (2 * f.Y k) * (2 * (starRingEnd ℂ) (f.Y k)) = ((4 * f.u k : ℝ) : ℂ) := by
    rw [Frame.u, ← Complex.normSq_eq_norm_sq]
    push_cast
    rw [← Complex.mul_conj]; ring
  rw [e] at h
  exact h.mono (le_of_eq (by ring))

end Sys2Proof.Machine
end

