-- ==== Sys2Proof/Laws/Estimator.lean ====
section
/-! SUPPORT. The computed estimator is the reference estimator: `estimate_eq_est` and `admissible_iff_admWithin`. -/

namespace Sys2Proof.Machine

open Finset Real

/-! ## What the last precision separates -/

/-- The number `m` of `lastPrecision`. -/
def Frame.bulk (f : Frame) : ℕ :=
  (f.total + 1) * (f.cfg.estTolNum + 1) * (f.cfg.estTolDen + 1) * (f.ethresh + 1) * (f.cfg.windowDiv + 1)

theorem lastPrecision_eq (f : Frame) : lastPrecision f = 2 * ((f.order + 2) * (4 * Nat.log2 f.bulk + 80)) := rfl

theorem Frame.bulk_pos (f : Frame) : 0 < f.bulk := by unfold Frame.bulk; positivity

theorem lastPrecision_ge (f : Frame) : 64 ≤ lastPrecision f := by
  rw [lastPrecision_eq]; nlinarith [Nat.zero_le f.order, Nat.zero_le (Nat.log2 f.bulk)]

/-- The last precision outgrows the separation bound. -/
theorem two_pow_lastPrecision_gt (f : Frame) :
    2 ^ 53 * f.bulk ^ 6 * (lastPrecision f + 1) * (2 ^ 70 * f.bulk ^ 4) ^ f.order < 2 ^ lastPrecision f := by
  set l := Nat.log2 f.bulk with hl
  set o := f.order with ho
  set h := (o + 2) * (4 * l + 80) with hh
  have hP : lastPrecision f = 2 * h := lastPrecision_eq f
  have hm : f.bulk ≤ 2 ^ (l + 1) := (Nat.lt_log2_self (n := f.bulk)).le
  have h1 : f.bulk ^ 6 ≤ 2 ^ (6 * l + 6) := by
    calc f.bulk ^ 6 ≤ (2 ^ (l + 1)) ^ 6 := Nat.pow_le_pow_left hm 6
      _ = _ := by rw [← pow_mul]; congr 1; ring
  have h2 : (2 ^ 70 * f.bulk ^ 4) ^ o ≤ 2 ^ ((4 * l + 74) * o) := by
    calc (2 ^ 70 * f.bulk ^ 4) ^ o ≤ (2 ^ 70 * (2 ^ (l + 1)) ^ 4) ^ o :=
          Nat.pow_le_pow_left (Nat.mul_le_mul_left _ (Nat.pow_le_pow_left hm 4)) o
      _ = _ := by rw [← pow_mul, ← pow_add, ← pow_mul]; congr 1; ring
  have h3 : lastPrecision f + 1 ≤ 2 ^ h := by
    have h160 : 160 ≤ h := by rw [hh]; nlinarith [Nat.zero_le o, Nat.zero_le l]
    have : ∀ n, 3 ≤ n → 2 * n + 1 ≤ 2 ^ n := by
      intro n hn
      induction n, hn using Nat.le_induction with
      | base => norm_num
      | succ k _ ih => rw [pow_succ]; omega
    rw [hP]; exact this h (by omega)
  calc 2 ^ 53 * f.bulk ^ 6 * (lastPrecision f + 1) * (2 ^ 70 * f.bulk ^ 4) ^ o
      ≤ 2 ^ 53 * 2 ^ (6 * l + 6) * 2 ^ h * 2 ^ ((4 * l + 74) * o) := by gcongr
    _ = 2 ^ (53 + (6 * l + 6) + h + (4 * l + 74) * o) := by rw [← pow_add, ← pow_add, ← pow_add]
    _ < 2 ^ lastPrecision f := by
        apply Nat.pow_lt_pow_right (by norm_num)
        rw [hP, hh]
        nlinarith [Nat.zero_le o, Nat.zero_le l]

/-- Each quantity of a frame is at most its bulk. -/
theorem Frame.le_bulk (f : Frame) :
    f.total ≤ f.bulk ∧ f.total * f.cfg.estTolDen ≤ f.bulk ∧ f.cfg.estTolDen ≤ f.bulk ∧
    f.cfg.windowDiv * f.cfg.estTolNum * f.cfg.estTolDen ≤ f.bulk ∧ f.cfg.windowDiv * f.cfg.estTolNum ≤ f.bulk ∧
    f.cfg.windowDiv * (f.ethresh * f.cfg.estTolDen) ≤ f.bulk := by
  unfold Frame.bulk
  generalize f.total = a
  generalize f.cfg.estTolNum = n
  generalize f.cfg.estTolDen = d
  generalize f.ethresh = e
  generalize f.cfg.windowDiv = w
  have expand : (a + 1) * (n + 1) * (d + 1) * (e + 1) * (w + 1) =
      (a + 1) * ((n + 1) * ((d + 1) * ((e + 1) * (w + 1)))) := by ring
  have one : ∀ x y : ℕ, y ≤ (x + 1) * y := fun x y => Nat.le_mul_of_pos_left y (Nat.succ_pos x)
  have one' : ∀ x : ℕ, 1 ≤ x + 1 := fun x => Nat.succ_pos x
  rw [expand]
  refine ⟨?_, ?_, ?_, ?_, ?_, ?_⟩
  · calc a = a * (1 * (1 * (1 * 1))) := by ring
      _ ≤ _ := by gcongr <;> omega
  · calc a * d = a * (1 * (d * (1 * 1))) := by ring
      _ ≤ _ := by gcongr <;> omega
  · calc d = 1 * (1 * (d * (1 * 1))) := by ring
      _ ≤ _ := by gcongr <;> omega
  · calc w * n * d = 1 * (n * (d * (1 * w))) := by ring
      _ ≤ _ := by gcongr <;> omega
  · calc w * n = 1 * (n * (1 * (1 * w))) := by ring
      _ ≤ _ := by gcongr <;> omega
  · calc w * (e * d) = 1 * (1 * (d * (e * w))) := by ring
      _ ≤ _ := by gcongr <;> omega

/-- A conjugate-bounded number as small as the intervals of the last precision are wide is 0. -/
theorem eq_zero_of_small (f : Frame) (hf : f.Complete) {x B : ℝ} (hx : ConjBounded f.order B (x : ℂ))
    (hB : B ≤ 2 ^ 70 * f.bulk ^ 4)
    (h : |x| * 16 ^ lastPrecision f ≤ 2 ^ 38 * f.bulk ^ 4 * powerWidth (lastPrecision f) f) : x = 0 := by
  by_contra h0
  have hm : f.order ≠ 0 := by
    have := windowDiv_pos f.cfg hf.1
    have := hf.1.1.1
    exact Nat.mul_ne_zero (by omega) (by omega)
  have hb1 : (1 : ℝ) ≤ f.bulk := by exact_mod_cast f.bulk_pos
  have hone : (1 : ℝ) ≤ 2 ^ 70 * f.bulk ^ 4 := by nlinarith [one_le_pow₀ hb1 (n := 4)]
  have hsep := (hx.mono hB).one_le_norm_mul hm hone (by exact_mod_cast h0)
  rw [Complex.norm_real, Real.norm_eq_abs] at hsep
  set q := lastPrecision f with hq
  set R : ℝ := (2 ^ 70 * (f.bulk : ℝ) ^ 4) ^ f.order with hR
  have hR0 : 0 ≤ R := by positivity
  have h16 : (0 : ℝ) < 16 ^ q := by positivity
  have hw := powerWidth_le q (by have := lastPrecision_ge f; omega) f
  have ha : (f.total : ℝ) ≤ f.bulk := by exact_mod_cast f.le_bulk.1
  have hgt : (2 : ℝ) ^ 53 * f.bulk ^ 6 * (q + 1) * R < 2 ^ q := by
    have := two_pow_lastPrecision_gt f
    rw [hR]; exact_mod_cast this
  have key : (16 : ℝ) ^ q * 2 ^ q ≤ 16 ^ q * (2 ^ 53 * f.bulk ^ 6 * (q + 1) * R) := by
    calc (16 : ℝ) ^ q * 2 ^ q ≤ 16 ^ q * 2 ^ q * (|x| * R) := le_mul_of_one_le_right (by positivity) hsep
      _ = (|x| * 16 ^ q) * 2 ^ q * R := by ring
      _ ≤ (2 ^ 38 * f.bulk ^ 4 * powerWidth q f) * 2 ^ q * R := by gcongr
      _ = 2 ^ 38 * f.bulk ^ 4 * (powerWidth q f * 2 ^ q) * R := by ring
      _ ≤ 2 ^ 38 * f.bulk ^ 4 * (16 ^ q * (320 * f.total ^ 2 * cosErr q)) * R := by gcongr
      _ ≤ 2 ^ 38 * f.bulk ^ 4 * (16 ^ q * (2 ^ 9 * f.bulk ^ 2 * cosErr q)) * R := by gcongr; norm_num
      _ = 16 ^ q * (2 ^ 53 * f.bulk ^ 6 * (q + 1) * R) := by rw [cosErr]; push_cast; ring
  exact absurd (lt_of_le_of_lt (le_of_mul_le_mul_left key h16) hgt) (lt_irrefl _)

/-! ## The threshold test -/

theorem amplitude_lt_iff (f : Frame) (hc : f.cfg.Legal) (k t dd : ℕ) (hdd : 0 < dd) :
    f.amplitude k < (t : ℝ) / (2 ^ 32 * dd) ↔ f.u k * (2 ^ 18 * dd) ^ 2 < (f.cfg.windowDiv * t) ^ 2 := by
  have hd : (0 : ℝ) < f.cfg.windowDiv := by exact_mod_cast (by have := windowDiv_pos f.cfg hc; omega : 0 < f.cfg.windowDiv)
  have hdd' : (0 : ℝ) < dd := by exact_mod_cast hdd
  rw [f.amplitude_eq hc, div_lt_div_iff₀ (by positivity) (by positivity), Frame.u, ← mul_pow,
    pow_lt_pow_iff_left₀ (by positivity) (by positivity) two_ne_zero]
  constructor <;> intro h <;> nlinarith

/-- The threshold test is right wherever it is settled. -/
theorem below_sound (f : Frame) (hf : f.Complete) (q : ℕ) (hq : 12 ≤ q) (final : Bool) (k t dd : ℕ)
    (hk : k ≤ f.cfg.lastBin) (hdd : 0 < dd) (hfin : final = true → q = lastPrecision f)
    (h1 : f.total * dd ≤ f.bulk) (h2 : dd ≤ f.bulk) (h3 : f.cfg.windowDiv * t ≤ 2 ^ 33 * f.bulk) {b : Bool}
    (h : below q final f t dd (power (powers q f) k) = some b) :
    b = true ↔ f.amplitude k < (t : ℝ) / (2 ^ 32 * dd) := by
  rw [amplitude_lt_iff f hf.1 k t dd hdd]
  obtain ⟨hlo, hhi, hw⟩ := power_sound q hq f hf k hk
  set p := power (powers q f) k with hp
  have hT : (0 : ℝ) < 16 ^ q := by positivity
  set c : ℝ := (2 ^ 18 * (dd : ℝ)) ^ 2 with hc
  have hc0 : 0 < c := by have : (0:ℝ) < dd := by exact_mod_cast hdd
                         positivity
  set X : ℝ := ((f.cfg.windowDiv : ℝ) * t) ^ 2 with hX
  simp only [below] at h
  split_ifs at h with g1 g2 g3
  · obtain rfl := Option.some.inj h
    have g : (p.hi : ℝ) * c < X * 16 ^ q := by
      rw [hX, hc]
      have := (Nat.cast_lt (α := ℝ)).mpr g1
      push_cast at this; norm_num at this ⊢; exact this
    simp only [true_iff]
    have : 16 ^ q * (f.u k * c) < 16 ^ q * X := by nlinarith
    exact lt_of_mul_lt_mul_left this hT.le
  · obtain rfl := Option.some.inj h
    have g : X * 16 ^ q ≤ (p.lo : ℝ) * c := by
      rw [hX, hc]
      have := (Nat.cast_le (α := ℝ)).mpr g2
      push_cast at this; norm_num at this ⊢; exact this
    simp only [Bool.false_eq_true, false_iff, not_lt]
    have : 16 ^ q * X ≤ 16 ^ q * (f.u k * c) := by nlinarith
    exact le_of_mul_le_mul_left this hT
  · obtain rfl := Option.some.inj h
    have gh : X * 16 ^ q ≤ (p.hi : ℝ) * c := by
      rw [hX, hc]
      have := (Nat.cast_le (α := ℝ)).mpr (not_lt.mp g1)
      push_cast at this; norm_num at this ⊢; exact this
    have gl : (p.lo : ℝ) * c < X * 16 ^ q := by
      rw [hX, hc]
      have := (Nat.cast_lt (α := ℝ)).mpr (not_le.mp g2)
      push_cast at this; norm_num at this ⊢; exact this
    obtain rfl := hfin g3
    simp only [Bool.false_eq_true, false_iff, not_lt]
    have hb : ConjBounded f.order ((2 ^ 18 * dd : ℕ) ^ 2 * (16 * f.total ^ 2) + 4 * ((f.cfg.windowDiv * t : ℕ) : ℝ) ^ 2)
        ((4 * (f.u k * c - X) : ℝ) : ℂ) := by
      have a := ConjBounded.mul (abs_nonneg _) (ConjBounded.int (m := f.order) ((2 ^ 18 * dd : ℕ) ^ 2 : ℤ)) (f.u_conjBounded hf k)
      have b := ConjBounded.int (m := f.order) (4 * (f.cfg.windowDiv * t : ℕ) ^ 2 : ℤ)
      have ab := a.sub b
      have e : (((((2 ^ 18 * dd : ℕ) ^ 2 : ℤ) : ℂ) * ((4 * f.u k : ℝ) : ℂ)) - ((4 * (f.cfg.windowDiv * t : ℕ) ^ 2 : ℤ) : ℂ))
          = ((4 * (f.u k * c - X) : ℝ) : ℂ) := by rw [hc, hX]; push_cast; ring
      rw [e] at ab
      refine ab.mono (le_of_eq ?_)
      rw [abs_of_nonneg (by positivity), abs_of_nonneg (by positivity)]
      push_cast; ring
    have hbound : ((2 ^ 18 * dd : ℕ) ^ 2 * (16 * f.total ^ 2) + 4 * ((f.cfg.windowDiv * t : ℕ) : ℝ) ^ 2 : ℝ)
        ≤ 2 ^ 70 * f.bulk ^ 4 := by
      have e : (2 ^ 18 * dd) ^ 2 * (16 * f.total ^ 2) + 4 * (f.cfg.windowDiv * t) ^ 2 ≤ 2 ^ 70 * f.bulk ^ 4 := by
        calc (2 ^ 18 * dd) ^ 2 * (16 * f.total ^ 2) + 4 * (f.cfg.windowDiv * t) ^ 2
            = 2 ^ 40 * (f.total * dd) ^ 2 + 4 * (f.cfg.windowDiv * t) ^ 2 := by ring
          _ ≤ 2 ^ 40 * f.bulk ^ 2 + 4 * (2 ^ 33 * f.bulk) ^ 2 := by gcongr
          _ = (2 ^ 40 + 2 ^ 68) * f.bulk ^ 2 := by ring
          _ ≤ 2 ^ 70 * f.bulk ^ 4 := by
              gcongr
              · norm_num
              · exact f.bulk_pos
              · norm_num
      exact_mod_cast e
    have hz := eq_zero_of_small f hf hb hbound (by
      have hcb : 4 * c ≤ 2 ^ 38 * f.bulk ^ 4 := by
        have e : 4 * (2 ^ 18 * dd) ^ 2 ≤ 2 ^ 38 * f.bulk ^ 4 := by
          calc 4 * (2 ^ 18 * dd) ^ 2 = 2 ^ 38 * dd ^ 2 := by ring
            _ ≤ 2 ^ 38 * f.bulk ^ 2 := by gcongr
            _ ≤ 2 ^ 38 * f.bulk ^ 4 := by
                gcongr
                · exact f.bulk_pos
                · norm_num
        rw [hc]; exact_mod_cast e
      have hV : |4 * (f.u k * c - X)| * 16 ^ lastPrecision f ≤ 4 * c * powerWidth (lastPrecision f) f := by
        rw [abs_mul, abs_of_pos (by norm_num : (0 : ℝ) < 4), mul_assoc, mul_assoc]
        refine mul_le_mul_of_nonneg_left ?_ (by norm_num)
        rw [← abs_of_pos hT, ← abs_mul, abs_le]
        constructor <;> nlinarith
      have hw0 : (0 : ℝ) ≤ powerWidth (lastPrecision f) f := Nat.cast_nonneg _
      exact hV.trans (mul_le_mul_of_nonneg_right hcb hw0))
    linarith

/-- At the last precision the threshold test is settled. -/
theorem below_final (f : Frame) (q t dd : ℕ) (p : Ival) : below q true f t dd p ≠ none := by
  simp only [below]; split_ifs <;> simp

/-! ## The peak -/

/-- k* is the least bin of maximum magnitude. -/
theorem kStar_spec (f : Frame) (hc : f.cfg.Legal) :
    f.kStar ≤ f.cfg.lastBin ∧ (∀ j ≤ f.cfg.lastBin, f.u j ≤ f.u f.kStar) ∧
    ∀ k ≤ f.cfg.lastBin, (∀ j ≤ f.cfg.lastBin, f.u j ≤ f.u k) → f.kStar ≤ k := by
  have hset : {k | k ≤ f.cfg.lastBin ∧ ∀ j ≤ f.cfg.lastBin, f.magnitude j ≤ f.magnitude k}
      = {k | k ≤ f.cfg.lastBin ∧ ∀ j ≤ f.cfg.lastBin, f.u j ≤ f.u k} := by
    ext k
    simp only [Set.mem_ofPred_eq, f.magnitude_le_iff hc]
  have hk : f.kStar = sInf {k | k ≤ f.cfg.lastBin ∧ ∀ j ≤ f.cfg.lastBin, f.u j ≤ f.u k} := by
    rw [Frame.kStar, hset]
  obtain ⟨m, hm, hmax⟩ := exists_max_image (range (f.cfg.lastBin + 1)) f.u ⟨0, by simp⟩
  have hne : {k | k ≤ f.cfg.lastBin ∧ ∀ j ≤ f.cfg.lastBin, f.u j ≤ f.u k}.Nonempty :=
    ⟨m, by rw [mem_range] at hm; omega, fun j hj => hmax j (by rw [mem_range]; omega)⟩
  have := Nat.sInf_mem hne
  rw [← hk] at this
  exact ⟨this.1, this.2, fun k h1 h2 => by rw [hk]; exact Nat.sInf_le ⟨h1, h2⟩⟩

theorem foldl_max_spec (l : List ℕ) (i : ℕ) : (∀ x ∈ l, x ≤ l.foldl max i) ∧ i ≤ l.foldl max i ∧
    (l.foldl max i = i ∨ l.foldl max i ∈ l) := by
  induction l generalizing i with
  | nil => simp
  | cons a l ih =>
    obtain ⟨h1, h2, h3⟩ := ih (max i a)
    rw [List.foldl_cons]
    refine ⟨?_, (le_max_left _ _).trans h2, ?_⟩
    · intro x hx
      rcases List.mem_cons.mp hx with rfl | hx
      · exact (le_max_right _ _).trans h2
      · exact h1 x hx
    · rcases h3 with h3 | h3
      · rw [h3]
        rcases le_total i a with h | h
        · right; rw [max_eq_right h]; exact List.mem_cons_self
        · left; exact max_eq_left h
      · right; exact List.mem_cons_of_mem _ h3

theorem power_mem (q : ℕ) (f : Frame) (k : ℕ) (hk : k ≤ f.cfg.lastBin) : power (powers q f) k ∈ powers q f := by
  rw [power, List.getD_eq_getElem?_getD, List.getElem?_eq_getElem (by rw [powers_length]; omega)]
  exact List.getElem_mem _

theorem powers_eq_map (q : ℕ) (f : Frame) : powers q f = (List.range (f.cfg.lastBin + 1)).map (power (powers q f)) := by
  apply List.ext_getElem?
  intro i
  rcases lt_or_ge i (f.cfg.lastBin + 1) with h | h
  · rw [List.getElem?_map, List.getElem?_range h, Option.map_some, power, List.getD_eq_getElem?_getD,
      List.getElem?_eq_getElem (by rw [powers_length]; exact h), Option.getD_some]
  · rw [List.getElem?_eq_none (by rw [powers_length]; exact h), List.getElem?_eq_none (by simpa using h)]

/-- Every bin of maximum magnitude is a candidate; a candidate's interval reaches the largest lower end. -/
theorem candidates_spec (f : Frame) (hf : f.Complete) (q : ℕ) (hq : 12 ≤ q) :
    (∀ k ≤ f.cfg.lastBin, (∀ j ≤ f.cfg.lastBin, f.u j ≤ f.u k) → k ∈ candidates (powers q f)) ∧
    (∀ k ∈ candidates (powers q f), k ≤ f.cfg.lastBin ∧
      ∀ j ≤ f.cfg.lastBin, (power (powers q f) j).lo ≤ (power (powers q f) k).hi) ∧
    (candidates (powers q f)).Pairwise (· < ·) := by
  have hfold := foldl_max_spec ((powers q f).map Ival.lo) 0
  refine ⟨fun k hk hmax => ?_, fun k hk => ?_, ?_⟩
  · unfold candidates
    rw [List.mem_filter, powers_length]
    refine ⟨by simp; omega, ?_⟩
    rw [decide_eq_true_eq]
    rcases hfold.2.2 with h | h
    · rw [h]; exact Nat.zero_le _
    · obtain ⟨p, hp, hpe⟩ := List.mem_map.mp h
      rw [← hpe]
      rw [powers_eq_map] at hp
      obtain ⟨j, hj, rfl⟩ := List.mem_map.mp hp
      rw [List.mem_range] at hj
      have hj' : j ≤ f.cfg.lastBin := by omega
      have h1 := (power_sound q hq f hf j hj').1
      have h2 := (power_sound q hq f hf k hk).2.1
      have h3 := hmax j hj'
      have hT : (0 : ℝ) < 16 ^ q := by positivity
      have : ((power (powers q f) j).lo : ℝ) ≤ (power (powers q f) k).hi := by nlinarith
      exact_mod_cast this
  · unfold candidates at hk
    rw [List.mem_filter, powers_length, decide_eq_true_eq] at hk
    have hk1 := List.mem_range.mp hk.1
    refine ⟨by omega, fun j hj => ?_⟩
    exact (hfold.1 _ (List.mem_map_of_mem (power_mem q f j hj))).trans hk.2
  · exact List.Pairwise.filter _ List.pairwise_lt_range

/-- The rotation test: the spectra at two bins differ by a factor of absolute value 1. -/
theorem sameMagnitude_sound (f : Frame) (hf : f.Complete) (j k : ℕ)
    (h : sameMagnitude f.cfg.pN (support f) j k = true) : f.u j = f.u k := by
  have hN0 : f.cfg.pN ≠ 0 := by have := hf.1.1.1; omega
  have hN : (f.cfg.pN : ℂ) ≠ 0 := by exact_mod_cast hN0
  have hs : ∀ n, f.s n ≠ 0 → n ∈ support f := by
    intro n hn
    unfold support
    rw [List.mem_map]
    have hlt : n < f.samples.length := by
      by_contra hge
      exact hn (by rw [Frame.s, List.getD_eq_getElem?_getD, List.getElem?_eq_none (by omega)]; rfl)
    have hv : f.samples[n] = f.s n := by
      rw [Frame.s, List.getD_eq_getElem?_getD, List.getElem?_eq_getElem hlt]; rfl
    refine ⟨(f.samples[n], n), ?_, rfl⟩
    rw [List.mem_filter]
    refine ⟨by rw [List.mem_zipIdx_iff_getElem?]; simp [hlt], by simp [hv, hn]⟩
  unfold sameMagnitude at h
  rcases hsupp : support f with _ | ⟨n0, rest⟩
  · have hz : ∀ n, f.s n = 0 := fun n => by
      by_contra hn
      have := hs n hn
      rw [hsupp] at this
      exact absurd this (by simp)
    simp [Frame.u, Frame.Y, hz]
  · rw [hsupp] at h
    simp only [List.all_eq_true, decide_eq_true_eq] at h
    have hm : ∀ n, f.s n ≠ 0 → (k * n + j * n0) % f.cfg.pN = (j * n + k * n0) % f.cfg.pN := by
      intro n hn
      have := hs n hn
      rw [hsupp, List.mem_cons] at this
      rcases this with rfl | hr
      · rw [add_comm]
      · exact h n hr
    set ρ : ℂ := Complex.exp (((-(2 * π * (j * n0 - k * n0) / f.cfg.pN) : ℝ) : ℂ) * Complex.I) with hρ
    have hY : f.Y j = ρ * f.Y k := by
      unfold Frame.Y
      rw [mul_sum]
      refine sum_congr rfl fun n _ => ?_
      by_cases hn : f.s n = 0
      · simp [hn]
      · have hmod := hm n hn
        have hint : ∃ i : ℤ, ((k : ℤ) * n + j * n0 - (j * n + k * n0)) = f.cfg.pN * i := by
          have : ((f.cfg.pN : ℕ) : ℤ) ∣ ((k * n + j * n0 : ℕ) : ℤ) - ((j * n + k * n0 : ℕ) : ℤ) :=
            (Nat.modEq_iff_dvd.mp (show (j * n + k * n0) ≡ (k * n + j * n0) [MOD f.cfg.pN] from hmod.symm))
          obtain ⟨i, hi⟩ := this
          exact ⟨i, by rw [← hi]; push_cast; ring⟩
        obtain ⟨i, hi⟩ := hint
        have hi' : ((k : ℂ) * n + j * n0 - (j * n + k * n0)) = f.cfg.pN * i := by exact_mod_cast congrArg (Int.cast (R := ℂ)) hi
        have hexp : Complex.exp (-2 * π * Complex.I * j * n / f.cfg.pN)
            = ρ * Complex.exp (-2 * π * Complex.I * k * n / f.cfg.pN) := by
          rw [hρ, ← Complex.exp_add, Complex.exp_eq_exp_iff_exists_int]
          refine ⟨i, ?_⟩
          push_cast
          field_simp
          linear_combination hi'
        rw [hexp]; ring
    rw [Frame.u, Frame.u, hY, norm_mul, hρ, Complex.norm_exp_ofReal_mul_I, one_mul]

/-- The peak is right wherever it is settled. -/
theorem peak_sound (f : Frame) (hf : f.Complete) (q : ℕ) (hq : 12 ≤ q) (final : Bool)
    (hfin : final = true → q = lastPrecision f) {k : ℕ} (h : peak final f (powers q f) = some k) : k = f.kStar := by
  obtain ⟨hk1, hk2, hk3⟩ := kStar_spec f hf.1
  obtain ⟨hc1, hc2, hc3⟩ := candidates_spec f hf q hq
  have hmem := hc1 _ hk1 hk2
  unfold peak at h
  rcases hcand : candidates (powers q f) with _ | ⟨k0, rest⟩
  · rw [hcand] at hmem; exact absurd hmem (by simp)
  · rw [hcand] at h hmem hc3
    simp only at h
    split_ifs at h with hall
    obtain rfl := Option.some.inj h
    have hmem0 : k0 ∈ candidates (powers q f) := by rw [hcand]; exact List.mem_cons_self
    have hle : k0 ≤ f.kStar := by
      rcases List.mem_cons.mp hmem with he | hr
      · exact he.ge
      · exact ((List.pairwise_cons.mp hc3).1 _ hr).le
    have hu : f.u f.kStar = f.u k0 := by
      rcases List.mem_cons.mp hmem with he | hr
      · rw [he]
      · have hr' := List.all_eq_true.mp hall _ hr
        rw [Bool.or_eq_true] at hr'
        rcases hr' with hfi | hsame
        · obtain rfl := hfin hfi
          obtain ⟨a1, a2, a3⟩ := power_sound _ hq f hf _ hk1
          obtain ⟨b1, b2, b3⟩ := power_sound _ hq f hf _ (hc2 _ hmem0).1
          have hov := (hc2 _ hmem0).2 _ hk1
          have hov' : ((power (powers (lastPrecision f) f) f.kStar).lo : ℝ) ≤ (power (powers (lastPrecision f) f) k0).hi := by
            exact_mod_cast hov
          have hge : f.u k0 ≤ f.u f.kStar := hk2 _ (hc2 _ hmem0).1
          have hb : ConjBounded f.order (16 * f.total ^ 2 + 16 * f.total ^ 2) ((4 * (f.u f.kStar - f.u k0) : ℝ) : ℂ) := by
            have := (f.u_conjBounded hf f.kStar).sub (f.u_conjBounded hf k0)
            rw [← Complex.ofReal_sub] at this
            rwa [mul_sub]
          have hp : 1 ≤ f.bulk := f.bulk_pos
          have hbound : (16 * f.total ^ 2 + 16 * f.total ^ 2 : ℝ) ≤ 2 ^ 70 * f.bulk ^ 4 := by
            have e : 16 * f.total ^ 2 + 16 * f.total ^ 2 ≤ 2 ^ 70 * f.bulk ^ 4 := by
              calc 16 * f.total ^ 2 + 16 * f.total ^ 2 = 32 * f.total ^ 2 := by ring
                _ ≤ 2 ^ 70 * f.bulk ^ 2 := by gcongr; norm_num; exact f.le_bulk.1
                _ ≤ 2 ^ 70 * f.bulk ^ 4 := by gcongr; norm_num
            exact_mod_cast e
          have hz := eq_zero_of_small f hf hb hbound (by
            rw [abs_of_nonneg (by linarith)]
            have hw0 : (0 : ℝ) ≤ powerWidth (lastPrecision f) f := Nat.cast_nonneg _
            have hT : (0 : ℝ) < 16 ^ lastPrecision f := by positivity
            have h8 : (8 : ℝ) ≤ 2 ^ 38 * f.bulk ^ 4 := by
              have e : 8 ≤ 2 ^ 38 * f.bulk ^ 4 := by
                calc 8 ≤ 2 ^ 38 * 1 ^ 4 := by norm_num
                  _ ≤ _ := by gcongr
              exact_mod_cast e
            calc 4 * (f.u f.kStar - f.u k0) * 16 ^ lastPrecision f ≤ 8 * powerWidth (lastPrecision f) f := by nlinarith
              _ ≤ _ := mul_le_mul_of_nonneg_right h8 hw0)
          linarith
        · exact sameMagnitude_sound f hf _ _ hsame
    refine le_antisymm hle (hk3 _ (hc2 _ hmem0).1 fun j hj => ?_)
    rw [← hu]; exact hk2 j hj

/-- At the last precision the peak is settled. -/
theorem peak_final (f : Frame) (hf : f.Complete) (q : ℕ) (hq : 12 ≤ q) : peak true f (powers q f) ≠ none := by
  obtain ⟨hk1, hk2, _⟩ := kStar_spec f hf.1
  have hmem := (candidates_spec f hf q hq).1 _ hk1 hk2
  unfold peak
  rcases hcand : candidates (powers q f) with _ | ⟨k0, rest⟩
  · rw [hcand] at hmem; exact absurd hmem (by simp)
  · simp

/-! ## The outcome -/

theorem tau_eq (f : Frame) : f.tau = (f.ethresh : ℝ) / (2 ^ 32 * (1 : ℕ)) := by simp [Frame.tau]

theorem threshold_bounds (f : Frame) (hc : f.cfg.Legal) : f.total * 1 ≤ f.bulk ∧ 1 ≤ f.bulk ∧ f.cfg.windowDiv * f.ethresh ≤ 2 ^ 33 * f.bulk := by
  obtain ⟨h1, _, _, _, _, h6⟩ := f.le_bulk
  have hd := hc.2.2.2.2.2.1
  refine ⟨by omega, f.bulk_pos, ?_⟩
  calc f.cfg.windowDiv * f.ethresh ≤ f.cfg.windowDiv * (f.ethresh * f.cfg.estTolDen) := by
        gcongr; exact Nat.le_mul_of_pos_right _ hd
    _ ≤ f.bulk := h6
    _ ≤ _ := by omega

/-- The outcome is right wherever it is settled. -/
theorem estAt_sound (f : Frame) (hf : f.Complete) (q : ℕ) (hq : 12 ≤ q) (final : Bool)
    (hfin : final = true → q = lastPrecision f) {e : Est} (h : estAt f q final = some e) : e = f.est := by
  obtain ⟨hk1, hk2, hk3⟩ := kStar_spec f hf.1
  obtain ⟨t1, t2, t3⟩ := threshold_bounds f hf.1
  unfold estAt at h
  simp only at h
  split_ifs at h with h0 hall
  · obtain rfl := Option.some.inj h
    have hz : ∀ k, f.u k = 0 := fun k => by
      have := f.u_le hf k
      rw [h0] at this
      exact le_antisymm (by simpa using this) (f.u_nonneg k)
    have : f.kStar = 0 := Nat.le_zero.mp (hk3 0 (Nat.zero_le _) fun j _ => by rw [hz, hz])
    rw [Frame.est, if_pos (show f.Silent from Or.inr this)]
  · obtain rfl := Option.some.inj h
    have hb := List.all_eq_true.mp hall _ (power_mem q f _ hk1)
    rw [decide_eq_true_eq] at hb
    have := (below_sound f hf q hq false f.kStar f.ethresh 1 hk1 one_pos (by simp) t1 t2 t3 hb).mp rfl
    rw [← tau_eq] at this
    rw [Frame.est, if_pos (show f.Silent from Or.inl this)]
  · obtain ⟨k, hp, h⟩ := Option.bind_eq_some_iff.mp h
    obtain ⟨b, hb, h⟩ := Option.map_eq_some_iff.mp h
    have hk : k = f.kStar := peak_sound f hf q hq final hfin hp
    subst hk
    have hbs := below_sound f hf q hq final f.kStar f.ethresh 1 hk1 one_pos hfin t1 t2 t3 hb
    rw [← tau_eq] at hbs
    rw [← h, Frame.est]
    by_cases hs : f.Silent
    · rw [if_pos hs, if_pos]
      exact hs.imp hbs.mpr id
    · rw [if_neg hs, if_neg]
      exact fun hc => hs (hc.imp hbs.mp id)

/-- At the last precision the outcome is settled. -/
theorem estAt_final (f : Frame) (hf : f.Complete) (q : ℕ) (hq : 12 ≤ q) : estAt f q true ≠ none := by
  obtain ⟨k, hk⟩ := Option.ne_none_iff_exists'.mp (peak_final f hf q hq)
  obtain ⟨b, hb⟩ := Option.ne_none_iff_exists'.mp (below_final f q f.ethresh 1 (power (powers q f) k))
  rw [estAt, hk, Option.bind_some, hb, Option.map_some]
  split_ifs <;> simp

/-- A test that is right wherever it is settled, and settled at the last precision, settles right. -/
theorem settle_sound {α : Type} (f : Frame) (test : ℕ → Bool → Option α) (a : α)
    (hs : ∀ q final, 12 ≤ q → (final = true → q = lastPrecision f) → ∀ b, test q final = some b → b = a)
    (hl : test (lastPrecision f) true ≠ none) : settle f test = some a := by
  unfold settle
  have hP := lastPrecision_ge f
  rcases h1 : test 64 false with _ | b1
  · rcases h2 : test 256 false with _ | b2
    · rcases h3 : test 1024 false with _ | b3
      · simp only
        rcases h4 : test (lastPrecision f) true with _ | b4
        · exact absurd h4 hl
        · rw [hs _ _ (by omega) (fun _ => rfl) b4 h4]
      · simp only; rw [hs _ _ (by norm_num) (by simp) b3 h3]
    · simp only; rw [hs _ _ (by norm_num) (by simp) b2 h2]
  · simp only; rw [hs _ _ (by norm_num) (by simp) b1 h1]

/-- THE COMPUTED ESTIMATOR IS THE REFERENCE ESTIMATOR (R110 to R116), for every legal configuration, every threshold and
every complete frame. -/
theorem estimate_eq_est (f : Frame) (hf : f.Complete) : estimate f = f.est := by
  unfold estimate
  rw [settle_sound f (estAt f) f.est (fun q final hq hfin b hb => estAt_sound f hf q hq final hfin hb)
    (estAt_final f hf _ (by have := lastPrecision_ge f; omega))]
  rfl

/-! ## The admissible set -/

theorem amplitude_le_add_iff (f : Frame) (hc : f.cfg.Legal) (j k : ℕ) :
    f.amplitude j ≤ f.amplitude k + f.tolQuotient ↔
      (f.cfg.estTolDen ^ 2 * (f.u j - f.u k) - ((2 ^ 14 * f.cfg.windowDiv * f.cfg.estTolNum : ℕ) : ℝ) ^ 2 ≤ 0 ∨
      (f.cfg.estTolDen ^ 2 * (f.u j - f.u k) - ((2 ^ 14 * f.cfg.windowDiv * f.cfg.estTolNum : ℕ) : ℝ) ^ 2) ^ 2
        ≤ 4 * ((2 ^ 14 * f.cfg.windowDiv * f.cfg.estTolNum : ℕ) : ℝ) ^ 2 * f.cfg.estTolDen ^ 2 * f.u k) := by
  have hd : (0 : ℝ) < f.cfg.windowDiv := by exact_mod_cast (by have := windowDiv_pos f.cfg hc; omega : 0 < f.cfg.windowDiv)
  have hdd : (0 : ℝ) < f.cfg.estTolDen := by exact_mod_cast hc.2.2.2.2.2.1
  rw [f.amplitude_eq hc, f.amplitude_eq hc, Frame.tolQuotient, Frame.u, Frame.u]
  have hr : ((2 ^ 14 * f.cfg.windowDiv * f.cfg.estTolNum : ℕ) : ℝ) = 2 ^ 14 * f.cfg.windowDiv * f.cfg.estTolNum := by push_cast; ring
  rw [hr]
  have hn : (0 : ℝ) ≤ f.cfg.estTolNum := Nat.cast_nonneg _
  have hyj : 0 ≤ ‖f.Y j‖ := norm_nonneg _
  have hyk : 0 ≤ ‖f.Y k‖ := norm_nonneg _
  have hr0 : 0 ≤ 2 ^ 14 * (f.cfg.windowDiv : ℝ) * f.cfg.estTolNum := by positivity
  have e : ‖f.Y j‖ / (2 ^ 14 * (f.cfg.windowDiv : ℝ)) ≤ ‖f.Y k‖ / (2 ^ 14 * (f.cfg.windowDiv : ℝ)) + f.cfg.estTolNum / f.cfg.estTolDen ↔
      f.cfg.estTolDen * ‖f.Y j‖ ≤ f.cfg.estTolDen * ‖f.Y k‖ + 2 ^ 14 * f.cfg.windowDiv * f.cfg.estTolNum := by
    rw [div_add_div _ _ (by positivity) hdd.ne', div_le_div_iff₀ (by positivity) (by positivity)]
    constructor <;> intro h
    · have h' : (2 ^ 14 * (f.cfg.windowDiv : ℝ)) * (f.cfg.estTolDen * ‖f.Y j‖)
          ≤ (2 ^ 14 * (f.cfg.windowDiv : ℝ)) * (f.cfg.estTolDen * ‖f.Y k‖ + 2 ^ 14 * f.cfg.windowDiv * f.cfg.estTolNum) := by
        linarith
      exact le_of_mul_le_mul_left h' (by positivity)
    · have h' := mul_le_mul_of_nonneg_left h (by positivity : (0 : ℝ) ≤ 2 ^ 14 * (f.cfg.windowDiv : ℝ))
      linarith
  rw [e]
  generalize ‖f.Y j‖ = a at *
  generalize ‖f.Y k‖ = b at *
  generalize (2 ^ 14 * (f.cfg.windowDiv : ℝ) * f.cfg.estTolNum) = r at *
  generalize (f.cfg.estTolDen : ℝ) = d at *
  have hw : d ^ 2 * (a ^ 2 - b ^ 2) - r ^ 2 = (d * a) ^ 2 - (d * b + r) ^ 2 + 2 * r * (d * b) := by ring
  have hda : 0 ≤ d * a := by positivity
  have hdb : 0 ≤ d * b := by positivity
  have h2 : 0 ≤ 2 * r * (d * b) := by positivity
  constructor
  · intro h
    have hsq : (d * a) ^ 2 ≤ (d * b + r) ^ 2 := by gcongr
    rcases le_total (d ^ 2 * (a ^ 2 - b ^ 2) - r ^ 2) 0 with h0 | h0
    · exact Or.inl h0
    · right
      calc (d ^ 2 * (a ^ 2 - b ^ 2) - r ^ 2) ^ 2 ≤ (2 * r * (d * b)) ^ 2 := by
            apply pow_le_pow_left₀ h0; linarith
        _ = _ := by ring
  · intro h
    have hle : d ^ 2 * (a ^ 2 - b ^ 2) - r ^ 2 ≤ 2 * r * (d * b) := by
      rcases h with h | h
      · linarith
      · apply le_of_sq_le_sq _ h2
        calc _ ≤ _ := h
          _ = _ := by ring
    have : (d * a) ^ 2 ≤ (d * b + r) ^ 2 := by linarith
    exact le_of_sq_le_sq this (by positivity)

theorem sq_le_four (x : ℕ) : x ^ 2 ≤ x ^ 4 := by
  rcases Nat.eq_zero_or_pos x with rfl | hx
  · simp
  · exact Nat.pow_le_pow_right hx (by norm_num)

/-- The number w of `within`, four times. -/
theorem gap_conjBounded (f : Frame) (hf : f.Complete) (j k r dd : ℕ) :
    ConjBounded f.order ((dd : ℝ) ^ 2 * (16 * f.total ^ 2 + 16 * f.total ^ 2) + 4 * (r : ℝ) ^ 2)
      ((4 * ((dd : ℝ) ^ 2 * (f.u j - f.u k) - (r : ℝ) ^ 2) : ℝ) : ℂ) := by
  have a := ConjBounded.mul (abs_nonneg _) (ConjBounded.int (m := f.order) ((dd : ℤ) ^ 2))
    ((f.u_conjBounded hf j).sub (f.u_conjBounded hf k))
  have c := a.sub (ConjBounded.int (m := f.order) (4 * (r : ℤ) ^ 2))
  have e : ((((dd : ℤ) ^ 2 : ℤ) : ℂ) * (((4 * f.u j : ℝ) : ℂ) - ((4 * f.u k : ℝ) : ℂ)) - ((4 * (r : ℤ) ^ 2 : ℤ) : ℂ))
      = ((4 * ((dd : ℝ) ^ 2 * (f.u j - f.u k) - (r : ℝ) ^ 2) : ℝ) : ℂ) := by push_cast; ring
  rw [e] at c
  refine c.mono (le_of_eq ?_)
  push_cast
  rw [abs_of_nonneg (by positivity), abs_of_nonneg (by positivity)]

/-- At the last precision w > 0 does not go with a lower end of w that is not positive. -/
theorem gap_not_small (f : Frame) (hf : f.Complete) (j k r dd : ℕ) (m2 : f.total * dd ≤ f.bulk) (m3 : dd ≤ f.bulk)
    (hrm : r ≤ 2 ^ 14 * f.bulk) {W : ℝ} (hW : W = (dd : ℝ) ^ 2 * (f.u j - f.u k) - (r : ℝ) ^ 2) (hpos : 0 < W)
    (hs : 16 ^ lastPrecision f * W ≤ 2 * dd ^ 2 * powerWidth (lastPrecision f) f) : False := by
  have hb := gap_conjBounded f hf j k r dd
  rw [← hW] at hb
  have hbound : ((dd : ℝ) ^ 2 * (16 * f.total ^ 2 + 16 * f.total ^ 2) + 4 * (r : ℝ) ^ 2) ≤ 2 ^ 70 * f.bulk ^ 4 := by
    have e : dd ^ 2 * (16 * f.total ^ 2 + 16 * f.total ^ 2) + 4 * r ^ 2 ≤ 2 ^ 70 * f.bulk ^ 4 := by
      calc dd ^ 2 * (16 * f.total ^ 2 + 16 * f.total ^ 2) + 4 * r ^ 2 = 32 * (f.total * dd) ^ 2 + 4 * r ^ 2 := by ring
        _ ≤ 32 * f.bulk ^ 2 + 4 * (2 ^ 14 * f.bulk) ^ 2 := by gcongr
        _ = (32 + 2 ^ 30) * f.bulk ^ 2 := by ring
        _ ≤ 2 ^ 70 * f.bulk ^ 4 := Nat.mul_le_mul (by norm_num) (sq_le_four _)
    exact_mod_cast e
  have h8 : (8 * dd ^ 2 : ℝ) ≤ 2 ^ 38 * f.bulk ^ 4 := by
    have e : 8 * dd ^ 2 ≤ 2 ^ 38 * f.bulk ^ 4 := by
      calc 8 * dd ^ 2 ≤ 8 * f.bulk ^ 2 := by gcongr
        _ ≤ _ := Nat.mul_le_mul (by norm_num) (sq_le_four _)
    exact_mod_cast e
  have hw0 : (0 : ℝ) ≤ powerWidth (lastPrecision f) f := Nat.cast_nonneg _
  have hz := eq_zero_of_small f hf hb hbound (by
    rw [abs_of_pos (by linarith)]
    calc 4 * W * 16 ^ lastPrecision f = 4 * (16 ^ lastPrecision f * W) := by ring
      _ ≤ 4 * (2 * dd ^ 2 * powerWidth (lastPrecision f) f) := by linarith
      _ = 8 * dd ^ 2 * powerWidth (lastPrecision f) f := by ring
      _ ≤ _ := mul_le_mul_of_nonneg_right h8 hw0)
  linarith

/-- At the last precision w² > 4·r²·dd²·|Y[k]|² shows. -/
theorem gap_sq_not_small (f : Frame) (hf : f.Complete) (j k r dd : ℕ) (m2 : f.total * dd ≤ f.bulk) (m3 : dd ≤ f.bulk)
    (hrm : r ≤ 2 ^ 14 * f.bulk) (hrd : r * dd ≤ 2 ^ 14 * f.bulk) {W : ℝ}
    (hW : W = (dd : ℝ) ^ 2 * (f.u j - f.u k) - (r : ℝ) ^ 2)
    (hV : 0 < W ^ 2 - 4 * (r : ℝ) ^ 2 * dd ^ 2 * f.u k)
    (hs : 16 ^ lastPrecision f * (W ^ 2 - 4 * (r : ℝ) ^ 2 * dd ^ 2 * f.u k)
      ≤ powerWidth (lastPrecision f) f * (4 * dd ^ 2 * W + 4 * r ^ 2 * dd ^ 2)) : False := by
  have hcW := gap_conjBounded f hf j k r dd
  rw [← hW] at hcW
  have hWle : W ≤ 8 * dd ^ 2 * f.total ^ 2 := by
    have h1 := f.u_le hf j
    have h2 := f.u_nonneg k
    have h3 : (dd : ℝ) ^ 2 * f.u j ≤ (dd : ℝ) ^ 2 * (8 * f.total ^ 2) := mul_le_mul_of_nonneg_left h1 (by positivity)
    have h4 : 0 ≤ (dd : ℝ) ^ 2 * f.u k := by positivity
    have h5 : 0 ≤ (r : ℝ) ^ 2 := by positivity
    have h6 : 0 ≤ (dd : ℝ) ^ 2 * (f.total : ℝ) ^ 2 := by positivity
    rw [hW]; linarith
  set V : ℝ := W ^ 2 - 4 * (r : ℝ) ^ 2 * dd ^ 2 * f.u k with hVd
  have hcV : ConjBounded f.order (((dd : ℝ) ^ 2 * (16 * f.total ^ 2 + 16 * f.total ^ 2) + 4 * (r : ℝ) ^ 2)
      * ((dd : ℝ) ^ 2 * (16 * f.total ^ 2 + 16 * f.total ^ 2) + 4 * (r : ℝ) ^ 2)
      + 16 * (r : ℝ) ^ 2 * dd ^ 2 * (16 * f.total ^ 2)) ((16 * V : ℝ) : ℂ) := by
    have a := ConjBounded.mul (by positivity) hcW hcW
    have c := a.sub (ConjBounded.mul (abs_nonneg _) (ConjBounded.int (m := f.order) (16 * (r : ℤ) ^ 2 * (dd : ℤ) ^ 2)) (f.u_conjBounded hf k))
    have e : (((4 * W : ℝ) : ℂ) * ((4 * W : ℝ) : ℂ) - ((16 * (r : ℤ) ^ 2 * (dd : ℤ) ^ 2 : ℤ) : ℂ) * ((4 * f.u k : ℝ) : ℂ))
        = ((16 * V : ℝ) : ℂ) := by rw [hVd]; push_cast; ring
    rw [e] at c
    refine c.mono (le_of_eq ?_)
    congr 2
    push_cast
    rw [abs_of_nonneg (by positivity)]
  have hbound : (((dd : ℝ) ^ 2 * (16 * f.total ^ 2 + 16 * f.total ^ 2) + 4 * (r : ℝ) ^ 2)
      * ((dd : ℝ) ^ 2 * (16 * f.total ^ 2 + 16 * f.total ^ 2) + 4 * (r : ℝ) ^ 2)
      + 16 * (r : ℝ) ^ 2 * dd ^ 2 * (16 * f.total ^ 2)) ≤ 2 ^ 70 * f.bulk ^ 4 := by
    have e : (dd ^ 2 * (16 * f.total ^ 2 + 16 * f.total ^ 2) + 4 * r ^ 2) * (dd ^ 2 * (16 * f.total ^ 2 + 16 * f.total ^ 2) + 4 * r ^ 2)
        + 16 * r ^ 2 * dd ^ 2 * (16 * f.total ^ 2) ≤ 2 ^ 70 * f.bulk ^ 4 := by
      calc _ = (32 * (f.total * dd) ^ 2 + 4 * r ^ 2) ^ 2 + 256 * (r ^ 2 * (f.total * dd) ^ 2) := by ring
        _ ≤ (32 * f.bulk ^ 2 + 4 * (2 ^ 14 * f.bulk) ^ 2) ^ 2 + 256 * ((2 ^ 14 * f.bulk) ^ 2 * f.bulk ^ 2) := by gcongr
        _ = ((32 + 2 ^ 30) ^ 2 + 256 * 2 ^ 28) * f.bulk ^ 4 := by ring
        _ ≤ 2 ^ 70 * f.bulk ^ 4 := Nat.mul_le_mul_right _ (by norm_num)
    exact_mod_cast e
  have hcoef : (16 * (4 * dd ^ 2 * (8 * dd ^ 2 * f.total ^ 2) + 4 * r ^ 2 * dd ^ 2) : ℝ) ≤ 2 ^ 38 * f.bulk ^ 4 := by
    have e : 16 * (4 * dd ^ 2 * (8 * dd ^ 2 * f.total ^ 2) + 4 * r ^ 2 * dd ^ 2) ≤ 2 ^ 38 * f.bulk ^ 4 := by
      calc _ = 512 * (dd ^ 2 * (f.total * dd) ^ 2) + 64 * (r * dd) ^ 2 := by ring
        _ ≤ 512 * (f.bulk ^ 2 * f.bulk ^ 2) + 64 * (2 ^ 14 * f.bulk) ^ 2 := by gcongr
        _ = 512 * f.bulk ^ 4 + 2 ^ 34 * f.bulk ^ 2 := by ring
        _ ≤ 512 * f.bulk ^ 4 + 2 ^ 34 * f.bulk ^ 4 := Nat.add_le_add_left (Nat.mul_le_mul_left _ (sq_le_four _)) _
        _ = (512 + 2 ^ 34) * f.bulk ^ 4 := by ring
        _ ≤ _ := Nat.mul_le_mul_right _ (by norm_num)
    exact_mod_cast e
  have hw0 : (0 : ℝ) ≤ powerWidth (lastPrecision f) f := Nat.cast_nonneg _
  have hz := eq_zero_of_small f hf hcV hbound (by
    rw [abs_of_pos (by linarith)]
    calc 16 * V * 16 ^ lastPrecision f = 16 * (16 ^ lastPrecision f * V) := by ring
      _ ≤ 16 * (powerWidth (lastPrecision f) f * (4 * dd ^ 2 * W + 4 * r ^ 2 * dd ^ 2)) := by linarith
      _ ≤ 16 * (powerWidth (lastPrecision f) f * (4 * dd ^ 2 * (8 * dd ^ 2 * f.total ^ 2) + 4 * r ^ 2 * dd ^ 2)) := by gcongr
      _ = (16 * (4 * dd ^ 2 * (8 * dd ^ 2 * f.total ^ 2) + 4 * r ^ 2 * dd ^ 2)) * powerWidth (lastPrecision f) f := by ring
      _ ≤ _ := mul_le_mul_of_nonneg_right hcoef hw0)
  linarith

/-- The ends of w at scale 16^q hold w. -/
theorem gap_bounds {T uj uk dd r : ℝ} {jlo jhi klo khi w : ℝ} (a1 : jlo ≤ T * uj) (a2 : T * uj ≤ jhi)
    (a3 : jhi - jlo ≤ w) (b1 : klo ≤ T * uk) (b2 : T * uk ≤ khi) (b3 : khi - klo ≤ w) :
    dd ^ 2 * jlo - (dd ^ 2 * khi + r ^ 2 * T) ≤ T * (dd ^ 2 * (uj - uk) - r ^ 2) ∧
    T * (dd ^ 2 * (uj - uk) - r ^ 2) ≤ dd ^ 2 * jhi - (dd ^ 2 * klo + r ^ 2 * T) ∧
    dd ^ 2 * jhi - (dd ^ 2 * klo + r ^ 2 * T) - (dd ^ 2 * jlo - (dd ^ 2 * khi + r ^ 2 * T)) ≤ 2 * dd ^ 2 * w := by
  have hd : 0 ≤ dd ^ 2 := sq_nonneg _
  have h1 := mul_le_mul_of_nonneg_left a1 hd
  have h2 := mul_le_mul_of_nonneg_left a2 hd
  have h3 := mul_le_mul_of_nonneg_left a3 hd
  have h4 := mul_le_mul_of_nonneg_left b1 hd
  have h5 := mul_le_mul_of_nonneg_left b2 hd
  have h6 := mul_le_mul_of_nonneg_left b3 hd
  refine ⟨?_, ?_, ?_⟩ <;> nlinarith

/-- From the ends of w² − c·u to its size. -/
theorem gap_sq_bound {T W C u wLo khi klo w D : ℝ} (hT : 0 < T) (hW : 0 < W) (hC : 0 ≤ C) (hl : 0 < wLo) (hLo : wLo ≤ T * W)
    (s1 : T * W - wLo ≤ 2 * D * w) (b1 : klo ≤ T * u) (b2 : khi - klo ≤ w) (g : wLo ^ 2 ≤ C * T * khi) (hD : 0 ≤ 2 * D * w) :
    T * (W ^ 2 - C * u) ≤ w * (4 * D * W + C) := by
  have s2 : (T * W) ^ 2 - wLo ^ 2 ≤ (2 * D * w) * (2 * (T * W)) := by
    have : (T * W) ^ 2 - wLo ^ 2 = (T * W - wLo) * (T * W + wLo) := by ring
    rw [this]
    exact mul_le_mul s1 (by linarith) (by positivity) hD
  have s3 : (C * T) * (khi - T * u) ≤ (C * T) * w := mul_le_mul_of_nonneg_left (by linarith) (by positivity)
  have : T * (T * (W ^ 2 - C * u)) ≤ T * (w * (4 * D * W + C)) := by nlinarith
  exact le_of_mul_le_mul_left this hT

/-- The test A[j] ≤ A[k] + δ is right wherever it is settled. -/
theorem within_sound (f : Frame) (hf : f.Complete) (q : ℕ) (hq : 12 ≤ q) (final : Bool)
    (hfin : final = true → q = lastPrecision f) (j k : ℕ) (hj : j ≤ f.cfg.lastBin) (hk : k ≤ f.cfg.lastBin) {b : Bool}
    (h : within q final f (power (powers q f) j) (power (powers q f) k) = some b) :
    b = true ↔ f.amplitude j ≤ f.amplitude k + f.tolQuotient := by
  rw [amplitude_le_add_iff f hf.1]
  obtain ⟨a1, a2, a3⟩ := power_sound q hq f hf j hj
  obtain ⟨b1, b2, b3⟩ := power_sound q hq f hf k hk
  obtain ⟨_, m2, m3, m4, m5, _⟩ := f.le_bulk
  have hrm : 2 ^ 14 * f.cfg.windowDiv * f.cfg.estTolNum ≤ 2 ^ 14 * f.bulk := by
    rw [mul_assoc]; exact Nat.mul_le_mul_left _ m5
  have hrd : 2 ^ 14 * f.cfg.windowDiv * f.cfg.estTolNum * f.cfg.estTolDen ≤ 2 ^ 14 * f.bulk := by
    rw [mul_assoc, mul_assoc, ← mul_assoc f.cfg.windowDiv]; exact Nat.mul_le_mul_left _ m4
  unfold within at h
  simp only at h
  generalize power (powers q f) j = pj at *
  generalize power (powers q f) k = pk at *
  generalize 2 ^ 14 * f.cfg.windowDiv * f.cfg.estTolNum = r at *
  generalize f.cfg.estTolDen = dd at *
  have hT : (0 : ℝ) < 16 ^ q := by positivity
  obtain ⟨hLo, hHi, hwid⟩ := gap_bounds (dd := dd) (r := r) a1 a2 a3 b1 b2 b3
  have eLo : ((dd ^ 2 * pj.lo : ℕ) - ((dd ^ 2 * pk.hi + r ^ 2 * 16 ^ q : ℕ) : ℤ) : ℤ)
      = (((dd : ℝ) ^ 2 * pj.lo - (dd ^ 2 * pk.hi + r ^ 2 * 16 ^ q) : ℝ)) := by push_cast; ring
  have eHi : ((dd ^ 2 * pj.hi : ℕ) - ((dd ^ 2 * pk.lo + r ^ 2 * 16 ^ q : ℕ) : ℤ) : ℤ)
      = (((dd : ℝ) ^ 2 * pj.hi - (dd ^ 2 * pk.lo + r ^ 2 * 16 ^ q) : ℝ)) := by push_cast; ring
  rw [← eLo] at hLo hwid
  rw [← eHi] at hHi hwid
  generalize ((dd ^ 2 * pj.lo : ℕ) - ((dd ^ 2 * pk.hi + r ^ 2 * 16 ^ q : ℕ) : ℤ) : ℤ) = wLo at *
  generalize ((dd ^ 2 * pj.hi : ℕ) - ((dd ^ 2 * pk.lo + r ^ 2 * 16 ^ q : ℕ) : ℤ) : ℤ) = wHi at *
  clear eLo eHi
  have hu : 0 ≤ f.u k := f.u_nonneg k
  obtain ⟨W, hW⟩ : ∃ W : ℝ, W = (dd : ℝ) ^ 2 * (f.u j - f.u k) - (r : ℝ) ^ 2 := ⟨_, rfl⟩
  rw [← hW] at hLo hHi ⊢
  obtain ⟨C, hC⟩ : ∃ C : ℝ, C = 4 * (r : ℝ) ^ 2 * dd ^ 2 := ⟨_, rfl⟩
  have hC0 : 0 ≤ C := by rw [hC]; positivity
  have cC : ∀ x : ℕ, ((4 * r ^ 2 * dd ^ 2 * 16 ^ q * x : ℕ) : ℝ) = C * 16 ^ q * x := fun x => by rw [hC]; push_cast; ring
  rw [← hC]
  split_ifs at h with g1 g2 g3
  · obtain rfl := Option.some.inj h
    simp only [true_iff]
    rcases g1 with g | g
    · left
      have : (wHi : ℝ) ≤ 0 := by exact_mod_cast g
      by_contra hn
      have := mul_pos hT (not_le.mp hn)
      linarith
    · rcases le_total W 0 with h0 | h0
      · exact Or.inl h0
      · right
        have g' : (wHi : ℝ) ^ 2 ≤ C * 16 ^ q * pk.lo := by rw [← cC]; exact_mod_cast g
        have h1 : (16 ^ q * W) ^ 2 ≤ (wHi : ℝ) ^ 2 := pow_le_pow_left₀ (by positivity) hHi 2
        have h2 : C * 16 ^ q * pk.lo ≤ C * 16 ^ q * (16 ^ q * f.u k) := mul_le_mul_of_nonneg_left b1 (by positivity)
        have h3 : (16 ^ q) ^ 2 * W ^ 2 ≤ (16 ^ q) ^ 2 * (C * f.u k) := by
          rw [← mul_pow]; exact h1.trans (g'.trans (h2.trans (le_of_eq (by ring))))
        exact le_of_mul_le_mul_left h3 (by positivity)
  · obtain rfl := Option.some.inj h
    simp only [Bool.false_eq_true, false_iff, not_or, not_le]
    have gl : (0 : ℝ) < wLo := by exact_mod_cast g2.1
    have g' : C * 16 ^ q * pk.hi < (wLo : ℝ) ^ 2 := by rw [← cC]; exact_mod_cast g2.2
    refine ⟨pos_of_mul_pos_right (gl.trans_le hLo) hT.le, ?_⟩
    have h1 : (wLo : ℝ) ^ 2 ≤ (16 ^ q * W) ^ 2 := pow_le_pow_left₀ gl.le hLo 2
    have h2 : C * 16 ^ q * (16 ^ q * f.u k) ≤ C * 16 ^ q * pk.hi := mul_le_mul_of_nonneg_left b2 (by positivity)
    have h3 : (16 ^ q) ^ 2 * (C * f.u k) < (16 ^ q) ^ 2 * W ^ 2 := by
      rw [← mul_pow]; exact lt_of_lt_of_le (lt_of_le_of_lt (le_of_eq (by ring)) (lt_of_le_of_lt h2 g')) h1
    exact lt_of_mul_lt_mul_left h3 (by positivity)
  · obtain rfl := Option.some.inj h
    obtain rfl := hfin g3
    simp only [true_iff]
    by_contra hcon
    simp only [not_or, not_le] at hcon g1
    obtain ⟨hWpos, hV⟩ := hcon
    rcases le_or_gt wLo 0 with hl | hl
    · have hl' : (wLo : ℝ) ≤ 0 := by exact_mod_cast hl
      exact gap_not_small f hf j k r dd m2 m3 hrm hW hWpos (by linarith)
    · have hl' : (0 : ℝ) < wLo := by exact_mod_cast hl
      have g2' : (wLo : ℝ) ^ 2 ≤ C * 16 ^ lastPrecision f * pk.hi := by
        have := not_and.mp g2 hl
        rw [← cC]; exact_mod_cast not_lt.mp this
      refine gap_sq_not_small f hf j k r dd m2 m3 hrm hrd hW (by rw [← hC]; linarith) ?_
      rw [← hC]
      exact gap_sq_bound hT hWpos hC0 hl' hLo (by linarith) b1 b3 g2' (by positivity)

theorem within_final (f : Frame) (q : ℕ) (pj pk : Ival) : within q true f pj pk ≠ none := by
  unfold within; simp only; split_ifs <;> simp

/-- A conjunction of right tests is right wherever it is settled. -/
theorem allSettled_sound {α : Type} (l : List α) (t : α → Option Bool) (P : α → Prop)
    (h : ∀ x ∈ l, ∀ b, t x = some b → (b = true ↔ P x)) {b : Bool} (hb : allSettled (l.map t) = some b) :
    b = true ↔ ∀ x ∈ l, P x := by
  induction l with
  | nil => simp [allSettled] at hb; simp [← hb]
  | cons a l ih =>
    rw [List.map_cons] at hb
    have ha := h a List.mem_cons_self
    rcases ht : t a with _ | _ | _
    · rw [ht] at hb; simp [allSettled] at hb
    · rw [ht] at hb
      simp only [allSettled, Option.some.injEq] at hb
      have : ¬ P a := fun hp => by simpa using (ha false ht).mpr hp
      rw [← hb]
      simp only [Bool.false_eq_true, false_iff]
      exact fun hall => this (hall a List.mem_cons_self)
    · rw [ht] at hb
      simp only [allSettled] at hb
      have hp : P a := (ha true ht).mp rfl
      rw [ih (fun x hx => h x (List.mem_cons_of_mem _ hx)) hb]
      simp [hp]

theorem allSettled_final {α : Type} (l : List α) (t : α → Option Bool) (h : ∀ x ∈ l, t x ≠ none) : allSettled (l.map t) ≠ none := by
  induction l with
  | nil => simp [allSettled]
  | cons a l ih =>
    rw [List.map_cons]
    rcases ht : t a with _ | _ | _
    · exact absurd ht (h a List.mem_cons_self)
    · simp [allSettled]
    · simp only [allSettled]; exact ih fun x hx => h x (List.mem_cons_of_mem _ hx)

/-- A[k] ≥ Amax − δ, wherever it is settled. -/
theorem nearPeak_sound (f : Frame) (hf : f.Complete) (q : ℕ) (hq : 12 ≤ q) (final : Bool)
    (hfin : final = true → q = lastPrecision f) (k : ℕ) (hk : k ≤ f.cfg.lastBin) {b : Bool}
    (h : nearPeak q final f (powers q f) k = some b) : b = true ↔ f.amplitude k ≥ f.amplitude f.kStar - f.tolQuotient := by
  obtain ⟨hk1, hk2, _⟩ := kStar_spec f hf.1
  have hamp : ∀ j ≤ f.cfg.lastBin, f.amplitude j ≤ f.amplitude f.kStar := by
    intro j hj
    have hm := (f.magnitude_le_iff hf.1 j f.kStar).mpr (hk2 j hj)
    rw [Frame.amplitude, Frame.amplitude, windowSum_eq f.cfg hf.1]
    gcongr
  unfold nearPeak at h
  rw [powers_eq_map q f, List.map_map, ← powers_eq_map q f] at h
  rw [allSettled_sound (List.range (f.cfg.lastBin + 1)) _ (fun j => f.amplitude j ≤ f.amplitude k + f.tolQuotient)
    (fun j hj b hb => within_sound f hf q hq final hfin j k (by have := List.mem_range.mp hj; omega) hk hb) h]
  constructor
  · intro hall
    have := hall f.kStar (List.mem_range.mpr (by omega))
    linarith
  · intro hge j hj
    have := hamp j (by have := List.mem_range.mp hj; omega)
    linarith

theorem nearPeak_final (f : Frame) (q : ℕ) (ps : List Ival) (k : ℕ) : nearPeak q true f ps k ≠ none :=
  allSettled_final _ _ fun _ _ => within_final _ _ _ _

theorem tau_add_delta (f : Frame) (hc : f.cfg.Legal) : f.tau + f.tolQuotient = (tauPlus f : ℝ) / (2 ^ 32 * f.cfg.estTolDen) := by
  have hdd : (0 : ℝ) < f.cfg.estTolDen := by exact_mod_cast hc.2.2.2.2.2.1
  rw [Frame.tau, Frame.tolQuotient, tauPlus]; push_cast; field_simp; norm_num; ring

theorem amplitude_nonneg (f : Frame) (hc : f.cfg.Legal) (k : ℕ) : 0 ≤ f.amplitude k := by
  rw [f.amplitude_eq hc]; positivity

theorem tau_sub_delta (f : Frame) (hc : f.cfg.Legal) (k : ℕ) :
    f.amplitude k < (tauMinus f : ℝ) / (2 ^ 32 * f.cfg.estTolDen) ↔ ¬ f.amplitude k ≥ f.tau - f.tolQuotient := by
  have hdd : (0 : ℝ) < f.cfg.estTolDen := by exact_mod_cast hc.2.2.2.2.2.1
  have e : f.tau - f.tolQuotient = ((f.ethresh * f.cfg.estTolDen : ℕ) - (f.cfg.estTolNum * 2 ^ 32 : ℕ) : ℝ) / (2 ^ 32 * f.cfg.estTolDen) := by
    rw [Frame.tau, Frame.tolQuotient]; push_cast; field_simp; norm_num; ring
  rw [not_le, e, tauMinus]
  rcases le_total (f.cfg.estTolNum * 2 ^ 32) (f.ethresh * f.cfg.estTolDen) with h | h
  · rw [Nat.cast_sub h]
  · rw [Nat.sub_eq_zero_of_le h, Nat.cast_zero, zero_div]
    have hle : ((f.ethresh * f.cfg.estTolDen : ℕ) - (f.cfg.estTolNum * 2 ^ 32 : ℕ) : ℝ) / (2 ^ 32 * f.cfg.estTolDen) ≤ 0 := by
      apply div_nonpos_of_nonpos_of_nonneg _ (by positivity)
      have : ((f.ethresh * f.cfg.estTolDen : ℕ) : ℝ) ≤ (f.cfg.estTolNum * 2 ^ 32 : ℕ) := by exact_mod_cast h
      linarith
    have := amplitude_nonneg f hc k
    constructor <;> intro h' <;> linarith

theorem tau_bounds (f : Frame) : f.cfg.windowDiv * tauPlus f ≤ 2 ^ 33 * f.bulk ∧ f.cfg.windowDiv * tauMinus f ≤ 2 ^ 33 * f.bulk := by
  obtain ⟨_, _, _, _, h5, h6⟩ := f.le_bulk
  constructor
  · unfold tauPlus
    calc f.cfg.windowDiv * (f.ethresh * f.cfg.estTolDen + f.cfg.estTolNum * 2 ^ 32)
        = f.cfg.windowDiv * (f.ethresh * f.cfg.estTolDen) + 2 ^ 32 * (f.cfg.windowDiv * f.cfg.estTolNum) := by ring
      _ ≤ f.bulk + 2 ^ 32 * f.bulk := by gcongr
      _ ≤ _ := by omega
  · unfold tauMinus
    calc f.cfg.windowDiv * (f.ethresh * f.cfg.estTolDen - f.cfg.estTolNum * 2 ^ 32)
        ≤ f.cfg.windowDiv * (f.ethresh * f.cfg.estTolDen) := Nat.mul_le_mul_left _ (Nat.sub_le _ _)
      _ ≤ f.bulk := h6
      _ ≤ _ := by omega

theorem admitsAt_silent (f : Frame) (q : ℕ) (final : Bool) : admitsAt f .silent q final =
    (allSettled ((powers q f).map (below q final f (tauPlus f) f.cfg.estTolDen))).bind fun b =>
      if b then some true else nearPeak q final f (powers q f) 0 := rfl

theorem admitsAt_bin (f : Frame) (k q : ℕ) (final : Bool) : admitsAt f (.bin k) q final =
    if 1 ≤ k ∧ k ≤ f.cfg.lastBin then
      (below q final f (tauMinus f) f.cfg.estTolDen (power (powers q f) k)).bind fun b =>
        if b then some false else nearPeak q final f (powers q f) k
    else some false := rfl

theorem admitsAt_silent_sound (f : Frame) (hf : f.Complete) (q : ℕ) (hq : 12 ≤ q) (final : Bool)
    (hfin : final = true → q = lastPrecision f) {b : Bool} (h : admitsAt f .silent q final = some b) : b = true ↔ f.AdmWithin f.tolQuotient .silent := by
  obtain ⟨hk1, hk2, _⟩ := kStar_spec f hf.1
  have hdd : 0 < f.cfg.estTolDen := hf.1.2.2.2.2.2.1
  obtain ⟨_, m2, m3, _, _, _⟩ := f.le_bulk
  obtain ⟨tp, tm⟩ := tau_bounds f
  have hamp : ∀ j ≤ f.cfg.lastBin, f.amplitude j ≤ f.amplitude f.kStar := by
    intro j hj
    have hm := (f.magnitude_le_iff hf.1 j f.kStar).mpr (hk2 j hj)
    rw [Frame.amplitude, Frame.amplitude, windowSum_eq f.cfg hf.1]
    gcongr
  rw [admitsAt_silent] at h
  obtain ⟨b0, ha, h⟩ := Option.bind_eq_some_iff.mp h
  rw [powers_eq_map q f, List.map_map, Function.comp_def] at ha
  have hs := allSettled_sound (List.range (f.cfg.lastBin + 1)) _ (fun j => f.amplitude j < f.tau + f.tolQuotient)
    (fun j hj b hb => by
      rw [tau_add_delta f hf.1]
      exact below_sound f hf q hq final j _ _ (by have := List.mem_range.mp hj; omega) hdd hfin m2 m3 tp hb) ha
  have hiff : (∀ j ∈ List.range (f.cfg.lastBin + 1), f.amplitude j < f.tau + f.tolQuotient) ↔ f.amplitude f.kStar < f.tau + f.tolQuotient := by
    constructor
    · exact fun hall => hall _ (List.mem_range.mpr (by omega))
    · exact fun hlt j hj => lt_of_le_of_lt (hamp j (by have := List.mem_range.mp hj; omega)) hlt
  rw [hiff] at hs
  cases b0 with
  | true =>
    rw [if_pos rfl, Option.some.injEq] at h
    rw [← h]
    simp only [true_iff]
    exact Or.inl (hs.mp rfl)
  | false =>
    rw [if_neg (by simp)] at h
    rw [nearPeak_sound f hf q hq final hfin 0 (Nat.zero_le _) h, Frame.AdmWithin]
    refine ⟨Or.inr, ?_⟩
    rintro (h1 | h1)
    · exact absurd (hs.mpr h1) (by simp)
    · exact h1

theorem admitsAt_bin_sound (f : Frame) (hf : f.Complete) (k : ℕ) (q : ℕ) (hq : 12 ≤ q) (final : Bool)
    (hfin : final = true → q = lastPrecision f) {b : Bool} (h : admitsAt f (.bin k) q final = some b) : b = true ↔ f.AdmWithin f.tolQuotient (.bin k) := by
  obtain ⟨hk1, hk2, _⟩ := kStar_spec f hf.1
  have hdd : 0 < f.cfg.estTolDen := hf.1.2.2.2.2.2.1
  obtain ⟨_, m2, m3, _, _, _⟩ := f.le_bulk
  obtain ⟨tp, tm⟩ := tau_bounds f
  have hamp : ∀ j ≤ f.cfg.lastBin, f.amplitude j ≤ f.amplitude f.kStar := by
    intro j hj
    have hm := (f.magnitude_le_iff hf.1 j f.kStar).mpr (hk2 j hj)
    rw [Frame.amplitude, Frame.amplitude, windowSum_eq f.cfg hf.1]
    gcongr
  rw [admitsAt_bin] at h
  split_ifs at h with hr
  · obtain ⟨b0, hb, h⟩ := Option.bind_eq_some_iff.mp h
    have hs := below_sound f hf q hq final k _ _ hr.2 hdd hfin m2 m3 tm hb
    rw [tau_sub_delta f hf.1] at hs
    cases b0 with
    | true =>
      rw [if_pos rfl, Option.some.injEq] at h
      rw [← h]
      simp only [Bool.false_eq_true, false_iff, Frame.AdmWithin]
      exact fun hA => (hs.mp rfl) hA.2.2
    | false =>
      rw [if_neg (by simp)] at h
      have hge : f.amplitude k ≥ f.tau - f.tolQuotient := by
        by_contra hn
        exact absurd (hs.mpr hn) (by simp)
      rw [nearPeak_sound f hf q hq final hfin k hr.2 h, Frame.AdmWithin]
      exact ⟨fun h1 => ⟨hr, h1, hge⟩, fun h1 => h1.2.1⟩
  · simp only [Option.some.injEq] at h
    rw [← h]
    simp only [Bool.false_eq_true, false_iff, Frame.AdmWithin]
    exact fun hA => hr hA.1


/-- Membership in the admissible set is right wherever it is settled. -/
theorem admitsAt_sound (f : Frame) (hf : f.Complete) (e : Est) (q : ℕ) (hq : 12 ≤ q) (final : Bool)
    (hfin : final = true → q = lastPrecision f) {b : Bool} (h : admitsAt f e q final = some b) : b = true ↔ f.AdmWithin f.tolQuotient e :=
  match e with
  | .silent => admitsAt_silent_sound f hf q hq final hfin h
  | .bin k => admitsAt_bin_sound f hf k q hq final hfin h

theorem admitsAt_final (f : Frame) (e : Est) (q : ℕ) : admitsAt f e q true ≠ none := by
  cases e with
  | silent =>
    obtain ⟨b, hb⟩ := Option.ne_none_iff_exists'.mp (allSettled_final (powers q f)
      (below q true f (tauPlus f) f.cfg.estTolDen) fun _ _ => below_final _ _ _ _ _)
    rw [admitsAt_silent, hb, Option.bind_some]
    split_ifs
    · simp
    · exact nearPeak_final _ _ _ _
  | bin k =>
    obtain ⟨b, hb⟩ := Option.ne_none_iff_exists'.mp
      (below_final f q (tauMinus f) f.cfg.estTolDen (power (powers q f) k))
    rw [admitsAt_bin, hb, Option.bind_some]
    split_ifs
    · simp
    · exact nearPeak_final _ _ _ _
    · simp

/-- THE COMPUTED MEMBERSHIP IS THE REFERENCE'S: `Adm(FB)` of R117. -/
theorem admissible_iff_admWithin (f : Frame) (hf : f.Complete) (e : Est) : admissible f e = true ↔ f.AdmWithin f.tolQuotient e := by
  classical
  unfold admissible
  rw [settle_sound f (admitsAt f e) (decide (f.AdmWithin f.tolQuotient e)) (fun q final hq hfin b hb => by
    have := admitsAt_sound f hf e q hq final hfin hb
    cases b
    · simp only [Bool.false_eq_true, false_iff] at this; simp [this]
    · simp only [true_iff] at this; simp [this]) (admitsAt_final f e _)]
  simp

/-- The reference outcome lies in the admissible set, whatever the tolerance (R117). -/
theorem est_mem_admWithin (f : Frame) (hf : f.Complete) {δ : ℝ} (hδ : 0 ≤ δ) : f.AdmWithin δ f.est := by
  obtain ⟨hk1, _, _⟩ := kStar_spec f hf.1
  unfold Frame.est
  split_ifs with h
  · rw [Frame.AdmWithin]
    rcases h with h | h
    · left; linarith
    · right; rw [h]; linarith
  · rw [Frame.Silent, not_or, not_lt] at h
    exact ⟨⟨by omega, hk1⟩, by linarith, by linarith [h.1]⟩

end Sys2Proof.Machine
end

