-- ==== Sys2Proof/Laws/Memory.lean ====
section
/-! SUPPORT. The frame buffer: every write keeps the canonical form; a read gives what was written last. -/

namespace Sys2Proof.Machine

theorem Memory.wfAbove_cons (lo k : Nat) (v : Sample) (rest : Memory) :
    Memory.wfAbove lo ((k, v) :: rest) = true ↔ lo < k ∧ v ≠ 0 ∧ Memory.wfAbove k rest = true := by
  simp [Memory.wfAbove, and_assoc]

theorem Memory.wf_cons (k : Nat) (v : Sample) (rest : Memory) :
    Memory.wf ((k, v) :: rest) = true ↔ v ≠ 0 ∧ Memory.wfAbove k rest = true := by
  simp [Memory.wf]

theorem Memory.wfAbove_mono {lo lo' : Nat} (h : lo' ≤ lo) {m : Memory} (hm : Memory.wfAbove lo m = true) :
    Memory.wfAbove lo' m = true := by
  cases m with
  | nil => rfl
  | cons p rest =>
    obtain ⟨k, v⟩ := p
    rw [Memory.wfAbove_cons] at hm ⊢
    exact ⟨by omega, hm.2⟩

/-- Nothing is listed at or below the bound of a list. -/
theorem Memory.read_of_wfAbove {lo i : Nat} {m : Memory} (hm : Memory.wfAbove lo m = true) (hi : i ≤ lo) : m.read i = 0 := by
  induction m generalizing lo with
  | nil => rfl
  | cons p rest ih =>
    obtain ⟨k, v⟩ := p
    rw [Memory.wfAbove_cons] at hm
    rw [Memory.read, if_neg (by omega)]
    exact ih hm.2.2 (by omega)

theorem Memory.wfAbove_write {lo i : Nat} (v : Sample) {m : Memory} (hm : Memory.wfAbove lo m = true) (hi : lo < i) :
    Memory.wfAbove lo (m.write i v) = true := by
  induction m generalizing lo with
  | nil =>
    unfold Memory.write
    split
    · rfl
    · rw [Memory.wfAbove_cons]; exact ⟨hi, ‹_›, rfl⟩
  | cons p rest ih =>
    obtain ⟨k, w⟩ := p
    obtain ⟨h1, h2, h3⟩ := (Memory.wfAbove_cons lo k w rest).mp hm
    unfold Memory.write
    split_ifs with c1 c2 c3 c4
    · exact hm
    · rw [Memory.wfAbove_cons, Memory.wfAbove_cons]; exact ⟨hi, c2, c1, h2, h3⟩
    · exact Memory.wfAbove_mono h1.le h3
    · rw [Memory.wfAbove_cons]; exact ⟨hi, c4, c3 ▸ h3⟩
    · rw [Memory.wfAbove_cons]; exact ⟨h1, h2, ih h3 (by omega)⟩

/-- Every write keeps the canonical form. -/
theorem Memory.wf_write (i : Nat) (v : Sample) {m : Memory} (hm : m.wf = true) : (m.write i v).wf = true := by
  cases m with
  | nil => unfold Memory.write; split <;> simp_all [Memory.wf, Memory.wfAbove]
  | cons p rest =>
    obtain ⟨k, w⟩ := p
    obtain ⟨h2, h3⟩ := (Memory.wf_cons k w rest).mp hm
    unfold Memory.write
    split_ifs with c1 c2 c3 c4
    · exact hm
    · rw [Memory.wf_cons, Memory.wfAbove_cons]; exact ⟨c2, c1, h2, h3⟩
    · cases rest with
      | nil => rfl
      | cons p' rest' =>
        obtain ⟨k', v'⟩ := p'
        rw [Memory.wfAbove_cons] at h3
        rw [Memory.wf_cons]; exact h3.2
    · rw [Memory.wf_cons]; exact ⟨c4, c3 ▸ h3⟩
    · rw [Memory.wf_cons]; exact ⟨h2, Memory.wfAbove_write v h3 (by omega)⟩

theorem Memory.read_write_above {lo : Nat} (i j : Nat) (v : Sample) {m : Memory} (hm : Memory.wfAbove lo m = true) :
    (m.write i v).read j = if j = i then v else m.read j := by
  induction m generalizing lo with
  | nil =>
    unfold Memory.write
    by_cases hv : v = 0
    · rw [if_pos hv]; simp [Memory.read, hv]
    · rw [if_neg hv]; simp [Memory.read, eq_comm]
  | cons p rest ih =>
    obtain ⟨k, w⟩ := p
    obtain ⟨h1, h2, h3⟩ := (Memory.wfAbove_cons lo k w rest).mp hm
    rcases lt_trichotomy i k with c | c | c
    · have h0 : Memory.read ((k, w) :: rest) i = 0 := by
        rw [Memory.read, if_neg (by omega)]; exact Memory.read_of_wfAbove h3 (by omega)
      by_cases hv : v = 0
      · rw [Memory.write, if_pos c, if_pos hv]
        by_cases hj : j = i
        · rw [if_pos hj, hj, h0, hv]
        · rw [if_neg hj]
      · rw [Memory.write, if_pos c, if_neg hv]
        by_cases hj : j = i
        · rw [if_pos hj, hj, Memory.read, if_pos rfl]
        · rw [if_neg hj, Memory.read, if_neg (Ne.symm hj)]
    · subst c
      have h0 : Memory.read rest i = 0 := Memory.read_of_wfAbove h3 le_rfl
      by_cases hv : v = 0
      · rw [Memory.write, if_neg (lt_irrefl _), if_pos rfl, if_pos hv]
        by_cases hj : j = i
        · rw [if_pos hj, hj, h0, hv]
        · rw [if_neg hj, Memory.read, if_neg (Ne.symm hj)]
      · rw [Memory.write, if_neg (lt_irrefl _), if_pos rfl, if_neg hv]
        by_cases hj : j = i
        · rw [if_pos hj, hj, Memory.read, if_pos rfl]
        · rw [if_neg hj, Memory.read, if_neg (Ne.symm hj), Memory.read, if_neg (Ne.symm hj)]
    · rw [Memory.write, if_neg (by omega), if_neg (by omega), Memory.read, ih h3, Memory.read]
      split_ifs <;> first | rfl | omega

/-- A read gives what was written there last, and every other index is unchanged. -/
theorem Memory.read_write (i j : Nat) (v : Sample) {m : Memory} (hm : m.wf = true) :
    (m.write i v).read j = if j = i then v else m.read j := by
  cases m with
  | nil => exact Memory.read_write_above (lo := 0) i j v rfl
  | cons p rest =>
    obtain ⟨k, w⟩ := p
    obtain ⟨h2, h3⟩ := (Memory.wf_cons k w rest).mp hm
    rcases Nat.eq_zero_or_pos k with hk | hk
    · subst hk
      unfold Memory.write
      rcases Nat.eq_zero_or_pos i with hi | hi
      · subst hi
        have h0 : Memory.read rest 0 = 0 := Memory.read_of_wfAbove h3 le_rfl
        rw [if_neg (lt_irrefl _), if_pos rfl]
        by_cases hv : v = 0
        · rw [if_pos hv]
          by_cases hj : j = 0
          · rw [if_pos hj, hj, h0, hv]
          · rw [if_neg hj, Memory.read, if_neg (Ne.symm hj)]
        · rw [if_neg hv]
          by_cases hj : j = 0
          · rw [if_pos hj, hj, Memory.read, if_pos rfl]
          · rw [if_neg hj, Memory.read, if_neg (Ne.symm hj), Memory.read, if_neg (Ne.symm hj)]
      · rw [if_neg (by omega), if_neg (by omega), Memory.read, Memory.read, Memory.read_write_above i j v h3]
        split_ifs <;> first | rfl | omega
    · exact Memory.read_write_above (lo := 0) i j v (by rw [Memory.wfAbove_cons]; exact ⟨hk, h2, h3⟩)

/-- Every write lists nothing but the index it writes and what was listed. -/
theorem Memory.mem_write {i : Nat} {v : Sample} {m : Memory} {p : Nat × Sample} (hp : p ∈ m.write i v) :
    p.1 = i ∨ p ∈ m := by
  induction m with
  | nil =>
    unfold Memory.write at hp
    split at hp
    · exact absurd hp (by simp)
    · left; simp at hp; rw [hp]
  | cons q rest ih =>
    obtain ⟨k, w⟩ := q
    unfold Memory.write at hp
    split_ifs at hp with c1 c2 c3 c4
    · exact Or.inr hp
    · rcases List.mem_cons.mp hp with rfl | h
      · exact Or.inl rfl
      · exact Or.inr h
    · exact Or.inr (List.mem_cons_of_mem _ hp)
    · rcases List.mem_cons.mp hp with rfl | h
      · exact Or.inl rfl
      · exact Or.inr (List.mem_cons_of_mem _ h)
    · rcases List.mem_cons.mp hp with rfl | h
      · exact Or.inr List.mem_cons_self
      · exact (ih h).imp id (List.mem_cons_of_mem _)

end Sys2Proof.Machine
end

