-- ==== Sys2Proof/Laws/State.lean ====
section
/-! SUPPORT. What each named update does to each field of the state, so that no proof unfolds a record update. -/

namespace Sys2Proof.Machine

/-! ## respond -/

@[simp] theorem respond_session (code : RespCode) (data : RegWord) (s : State) : (respond code data s).session = s.session := rfl
@[simp] theorem respond_mode (code : RespCode) (data : RegWord) (s : State) : (respond code data s).mode = s.mode := rfl
@[simp] theorem respond_policy (code : RespCode) (data : RegWord) (s : State) : (respond code data s).policy = s.policy := rfl
@[simp] theorem respond_repeatT (code : RespCode) (data : RegWord) (s : State) : (respond code data s).repeatT = s.repeatT := rfl
@[simp] theorem respond_ethresh (code : RespCode) (data : RegWord) (s : State) : (respond code data s).ethresh = s.ethresh := rfl
@[simp] theorem respond_lastSymV (code : RespCode) (data : RegWord) (s : State) : (respond code data s).lastSymV = s.lastSymV := rfl
@[simp] theorem respond_lastSym (code : RespCode) (data : RegWord) (s : State) : (respond code data s).lastSym = s.lastSym := rfl
@[simp] theorem respond_rptCnt (code : RespCode) (data : RegWord) (s : State) : (respond code data s).rptCnt = s.rptCnt := rfl
@[simp] theorem respond_lastOutV (code : RespCode) (data : RegWord) (s : State) : (respond code data s).lastOutV = s.lastOutV := rfl
@[simp] theorem respond_lastOut (code : RespCode) (data : RegWord) (s : State) : (respond code data s).lastOut = s.lastOut := rfl
@[simp] theorem respond_pbits (code : RespCode) (data : RegWord) (s : State) : (respond code data s).pbits = s.pbits := rfl
@[simp] theorem respond_pcnt (code : RespCode) (data : RegWord) (s : State) : (respond code data s).pcnt = s.pcnt := rfl
@[simp] theorem respond_evalid (code : RespCode) (data : RegWord) (s : State) : (respond code data s).evalid = s.evalid := rfl
@[simp] theorem respond_esilent (code : RespCode) (data : RegWord) (s : State) : (respond code data s).esilent = s.esilent := rfl
@[simp] theorem respond_ebin (code : RespCode) (data : RegWord) (s : State) : (respond code data s).ebin = s.ebin := rfl
@[simp] theorem respond_fill (code : RespCode) (data : RegWord) (s : State) : (respond code data s).fill = s.fill := rfl
@[simp] theorem respond_fFault (code : RespCode) (data : RegWord) (s : State) : (respond code data s).fFault = s.fFault := rfl
@[simp] theorem respond_fReject (code : RespCode) (data : RegWord) (s : State) : (respond code data s).fReject = s.fReject := rfl
@[simp] theorem respond_fIllegal (code : RespCode) (data : RegWord) (s : State) : (respond code data s).fIllegal = s.fIllegal := rfl
@[simp] theorem respond_fDropped (code : RespCode) (data : RegWord) (s : State) : (respond code data s).fDropped = s.fDropped := rfl
@[simp] theorem respond_fb (code : RespCode) (data : RegWord) (s : State) : (respond code data s).fb = s.fb := rfl
@[simp] theorem respond_out (code : RespCode) (data : RegWord) (s : State) : (respond code data s).out = s.out := rfl
@[simp] theorem respond_resp (code : RespCode) (data : RegWord) (s : State) : (respond code data s).resp = s.resp ++ [mkResponse code data] := rfl
@[simp] theorem respond_inp (code : RespCode) (data : RegWord) (s : State) : (respond code data s).inp = s.inp := rfl
@[simp] theorem respond_draws (code : RespCode) (data : RegWord) (s : State) : (respond code data s).draws = s.draws := rfl
@[simp] theorem respond_cfg (code : RespCode) (data : RegWord) (s : State) : (respond code data s).cfg = s.cfg := rfl

/-! ## emit -/

@[simp] theorem emit_session (kind : TokenKind) (value : BitVec 8) (s : State) : (emit kind value s).session = s.session := rfl
@[simp] theorem emit_mode (kind : TokenKind) (value : BitVec 8) (s : State) : (emit kind value s).mode = s.mode := rfl
@[simp] theorem emit_policy (kind : TokenKind) (value : BitVec 8) (s : State) : (emit kind value s).policy = s.policy := rfl
@[simp] theorem emit_repeatT (kind : TokenKind) (value : BitVec 8) (s : State) : (emit kind value s).repeatT = s.repeatT := rfl
@[simp] theorem emit_ethresh (kind : TokenKind) (value : BitVec 8) (s : State) : (emit kind value s).ethresh = s.ethresh := rfl
@[simp] theorem emit_lastSymV (kind : TokenKind) (value : BitVec 8) (s : State) : (emit kind value s).lastSymV = s.lastSymV := rfl
@[simp] theorem emit_lastSym (kind : TokenKind) (value : BitVec 8) (s : State) : (emit kind value s).lastSym = s.lastSym := rfl
@[simp] theorem emit_rptCnt (kind : TokenKind) (value : BitVec 8) (s : State) : (emit kind value s).rptCnt = s.rptCnt := rfl
@[simp] theorem emit_lastOutV (kind : TokenKind) (value : BitVec 8) (s : State) : (emit kind value s).lastOutV = s.lastOutV := rfl
@[simp] theorem emit_lastOut (kind : TokenKind) (value : BitVec 8) (s : State) : (emit kind value s).lastOut = s.lastOut := rfl
@[simp] theorem emit_pbits (kind : TokenKind) (value : BitVec 8) (s : State) : (emit kind value s).pbits = s.pbits := rfl
@[simp] theorem emit_pcnt (kind : TokenKind) (value : BitVec 8) (s : State) : (emit kind value s).pcnt = s.pcnt := rfl
@[simp] theorem emit_evalid (kind : TokenKind) (value : BitVec 8) (s : State) : (emit kind value s).evalid = s.evalid := rfl
@[simp] theorem emit_esilent (kind : TokenKind) (value : BitVec 8) (s : State) : (emit kind value s).esilent = s.esilent := rfl
@[simp] theorem emit_ebin (kind : TokenKind) (value : BitVec 8) (s : State) : (emit kind value s).ebin = s.ebin := rfl
@[simp] theorem emit_fill (kind : TokenKind) (value : BitVec 8) (s : State) : (emit kind value s).fill = s.fill := rfl
@[simp] theorem emit_fFault (kind : TokenKind) (value : BitVec 8) (s : State) : (emit kind value s).fFault = s.fFault := rfl
@[simp] theorem emit_fReject (kind : TokenKind) (value : BitVec 8) (s : State) : (emit kind value s).fReject = s.fReject := rfl
@[simp] theorem emit_fIllegal (kind : TokenKind) (value : BitVec 8) (s : State) : (emit kind value s).fIllegal = s.fIllegal := rfl
@[simp] theorem emit_fDropped (kind : TokenKind) (value : BitVec 8) (s : State) : (emit kind value s).fDropped = s.fDropped := rfl
@[simp] theorem emit_fb (kind : TokenKind) (value : BitVec 8) (s : State) : (emit kind value s).fb = s.fb := rfl
@[simp] theorem emit_out (kind : TokenKind) (value : BitVec 8) (s : State) : (emit kind value s).out = s.out ++ [mkToken kind value] := rfl
@[simp] theorem emit_resp (kind : TokenKind) (value : BitVec 8) (s : State) : (emit kind value s).resp = s.resp := rfl
@[simp] theorem emit_inp (kind : TokenKind) (value : BitVec 8) (s : State) : (emit kind value s).inp = s.inp := rfl
@[simp] theorem emit_draws (kind : TokenKind) (value : BitVec 8) (s : State) : (emit kind value s).draws = s.draws := rfl
@[simp] theorem emit_cfg (kind : TokenKind) (value : BitVec 8) (s : State) : (emit kind value s).cfg = s.cfg := rfl

/-! ## clearSession -/

@[simp] theorem clearSession_session (s : State) : (clearSession s).session = s.session := rfl
@[simp] theorem clearSession_mode (s : State) : (clearSession s).mode = s.mode := rfl
@[simp] theorem clearSession_policy (s : State) : (clearSession s).policy = s.policy := rfl
@[simp] theorem clearSession_repeatT (s : State) : (clearSession s).repeatT = s.repeatT := rfl
@[simp] theorem clearSession_ethresh (s : State) : (clearSession s).ethresh = s.ethresh := rfl
@[simp] theorem clearSession_lastSymV (s : State) : (clearSession s).lastSymV = false := rfl
@[simp] theorem clearSession_lastSym (s : State) : (clearSession s).lastSym = 0 := rfl
@[simp] theorem clearSession_rptCnt (s : State) : (clearSession s).rptCnt = 0 := rfl
@[simp] theorem clearSession_lastOutV (s : State) : (clearSession s).lastOutV = false := rfl
@[simp] theorem clearSession_lastOut (s : State) : (clearSession s).lastOut = 0 := rfl
@[simp] theorem clearSession_pbits (s : State) : (clearSession s).pbits = 0 := rfl
@[simp] theorem clearSession_pcnt (s : State) : (clearSession s).pcnt = 0 := rfl
@[simp] theorem clearSession_evalid (s : State) : (clearSession s).evalid = false := rfl
@[simp] theorem clearSession_esilent (s : State) : (clearSession s).esilent = false := rfl
@[simp] theorem clearSession_ebin (s : State) : (clearSession s).ebin = 0 := rfl
@[simp] theorem clearSession_fill (s : State) : (clearSession s).fill = 0 := rfl
@[simp] theorem clearSession_fFault (s : State) : (clearSession s).fFault = s.fFault := rfl
@[simp] theorem clearSession_fReject (s : State) : (clearSession s).fReject = s.fReject := rfl
@[simp] theorem clearSession_fIllegal (s : State) : (clearSession s).fIllegal = s.fIllegal := rfl
@[simp] theorem clearSession_fDropped (s : State) : (clearSession s).fDropped = s.fDropped := rfl
@[simp] theorem clearSession_fb (s : State) : (clearSession s).fb = s.fb := rfl
@[simp] theorem clearSession_out (s : State) : (clearSession s).out = s.out := rfl
@[simp] theorem clearSession_resp (s : State) : (clearSession s).resp = s.resp := rfl
@[simp] theorem clearSession_inp (s : State) : (clearSession s).inp = s.inp := rfl
@[simp] theorem clearSession_draws (s : State) : (clearSession s).draws = s.draws := rfl
@[simp] theorem clearSession_cfg (s : State) : (clearSession s).cfg = s.cfg := rfl

/-! ## clearSymbol -/

@[simp] theorem clearSymbol_session (s : State) : (clearSymbol s).session = s.session := rfl
@[simp] theorem clearSymbol_mode (s : State) : (clearSymbol s).mode = s.mode := rfl
@[simp] theorem clearSymbol_policy (s : State) : (clearSymbol s).policy = s.policy := rfl
@[simp] theorem clearSymbol_repeatT (s : State) : (clearSymbol s).repeatT = s.repeatT := rfl
@[simp] theorem clearSymbol_ethresh (s : State) : (clearSymbol s).ethresh = s.ethresh := rfl
@[simp] theorem clearSymbol_lastSymV (s : State) : (clearSymbol s).lastSymV = false := rfl
@[simp] theorem clearSymbol_lastSym (s : State) : (clearSymbol s).lastSym = 0 := rfl
@[simp] theorem clearSymbol_rptCnt (s : State) : (clearSymbol s).rptCnt = 0 := rfl
@[simp] theorem clearSymbol_lastOutV (s : State) : (clearSymbol s).lastOutV = s.lastOutV := rfl
@[simp] theorem clearSymbol_lastOut (s : State) : (clearSymbol s).lastOut = s.lastOut := rfl
@[simp] theorem clearSymbol_pbits (s : State) : (clearSymbol s).pbits = s.pbits := rfl
@[simp] theorem clearSymbol_pcnt (s : State) : (clearSymbol s).pcnt = s.pcnt := rfl
@[simp] theorem clearSymbol_evalid (s : State) : (clearSymbol s).evalid = s.evalid := rfl
@[simp] theorem clearSymbol_esilent (s : State) : (clearSymbol s).esilent = s.esilent := rfl
@[simp] theorem clearSymbol_ebin (s : State) : (clearSymbol s).ebin = s.ebin := rfl
@[simp] theorem clearSymbol_fill (s : State) : (clearSymbol s).fill = s.fill := rfl
@[simp] theorem clearSymbol_fFault (s : State) : (clearSymbol s).fFault = s.fFault := rfl
@[simp] theorem clearSymbol_fReject (s : State) : (clearSymbol s).fReject = s.fReject := rfl
@[simp] theorem clearSymbol_fIllegal (s : State) : (clearSymbol s).fIllegal = s.fIllegal := rfl
@[simp] theorem clearSymbol_fDropped (s : State) : (clearSymbol s).fDropped = s.fDropped := rfl
@[simp] theorem clearSymbol_fb (s : State) : (clearSymbol s).fb = s.fb := rfl
@[simp] theorem clearSymbol_out (s : State) : (clearSymbol s).out = s.out := rfl
@[simp] theorem clearSymbol_resp (s : State) : (clearSymbol s).resp = s.resp := rfl
@[simp] theorem clearSymbol_inp (s : State) : (clearSymbol s).inp = s.inp := rfl
@[simp] theorem clearSymbol_draws (s : State) : (clearSymbol s).draws = s.draws := rfl
@[simp] theorem clearSymbol_cfg (s : State) : (clearSymbol s).cfg = s.cfg := rfl

/-! ## emitChar -/

@[simp] theorem emitChar_session (c : BitVec 7) (s : State) : (emitChar c s).session = s.session := rfl
@[simp] theorem emitChar_mode (c : BitVec 7) (s : State) : (emitChar c s).mode = s.mode := rfl
@[simp] theorem emitChar_policy (c : BitVec 7) (s : State) : (emitChar c s).policy = s.policy := rfl
@[simp] theorem emitChar_repeatT (c : BitVec 7) (s : State) : (emitChar c s).repeatT = s.repeatT := rfl
@[simp] theorem emitChar_ethresh (c : BitVec 7) (s : State) : (emitChar c s).ethresh = s.ethresh := rfl
@[simp] theorem emitChar_lastSymV (c : BitVec 7) (s : State) : (emitChar c s).lastSymV = s.lastSymV := rfl
@[simp] theorem emitChar_lastSym (c : BitVec 7) (s : State) : (emitChar c s).lastSym = s.lastSym := rfl
@[simp] theorem emitChar_rptCnt (c : BitVec 7) (s : State) : (emitChar c s).rptCnt = s.rptCnt := rfl
@[simp] theorem emitChar_lastOutV (c : BitVec 7) (s : State) : (emitChar c s).lastOutV = true := rfl
@[simp] theorem emitChar_lastOut (c : BitVec 7) (s : State) : (emitChar c s).lastOut = c := rfl
@[simp] theorem emitChar_pbits (c : BitVec 7) (s : State) : (emitChar c s).pbits = s.pbits := rfl
@[simp] theorem emitChar_pcnt (c : BitVec 7) (s : State) : (emitChar c s).pcnt = s.pcnt := rfl
@[simp] theorem emitChar_evalid (c : BitVec 7) (s : State) : (emitChar c s).evalid = s.evalid := rfl
@[simp] theorem emitChar_esilent (c : BitVec 7) (s : State) : (emitChar c s).esilent = s.esilent := rfl
@[simp] theorem emitChar_ebin (c : BitVec 7) (s : State) : (emitChar c s).ebin = s.ebin := rfl
@[simp] theorem emitChar_fill (c : BitVec 7) (s : State) : (emitChar c s).fill = s.fill := rfl
@[simp] theorem emitChar_fFault (c : BitVec 7) (s : State) : (emitChar c s).fFault = s.fFault := rfl
@[simp] theorem emitChar_fReject (c : BitVec 7) (s : State) : (emitChar c s).fReject = s.fReject := rfl
@[simp] theorem emitChar_fIllegal (c : BitVec 7) (s : State) : (emitChar c s).fIllegal = s.fIllegal := rfl
@[simp] theorem emitChar_fDropped (c : BitVec 7) (s : State) : (emitChar c s).fDropped = s.fDropped := rfl
@[simp] theorem emitChar_fb (c : BitVec 7) (s : State) : (emitChar c s).fb = s.fb := rfl
@[simp] theorem emitChar_out (c : BitVec 7) (s : State) : (emitChar c s).out = s.out ++ [mkToken .char (c.setWidth 8)] := rfl
@[simp] theorem emitChar_resp (c : BitVec 7) (s : State) : (emitChar c s).resp = s.resp := rfl
@[simp] theorem emitChar_inp (c : BitVec 7) (s : State) : (emitChar c s).inp = s.inp := rfl
@[simp] theorem emitChar_draws (c : BitVec 7) (s : State) : (emitChar c s).draws = s.draws := rfl
@[simp] theorem emitChar_cfg (c : BitVec 7) (s : State) : (emitChar c s).cfg = s.cfg := rfl

/-! ## newSymbol -/

@[simp] theorem newSymbol_session (c : BitVec 7) (s : State) : (newSymbol c s).session = s.session := rfl
@[simp] theorem newSymbol_mode (c : BitVec 7) (s : State) : (newSymbol c s).mode = s.mode := rfl
@[simp] theorem newSymbol_policy (c : BitVec 7) (s : State) : (newSymbol c s).policy = s.policy := rfl
@[simp] theorem newSymbol_repeatT (c : BitVec 7) (s : State) : (newSymbol c s).repeatT = s.repeatT := rfl
@[simp] theorem newSymbol_ethresh (c : BitVec 7) (s : State) : (newSymbol c s).ethresh = s.ethresh := rfl
@[simp] theorem newSymbol_lastSymV (c : BitVec 7) (s : State) : (newSymbol c s).lastSymV = true := rfl
@[simp] theorem newSymbol_lastSym (c : BitVec 7) (s : State) : (newSymbol c s).lastSym = c := rfl
@[simp] theorem newSymbol_rptCnt (c : BitVec 7) (s : State) : (newSymbol c s).rptCnt = 1 := rfl
@[simp] theorem newSymbol_lastOutV (c : BitVec 7) (s : State) : (newSymbol c s).lastOutV = true := rfl
@[simp] theorem newSymbol_lastOut (c : BitVec 7) (s : State) : (newSymbol c s).lastOut = c := rfl
@[simp] theorem newSymbol_pbits (c : BitVec 7) (s : State) : (newSymbol c s).pbits = s.pbits := rfl
@[simp] theorem newSymbol_pcnt (c : BitVec 7) (s : State) : (newSymbol c s).pcnt = s.pcnt := rfl
@[simp] theorem newSymbol_evalid (c : BitVec 7) (s : State) : (newSymbol c s).evalid = s.evalid := rfl
@[simp] theorem newSymbol_esilent (c : BitVec 7) (s : State) : (newSymbol c s).esilent = s.esilent := rfl
@[simp] theorem newSymbol_ebin (c : BitVec 7) (s : State) : (newSymbol c s).ebin = s.ebin := rfl
@[simp] theorem newSymbol_fill (c : BitVec 7) (s : State) : (newSymbol c s).fill = s.fill := rfl
@[simp] theorem newSymbol_fFault (c : BitVec 7) (s : State) : (newSymbol c s).fFault = s.fFault := rfl
@[simp] theorem newSymbol_fReject (c : BitVec 7) (s : State) : (newSymbol c s).fReject = s.fReject := rfl
@[simp] theorem newSymbol_fIllegal (c : BitVec 7) (s : State) : (newSymbol c s).fIllegal = s.fIllegal := rfl
@[simp] theorem newSymbol_fDropped (c : BitVec 7) (s : State) : (newSymbol c s).fDropped = s.fDropped := rfl
@[simp] theorem newSymbol_fb (c : BitVec 7) (s : State) : (newSymbol c s).fb = s.fb := rfl
@[simp] theorem newSymbol_out (c : BitVec 7) (s : State) : (newSymbol c s).out = s.out ++ [mkToken .char (c.setWidth 8)] := rfl
@[simp] theorem newSymbol_resp (c : BitVec 7) (s : State) : (newSymbol c s).resp = s.resp := rfl
@[simp] theorem newSymbol_inp (c : BitVec 7) (s : State) : (newSymbol c s).inp = s.inp := rfl
@[simp] theorem newSymbol_draws (c : BitVec 7) (s : State) : (newSymbol c s).draws = s.draws := rfl
@[simp] theorem newSymbol_cfg (c : BitVec 7) (s : State) : (newSymbol c s).cfg = s.cfg := rfl

/-! ## storeSample -/

@[simp] theorem storeSample_session (x : Sample) (s : State) : (storeSample x s).session = s.session := rfl
@[simp] theorem storeSample_mode (x : Sample) (s : State) : (storeSample x s).mode = s.mode := rfl
@[simp] theorem storeSample_policy (x : Sample) (s : State) : (storeSample x s).policy = s.policy := rfl
@[simp] theorem storeSample_repeatT (x : Sample) (s : State) : (storeSample x s).repeatT = s.repeatT := rfl
@[simp] theorem storeSample_ethresh (x : Sample) (s : State) : (storeSample x s).ethresh = s.ethresh := rfl
@[simp] theorem storeSample_lastSymV (x : Sample) (s : State) : (storeSample x s).lastSymV = s.lastSymV := rfl
@[simp] theorem storeSample_lastSym (x : Sample) (s : State) : (storeSample x s).lastSym = s.lastSym := rfl
@[simp] theorem storeSample_rptCnt (x : Sample) (s : State) : (storeSample x s).rptCnt = s.rptCnt := rfl
@[simp] theorem storeSample_lastOutV (x : Sample) (s : State) : (storeSample x s).lastOutV = s.lastOutV := rfl
@[simp] theorem storeSample_lastOut (x : Sample) (s : State) : (storeSample x s).lastOut = s.lastOut := rfl
@[simp] theorem storeSample_pbits (x : Sample) (s : State) : (storeSample x s).pbits = s.pbits := rfl
@[simp] theorem storeSample_pcnt (x : Sample) (s : State) : (storeSample x s).pcnt = s.pcnt := rfl
@[simp] theorem storeSample_evalid (x : Sample) (s : State) : (storeSample x s).evalid = s.evalid := rfl
@[simp] theorem storeSample_esilent (x : Sample) (s : State) : (storeSample x s).esilent = s.esilent := rfl
@[simp] theorem storeSample_ebin (x : Sample) (s : State) : (storeSample x s).ebin = s.ebin := rfl
@[simp] theorem storeSample_fill (x : Sample) (s : State) : (storeSample x s).fill = s.fill := rfl
@[simp] theorem storeSample_fFault (x : Sample) (s : State) : (storeSample x s).fFault = s.fFault := rfl
@[simp] theorem storeSample_fReject (x : Sample) (s : State) : (storeSample x s).fReject = s.fReject := rfl
@[simp] theorem storeSample_fIllegal (x : Sample) (s : State) : (storeSample x s).fIllegal = s.fIllegal := rfl
@[simp] theorem storeSample_fDropped (x : Sample) (s : State) : (storeSample x s).fDropped = s.fDropped := rfl
@[simp] theorem storeSample_fb (x : Sample) (s : State) : (storeSample x s).fb = s.fb.write s.fill.toNat x := rfl
@[simp] theorem storeSample_out (x : Sample) (s : State) : (storeSample x s).out = s.out := rfl
@[simp] theorem storeSample_resp (x : Sample) (s : State) : (storeSample x s).resp = s.resp := rfl
@[simp] theorem storeSample_inp (x : Sample) (s : State) : (storeSample x s).inp = s.inp := rfl
@[simp] theorem storeSample_draws (x : Sample) (s : State) : (storeSample x s).draws = s.draws := rfl
@[simp] theorem storeSample_cfg (x : Sample) (s : State) : (storeSample x s).cfg = s.cfg := rfl

/-! ## setConfig -/

@[simp] theorem setConfig_session (v : RegWord) (s : State) : (setConfig v s).session = s.session := rfl
@[simp] theorem setConfig_mode (v : RegWord) (s : State) : (setConfig v s).mode = (if v.getLsbD 0 then Mode.binary else Mode.text) := rfl
@[simp] theorem setConfig_policy (v : RegWord) (s : State) : (setConfig v s).policy = (if v.getLsbD 1 then Policy.placeholder else Policy.drop) := rfl
@[simp] theorem setConfig_repeatT (v : RegWord) (s : State) : (setConfig v s).repeatT = v.extractLsb' 8 8 := rfl
@[simp] theorem setConfig_ethresh (v : RegWord) (s : State) : (setConfig v s).ethresh = s.ethresh := rfl
@[simp] theorem setConfig_lastSymV (v : RegWord) (s : State) : (setConfig v s).lastSymV = s.lastSymV := rfl
@[simp] theorem setConfig_lastSym (v : RegWord) (s : State) : (setConfig v s).lastSym = s.lastSym := rfl
@[simp] theorem setConfig_rptCnt (v : RegWord) (s : State) : (setConfig v s).rptCnt = s.rptCnt := rfl
@[simp] theorem setConfig_lastOutV (v : RegWord) (s : State) : (setConfig v s).lastOutV = s.lastOutV := rfl
@[simp] theorem setConfig_lastOut (v : RegWord) (s : State) : (setConfig v s).lastOut = s.lastOut := rfl
@[simp] theorem setConfig_pbits (v : RegWord) (s : State) : (setConfig v s).pbits = s.pbits := rfl
@[simp] theorem setConfig_pcnt (v : RegWord) (s : State) : (setConfig v s).pcnt = s.pcnt := rfl
@[simp] theorem setConfig_evalid (v : RegWord) (s : State) : (setConfig v s).evalid = s.evalid := rfl
@[simp] theorem setConfig_esilent (v : RegWord) (s : State) : (setConfig v s).esilent = s.esilent := rfl
@[simp] theorem setConfig_ebin (v : RegWord) (s : State) : (setConfig v s).ebin = s.ebin := rfl
@[simp] theorem setConfig_fill (v : RegWord) (s : State) : (setConfig v s).fill = s.fill := rfl
@[simp] theorem setConfig_fFault (v : RegWord) (s : State) : (setConfig v s).fFault = s.fFault := rfl
@[simp] theorem setConfig_fReject (v : RegWord) (s : State) : (setConfig v s).fReject = s.fReject := rfl
@[simp] theorem setConfig_fIllegal (v : RegWord) (s : State) : (setConfig v s).fIllegal = s.fIllegal := rfl
@[simp] theorem setConfig_fDropped (v : RegWord) (s : State) : (setConfig v s).fDropped = s.fDropped := rfl
@[simp] theorem setConfig_fb (v : RegWord) (s : State) : (setConfig v s).fb = s.fb := rfl
@[simp] theorem setConfig_out (v : RegWord) (s : State) : (setConfig v s).out = s.out := rfl
@[simp] theorem setConfig_resp (v : RegWord) (s : State) : (setConfig v s).resp = s.resp := rfl
@[simp] theorem setConfig_inp (v : RegWord) (s : State) : (setConfig v s).inp = s.inp := rfl
@[simp] theorem setConfig_draws (v : RegWord) (s : State) : (setConfig v s).draws = s.draws := rfl
@[simp] theorem setConfig_cfg (v : RegWord) (s : State) : (setConfig v s).cfg = s.cfg := rfl

/-! ## clearFlags -/

@[simp] theorem clearFlags_session (v : RegWord) (s : State) : (clearFlags v s).session = s.session := rfl
@[simp] theorem clearFlags_mode (v : RegWord) (s : State) : (clearFlags v s).mode = s.mode := rfl
@[simp] theorem clearFlags_policy (v : RegWord) (s : State) : (clearFlags v s).policy = s.policy := rfl
@[simp] theorem clearFlags_repeatT (v : RegWord) (s : State) : (clearFlags v s).repeatT = s.repeatT := rfl
@[simp] theorem clearFlags_ethresh (v : RegWord) (s : State) : (clearFlags v s).ethresh = s.ethresh := rfl
@[simp] theorem clearFlags_lastSymV (v : RegWord) (s : State) : (clearFlags v s).lastSymV = s.lastSymV := rfl
@[simp] theorem clearFlags_lastSym (v : RegWord) (s : State) : (clearFlags v s).lastSym = s.lastSym := rfl
@[simp] theorem clearFlags_rptCnt (v : RegWord) (s : State) : (clearFlags v s).rptCnt = s.rptCnt := rfl
@[simp] theorem clearFlags_lastOutV (v : RegWord) (s : State) : (clearFlags v s).lastOutV = s.lastOutV := rfl
@[simp] theorem clearFlags_lastOut (v : RegWord) (s : State) : (clearFlags v s).lastOut = s.lastOut := rfl
@[simp] theorem clearFlags_pbits (v : RegWord) (s : State) : (clearFlags v s).pbits = s.pbits := rfl
@[simp] theorem clearFlags_pcnt (v : RegWord) (s : State) : (clearFlags v s).pcnt = s.pcnt := rfl
@[simp] theorem clearFlags_evalid (v : RegWord) (s : State) : (clearFlags v s).evalid = s.evalid := rfl
@[simp] theorem clearFlags_esilent (v : RegWord) (s : State) : (clearFlags v s).esilent = s.esilent := rfl
@[simp] theorem clearFlags_ebin (v : RegWord) (s : State) : (clearFlags v s).ebin = s.ebin := rfl
@[simp] theorem clearFlags_fill (v : RegWord) (s : State) : (clearFlags v s).fill = s.fill := rfl
@[simp] theorem clearFlags_fFault (v : RegWord) (s : State) : (clearFlags v s).fFault = (s.fFault && !v.getLsbD 0) := rfl
@[simp] theorem clearFlags_fReject (v : RegWord) (s : State) : (clearFlags v s).fReject = (s.fReject && !v.getLsbD 1) := rfl
@[simp] theorem clearFlags_fIllegal (v : RegWord) (s : State) : (clearFlags v s).fIllegal = (s.fIllegal && !v.getLsbD 2) := rfl
@[simp] theorem clearFlags_fDropped (v : RegWord) (s : State) : (clearFlags v s).fDropped = (s.fDropped && !v.getLsbD 3) := rfl
@[simp] theorem clearFlags_fb (v : RegWord) (s : State) : (clearFlags v s).fb = s.fb := rfl
@[simp] theorem clearFlags_out (v : RegWord) (s : State) : (clearFlags v s).out = s.out := rfl
@[simp] theorem clearFlags_resp (v : RegWord) (s : State) : (clearFlags v s).resp = s.resp := rfl
@[simp] theorem clearFlags_inp (v : RegWord) (s : State) : (clearFlags v s).inp = s.inp := rfl
@[simp] theorem clearFlags_draws (v : RegWord) (s : State) : (clearFlags v s).draws = s.draws := rfl
@[simp] theorem clearFlags_cfg (v : RegWord) (s : State) : (clearFlags v s).cfg = s.cfg := rfl

/-! ## presentWord -/

@[simp] theorem presentWord_session (w : CmdWord) (s : State) : (presentWord w s).session = s.session := rfl
@[simp] theorem presentWord_mode (w : CmdWord) (s : State) : (presentWord w s).mode = s.mode := rfl
@[simp] theorem presentWord_policy (w : CmdWord) (s : State) : (presentWord w s).policy = s.policy := rfl
@[simp] theorem presentWord_repeatT (w : CmdWord) (s : State) : (presentWord w s).repeatT = s.repeatT := rfl
@[simp] theorem presentWord_ethresh (w : CmdWord) (s : State) : (presentWord w s).ethresh = s.ethresh := rfl
@[simp] theorem presentWord_lastSymV (w : CmdWord) (s : State) : (presentWord w s).lastSymV = s.lastSymV := rfl
@[simp] theorem presentWord_lastSym (w : CmdWord) (s : State) : (presentWord w s).lastSym = s.lastSym := rfl
@[simp] theorem presentWord_rptCnt (w : CmdWord) (s : State) : (presentWord w s).rptCnt = s.rptCnt := rfl
@[simp] theorem presentWord_lastOutV (w : CmdWord) (s : State) : (presentWord w s).lastOutV = s.lastOutV := rfl
@[simp] theorem presentWord_lastOut (w : CmdWord) (s : State) : (presentWord w s).lastOut = s.lastOut := rfl
@[simp] theorem presentWord_pbits (w : CmdWord) (s : State) : (presentWord w s).pbits = s.pbits := rfl
@[simp] theorem presentWord_pcnt (w : CmdWord) (s : State) : (presentWord w s).pcnt = s.pcnt := rfl
@[simp] theorem presentWord_evalid (w : CmdWord) (s : State) : (presentWord w s).evalid = s.evalid := rfl
@[simp] theorem presentWord_esilent (w : CmdWord) (s : State) : (presentWord w s).esilent = s.esilent := rfl
@[simp] theorem presentWord_ebin (w : CmdWord) (s : State) : (presentWord w s).ebin = s.ebin := rfl
@[simp] theorem presentWord_fill (w : CmdWord) (s : State) : (presentWord w s).fill = s.fill := rfl
@[simp] theorem presentWord_fFault (w : CmdWord) (s : State) : (presentWord w s).fFault = s.fFault := rfl
@[simp] theorem presentWord_fReject (w : CmdWord) (s : State) : (presentWord w s).fReject = s.fReject := rfl
@[simp] theorem presentWord_fIllegal (w : CmdWord) (s : State) : (presentWord w s).fIllegal = s.fIllegal := rfl
@[simp] theorem presentWord_fDropped (w : CmdWord) (s : State) : (presentWord w s).fDropped = s.fDropped := rfl
@[simp] theorem presentWord_fb (w : CmdWord) (s : State) : (presentWord w s).fb = s.fb := rfl
@[simp] theorem presentWord_out (w : CmdWord) (s : State) : (presentWord w s).out = s.out := rfl
@[simp] theorem presentWord_resp (w : CmdWord) (s : State) : (presentWord w s).resp = s.resp := rfl
@[simp] theorem presentWord_inp (w : CmdWord) (s : State) : (presentWord w s).inp = w :: s.inp := rfl
@[simp] theorem presentWord_draws (w : CmdWord) (s : State) : (presentWord w s).draws = s.draws := rfl
@[simp] theorem presentWord_cfg (w : CmdWord) (s : State) : (presentWord w s).cfg = s.cfg := rfl

/-! ## setFlag -/

@[simp] theorem setFlag_session (f : Flag) (s : State) : (setFlag f s).session = s.session := by cases f <;> rfl
@[simp] theorem setFlag_mode (f : Flag) (s : State) : (setFlag f s).mode = s.mode := by cases f <;> rfl
@[simp] theorem setFlag_policy (f : Flag) (s : State) : (setFlag f s).policy = s.policy := by cases f <;> rfl
@[simp] theorem setFlag_repeatT (f : Flag) (s : State) : (setFlag f s).repeatT = s.repeatT := by cases f <;> rfl
@[simp] theorem setFlag_ethresh (f : Flag) (s : State) : (setFlag f s).ethresh = s.ethresh := by cases f <;> rfl
@[simp] theorem setFlag_lastSymV (f : Flag) (s : State) : (setFlag f s).lastSymV = s.lastSymV := by cases f <;> rfl
@[simp] theorem setFlag_lastSym (f : Flag) (s : State) : (setFlag f s).lastSym = s.lastSym := by cases f <;> rfl
@[simp] theorem setFlag_rptCnt (f : Flag) (s : State) : (setFlag f s).rptCnt = s.rptCnt := by cases f <;> rfl
@[simp] theorem setFlag_lastOutV (f : Flag) (s : State) : (setFlag f s).lastOutV = s.lastOutV := by cases f <;> rfl
@[simp] theorem setFlag_lastOut (f : Flag) (s : State) : (setFlag f s).lastOut = s.lastOut := by cases f <;> rfl
@[simp] theorem setFlag_pbits (f : Flag) (s : State) : (setFlag f s).pbits = s.pbits := by cases f <;> rfl
@[simp] theorem setFlag_pcnt (f : Flag) (s : State) : (setFlag f s).pcnt = s.pcnt := by cases f <;> rfl
@[simp] theorem setFlag_evalid (f : Flag) (s : State) : (setFlag f s).evalid = s.evalid := by cases f <;> rfl
@[simp] theorem setFlag_esilent (f : Flag) (s : State) : (setFlag f s).esilent = s.esilent := by cases f <;> rfl
@[simp] theorem setFlag_ebin (f : Flag) (s : State) : (setFlag f s).ebin = s.ebin := by cases f <;> rfl
@[simp] theorem setFlag_fill (f : Flag) (s : State) : (setFlag f s).fill = s.fill := by cases f <;> rfl
@[simp] theorem setFlag_fFault (f : Flag) (s : State) : (setFlag f s).fFault = (s.fFault || f == .fault) := by
  cases f <;> cases h : s.fFault <;> simp [setFlag, h]
@[simp] theorem setFlag_fReject (f : Flag) (s : State) : (setFlag f s).fReject = (s.fReject || f == .reject) := by
  cases f <;> cases h : s.fReject <;> simp [setFlag, h]
@[simp] theorem setFlag_fIllegal (f : Flag) (s : State) : (setFlag f s).fIllegal = (s.fIllegal || f == .illegal) := by
  cases f <;> cases h : s.fIllegal <;> simp [setFlag, h]
@[simp] theorem setFlag_fDropped (f : Flag) (s : State) : (setFlag f s).fDropped = (s.fDropped || f == .dropped) := by
  cases f <;> cases h : s.fDropped <;> simp [setFlag, h]
@[simp] theorem setFlag_fb (f : Flag) (s : State) : (setFlag f s).fb = s.fb := by cases f <;> rfl
@[simp] theorem setFlag_out (f : Flag) (s : State) : (setFlag f s).out = s.out := by cases f <;> rfl
@[simp] theorem setFlag_resp (f : Flag) (s : State) : (setFlag f s).resp = s.resp := by cases f <;> rfl
@[simp] theorem setFlag_inp (f : Flag) (s : State) : (setFlag f s).inp = s.inp := by cases f <;> rfl
@[simp] theorem setFlag_draws (f : Flag) (s : State) : (setFlag f s).draws = s.draws := by cases f <;> rfl
@[simp] theorem setFlag_cfg (f : Flag) (s : State) : (setFlag f s).cfg = s.cfg := by cases f <;> rfl

/-! ## takeDraw -/

@[simp] theorem takeDraw_session (s : State) : (takeDraw s).session = s.session := by unfold takeDraw; split <;> rfl
@[simp] theorem takeDraw_mode (s : State) : (takeDraw s).mode = s.mode := by unfold takeDraw; split <;> rfl
@[simp] theorem takeDraw_policy (s : State) : (takeDraw s).policy = s.policy := by unfold takeDraw; split <;> rfl
@[simp] theorem takeDraw_repeatT (s : State) : (takeDraw s).repeatT = s.repeatT := by unfold takeDraw; split <;> rfl
@[simp] theorem takeDraw_ethresh (s : State) : (takeDraw s).ethresh = s.ethresh := by unfold takeDraw; split <;> rfl
@[simp] theorem takeDraw_lastSymV (s : State) : (takeDraw s).lastSymV = s.lastSymV := by unfold takeDraw; split <;> rfl
@[simp] theorem takeDraw_lastSym (s : State) : (takeDraw s).lastSym = s.lastSym := by unfold takeDraw; split <;> rfl
@[simp] theorem takeDraw_rptCnt (s : State) : (takeDraw s).rptCnt = s.rptCnt := by unfold takeDraw; split <;> rfl
@[simp] theorem takeDraw_lastOutV (s : State) : (takeDraw s).lastOutV = s.lastOutV := by unfold takeDraw; split <;> rfl
@[simp] theorem takeDraw_lastOut (s : State) : (takeDraw s).lastOut = s.lastOut := by unfold takeDraw; split <;> rfl
@[simp] theorem takeDraw_pbits (s : State) : (takeDraw s).pbits = s.pbits := by unfold takeDraw; split <;> rfl
@[simp] theorem takeDraw_pcnt (s : State) : (takeDraw s).pcnt = s.pcnt := by unfold takeDraw; split <;> rfl
@[simp] theorem takeDraw_evalid (s : State) : (takeDraw s).evalid = s.evalid := by unfold takeDraw; split <;> rfl
@[simp] theorem takeDraw_esilent (s : State) : (takeDraw s).esilent = s.esilent := by unfold takeDraw; split <;> rfl
@[simp] theorem takeDraw_ebin (s : State) : (takeDraw s).ebin = s.ebin := by unfold takeDraw; split <;> rfl
@[simp] theorem takeDraw_fill (s : State) : (takeDraw s).fill = s.fill := by unfold takeDraw; split <;> rfl
@[simp] theorem takeDraw_fFault (s : State) : (takeDraw s).fFault = s.fFault := by unfold takeDraw; split <;> rfl
@[simp] theorem takeDraw_fReject (s : State) : (takeDraw s).fReject = s.fReject := by unfold takeDraw; split <;> rfl
@[simp] theorem takeDraw_fIllegal (s : State) : (takeDraw s).fIllegal = s.fIllegal := by unfold takeDraw; split <;> rfl
@[simp] theorem takeDraw_fDropped (s : State) : (takeDraw s).fDropped = s.fDropped := by unfold takeDraw; split <;> rfl
@[simp] theorem takeDraw_fb (s : State) : (takeDraw s).fb = s.fb := by unfold takeDraw; split <;> rfl
@[simp] theorem takeDraw_out (s : State) : (takeDraw s).out = s.out := by unfold takeDraw; split <;> rfl
@[simp] theorem takeDraw_resp (s : State) : (takeDraw s).resp = s.resp := by unfold takeDraw; split <;> rfl
@[simp] theorem takeDraw_inp (s : State) : (takeDraw s).inp = s.inp := by unfold takeDraw; split <;> rfl
@[simp] theorem takeDraw_cfg (s : State) : (takeDraw s).cfg = s.cfg := by unfold takeDraw; split <;> rfl

/-! ## raiseError -/

@[simp] theorem raiseError_session (cmd : Option Instr) (code : RespCode) (s : State) : (raiseError cmd code s).session = s.session := by
  unfold raiseError applyRefusalFlag; cases refusalFlag cmd code <;> simp
@[simp] theorem raiseError_mode (cmd : Option Instr) (code : RespCode) (s : State) : (raiseError cmd code s).mode = s.mode := by
  unfold raiseError applyRefusalFlag; cases refusalFlag cmd code <;> simp
@[simp] theorem raiseError_policy (cmd : Option Instr) (code : RespCode) (s : State) : (raiseError cmd code s).policy = s.policy := by
  unfold raiseError applyRefusalFlag; cases refusalFlag cmd code <;> simp
@[simp] theorem raiseError_repeatT (cmd : Option Instr) (code : RespCode) (s : State) : (raiseError cmd code s).repeatT = s.repeatT := by
  unfold raiseError applyRefusalFlag; cases refusalFlag cmd code <;> simp
@[simp] theorem raiseError_ethresh (cmd : Option Instr) (code : RespCode) (s : State) : (raiseError cmd code s).ethresh = s.ethresh := by
  unfold raiseError applyRefusalFlag; cases refusalFlag cmd code <;> simp
@[simp] theorem raiseError_lastSymV (cmd : Option Instr) (code : RespCode) (s : State) : (raiseError cmd code s).lastSymV = s.lastSymV := by
  unfold raiseError applyRefusalFlag; cases refusalFlag cmd code <;> simp
@[simp] theorem raiseError_lastSym (cmd : Option Instr) (code : RespCode) (s : State) : (raiseError cmd code s).lastSym = s.lastSym := by
  unfold raiseError applyRefusalFlag; cases refusalFlag cmd code <;> simp
@[simp] theorem raiseError_rptCnt (cmd : Option Instr) (code : RespCode) (s : State) : (raiseError cmd code s).rptCnt = s.rptCnt := by
  unfold raiseError applyRefusalFlag; cases refusalFlag cmd code <;> simp
@[simp] theorem raiseError_lastOutV (cmd : Option Instr) (code : RespCode) (s : State) : (raiseError cmd code s).lastOutV = s.lastOutV := by
  unfold raiseError applyRefusalFlag; cases refusalFlag cmd code <;> simp
@[simp] theorem raiseError_lastOut (cmd : Option Instr) (code : RespCode) (s : State) : (raiseError cmd code s).lastOut = s.lastOut := by
  unfold raiseError applyRefusalFlag; cases refusalFlag cmd code <;> simp
@[simp] theorem raiseError_pbits (cmd : Option Instr) (code : RespCode) (s : State) : (raiseError cmd code s).pbits = s.pbits := by
  unfold raiseError applyRefusalFlag; cases refusalFlag cmd code <;> simp
@[simp] theorem raiseError_pcnt (cmd : Option Instr) (code : RespCode) (s : State) : (raiseError cmd code s).pcnt = s.pcnt := by
  unfold raiseError applyRefusalFlag; cases refusalFlag cmd code <;> simp
@[simp] theorem raiseError_evalid (cmd : Option Instr) (code : RespCode) (s : State) : (raiseError cmd code s).evalid = s.evalid := by
  unfold raiseError applyRefusalFlag; cases refusalFlag cmd code <;> simp
@[simp] theorem raiseError_esilent (cmd : Option Instr) (code : RespCode) (s : State) : (raiseError cmd code s).esilent = s.esilent := by
  unfold raiseError applyRefusalFlag; cases refusalFlag cmd code <;> simp
@[simp] theorem raiseError_ebin (cmd : Option Instr) (code : RespCode) (s : State) : (raiseError cmd code s).ebin = s.ebin := by
  unfold raiseError applyRefusalFlag; cases refusalFlag cmd code <;> simp
@[simp] theorem raiseError_fill (cmd : Option Instr) (code : RespCode) (s : State) : (raiseError cmd code s).fill = s.fill := by
  unfold raiseError applyRefusalFlag; cases refusalFlag cmd code <;> simp
@[simp] theorem raiseError_fFault (cmd : Option Instr) (code : RespCode) (s : State) :
    (raiseError cmd code s).fFault = (s.fFault || refusalFlag cmd code == some .fault) := by
  unfold raiseError applyRefusalFlag; cases refusalFlag cmd code <;> simp
@[simp] theorem raiseError_fReject (cmd : Option Instr) (code : RespCode) (s : State) :
    (raiseError cmd code s).fReject = (s.fReject || refusalFlag cmd code == some .reject) := by
  unfold raiseError applyRefusalFlag; cases refusalFlag cmd code <;> simp
@[simp] theorem raiseError_fIllegal (cmd : Option Instr) (code : RespCode) (s : State) :
    (raiseError cmd code s).fIllegal = (s.fIllegal || refusalFlag cmd code == some .illegal) := by
  unfold raiseError applyRefusalFlag; cases refusalFlag cmd code <;> simp
@[simp] theorem raiseError_fDropped (cmd : Option Instr) (code : RespCode) (s : State) :
    (raiseError cmd code s).fDropped = (s.fDropped || refusalFlag cmd code == some .dropped) := by
  unfold raiseError applyRefusalFlag; cases refusalFlag cmd code <;> simp
@[simp] theorem raiseError_fb (cmd : Option Instr) (code : RespCode) (s : State) : (raiseError cmd code s).fb = s.fb := by
  unfold raiseError applyRefusalFlag; cases refusalFlag cmd code <;> simp
@[simp] theorem raiseError_out (cmd : Option Instr) (code : RespCode) (s : State) : (raiseError cmd code s).out = s.out := by
  unfold raiseError applyRefusalFlag; cases refusalFlag cmd code <;> simp
@[simp] theorem raiseError_resp (cmd : Option Instr) (code : RespCode) (s : State) :
    (raiseError cmd code s).resp = s.resp ++ [mkResponse code 0] := by
  unfold raiseError applyRefusalFlag; cases refusalFlag cmd code <;> simp
@[simp] theorem raiseError_inp (cmd : Option Instr) (code : RespCode) (s : State) : (raiseError cmd code s).inp = s.inp := by
  unfold raiseError applyRefusalFlag; cases refusalFlag cmd code <;> simp
@[simp] theorem raiseError_draws (cmd : Option Instr) (code : RespCode) (s : State) : (raiseError cmd code s).draws = s.draws := by
  unfold raiseError applyRefusalFlag; cases refusalFlag cmd code <;> simp
@[simp] theorem raiseError_cfg (cmd : Option Instr) (code : RespCode) (s : State) : (raiseError cmd code s).cfg = s.cfg := by
  unfold raiseError applyRefusalFlag; cases refusalFlag cmd code <;> simp

end Sys2Proof.Machine
end

