-- ==== Sys2Proof/Laws/Tolerance.lean ====
section
/-! SUPPORT. The tolerance: every positive real number has its test, the tested outcomes are the admissible ones, and what
the outcome of a frame is. -/

namespace Sys2Proof.Machine

/-- No real number is left out: every δ > 0 has a test of the kind that a free tolerance is (R7 (f)). -/
theorem exists_tolerance {δ : ℝ} (hδ : 0 < δ) :
    ∃ t : Tolerance, ∀ (f : Frame) (e : Est), t.admits f e = true ↔ f.AdmWithin δ e := by
  classical
  exact ⟨⟨fun f e => decide (f.AdmWithin δ e), δ, hδ, fun f _ _ e => decide_eq_true_iff⟩, fun f e => decide_eq_true_iff⟩

theorem Tolerance.delta_pos (t : Tolerance) : 0 < t.delta := t.spec.choose_spec.1

theorem Tolerance.admits_iff (t : Tolerance) {f : Frame} (hf : f.Complete) (hr : f.InRange) (e : Est) :
    t.admits f e = true ↔ f.AdmWithin t.delta e := t.spec.choose_spec.2 f hf hr e

/-- δ is not negative, and 0 only where the configuration says so (R7 (f)). -/
theorem delta_nonneg (f : Frame) : 0 ≤ f.delta := by
  unfold Frame.delta
  cases f.cfg.estTolFree with
  | none => unfold Frame.tolQuotient; positivity
  | some i => exact (freeTolerance i).delta_pos.le

theorem delta_eq_zero_iff (f : Frame) (hc : f.cfg.Legal) : f.delta = 0 ↔ f.cfg.TolZero := by
  have hd : (f.cfg.estTolDen : ℝ) ≠ 0 := by exact_mod_cast hc.2.2.2.2.2.1.ne'
  unfold Frame.delta Config.TolZero
  cases f.cfg.estTolFree with
  | none => simp [Frame.tolQuotient, hd]
  | some i => simp [(freeTolerance i).delta_pos.ne']

/-- The test of the frame step decides the admissible set (R117). -/
theorem admitted_iff_adm (f : Frame) (hf : f.Complete) (hr : f.InRange) (e : Est) : admitted f e = true ↔ f.Adm e := by
  unfold admitted Frame.Adm Frame.delta
  cases f.cfg.estTolFree with
  | none => exact admissible_iff_admWithin f hf e
  | some i => exact (freeTolerance i).admits_iff hf hr e

/-- The reference outcome lies in the admissible set (R117). -/
theorem est_mem_adm (f : Frame) (hf : f.Complete) : f.Adm f.est := est_mem_admWithin f hf (delta_nonneg f)

/-- The outcome of a frame (R117): the reference with δ = 0, an admissible outcome with δ > 0, and every admissible
outcome for some draw. -/
theorem outcomeOf_spec (f : Frame) (hf : f.Complete) (hr : f.InRange) (d : ℕ) :
    (f.cfg.TolZero → outcomeOf f d = f.est) ∧
    (¬f.cfg.TolZero → f.Adm (outcomeOf f d) ∧ (f.Adm (drawnEst d) → outcomeOf f d = drawnEst d)) := by
  unfold outcomeOf
  rw [estimate_eq_est f hf]
  refine ⟨fun h => if_pos h, fun h => ?_⟩
  rw [if_neg h]
  by_cases ha : f.Adm (drawnEst d)
  · rw [if_pos ((admitted_iff_adm f hf hr _).mpr ha)]
    exact ⟨ha, fun _ => rfl⟩
  · rw [if_neg (fun h' => ha ((admitted_iff_adm f hf hr _).mp h'))]
    exact ⟨est_mem_adm f hf, fun h' => absurd h' ha⟩

end Sys2Proof.Machine
end

