-- ==== Sys2Proof/Laws/Frame.lean ====
section
/-! SUPPORT. The frame that a completing sample hands to the estimator, and its outcome. -/

namespace Sys2Proof.Machine

theorem frameOf_complete (s : State) (hc : s.cfg.Legal) : (frameOf s).Complete := ⟨hc, by simp [frameOf]⟩

theorem completedFrame_complete (x : Sample) (s : State) (hc : s.cfg.Legal) : (completedFrame x s).Complete :=
  ⟨hc, by simp [completedFrame]⟩

/-- The samples of `FB` have 16 bits and the threshold 32. -/
theorem frameOf_inRange (s : State) : (frameOf s).InRange := by
  refine ⟨fun x hx => ?_, s.ethresh.isLt⟩
  simp only [frameOf, List.mem_map] at hx
  obtain ⟨i, _, rfl⟩ := hx
  exact ⟨BitVec.le_toInt _, by have := @BitVec.toInt_lt 16 (s.fb.read i); omega⟩

/-- The estimator reads what `FB` held, with the new sample at `FILL`. -/
theorem frameOf_storeSample (x : Sample) (s : State) (hm : s.fb.wf = true) :
    frameOf (storeSample x s) = completedFrame x s := by
  unfold frameOf completedFrame
  simp only [storeSample_cfg, storeSample_ethresh, storeSample_fb]
  congr 1
  apply List.map_congr_left
  intro i _
  rw [Memory.read_write _ _ _ hm]
  split <;> rfl

theorem completedFrame_inRange (x : Sample) (s : State) (hm : s.fb.wf = true) : (completedFrame x s).InRange := by
  rw [← frameOf_storeSample x s hm]
  exact frameOf_inRange _

/-- The reference outcome is a bin in range. -/
theorem est_bin_range (f : Frame) (hc : f.cfg.Legal) {k : ℕ} (h : f.est = .bin k) : 1 ≤ k ∧ k ≤ f.cfg.lastBin := by
  obtain ⟨hk1, _, _⟩ := kStar_spec f hc
  unfold Frame.est at h
  split_ifs at h with hs
  rw [Frame.Silent, not_or] at hs
  rw [← Est.bin.inj h]
  exact ⟨Nat.pos_of_ne_zero hs.2, hk1⟩

/-- Every outcome is a bin in range, or SILENT (R116, R117). -/
theorem outcomeOf_bin_range (f : Frame) (hf : f.Complete) (hr : f.InRange) {d k : ℕ} (h : outcomeOf f d = .bin k) :
    1 ≤ k ∧ k ≤ f.cfg.lastBin := by
  obtain ⟨h1, h2⟩ := outcomeOf_spec f hf hr d
  by_cases h0 : f.cfg.TolZero
  · exact est_bin_range f hf.1 ((h1 h0).symm.trans h)
  · have := (h2 h0).1
    rw [h] at this
    exact this.1

end Sys2Proof.Machine
end

