-- ==== Sys2Proof/Laws/Machine.lean ====
section
/-! SUPPORT. What the decode procedures and the frame step can do, said once: each field they leave alone, and the
cases of what they write. -/

namespace Sys2Proof.Machine

/-! ## repeatSymbol -/

@[simp] theorem repeatSymbol_session (s : State) : (repeatSymbol s).session = s.session := by
  unfold repeatSymbol; dsimp only; split <;> simp
@[simp] theorem repeatSymbol_mode (s : State) : (repeatSymbol s).mode = s.mode := by
  unfold repeatSymbol; dsimp only; split <;> simp
@[simp] theorem repeatSymbol_policy (s : State) : (repeatSymbol s).policy = s.policy := by
  unfold repeatSymbol; dsimp only; split <;> simp
@[simp] theorem repeatSymbol_repeatT (s : State) : (repeatSymbol s).repeatT = s.repeatT := by
  unfold repeatSymbol; dsimp only; split <;> simp
@[simp] theorem repeatSymbol_ethresh (s : State) : (repeatSymbol s).ethresh = s.ethresh := by
  unfold repeatSymbol; dsimp only; split <;> simp
@[simp] theorem repeatSymbol_lastSymV (s : State) : (repeatSymbol s).lastSymV = s.lastSymV := by
  unfold repeatSymbol; dsimp only; split <;> simp
@[simp] theorem repeatSymbol_lastSym (s : State) : (repeatSymbol s).lastSym = s.lastSym := by
  unfold repeatSymbol; dsimp only; split <;> simp
@[simp] theorem repeatSymbol_pbits (s : State) : (repeatSymbol s).pbits = s.pbits := by
  unfold repeatSymbol; dsimp only; split <;> simp
@[simp] theorem repeatSymbol_pcnt (s : State) : (repeatSymbol s).pcnt = s.pcnt := by
  unfold repeatSymbol; dsimp only; split <;> simp
@[simp] theorem repeatSymbol_evalid (s : State) : (repeatSymbol s).evalid = s.evalid := by
  unfold repeatSymbol; dsimp only; split <;> simp
@[simp] theorem repeatSymbol_esilent (s : State) : (repeatSymbol s).esilent = s.esilent := by
  unfold repeatSymbol; dsimp only; split <;> simp
@[simp] theorem repeatSymbol_ebin (s : State) : (repeatSymbol s).ebin = s.ebin := by
  unfold repeatSymbol; dsimp only; split <;> simp
@[simp] theorem repeatSymbol_fill (s : State) : (repeatSymbol s).fill = s.fill := by
  unfold repeatSymbol; dsimp only; split <;> simp
@[simp] theorem repeatSymbol_fFault (s : State) : (repeatSymbol s).fFault = s.fFault := by
  unfold repeatSymbol; dsimp only; split <;> simp
@[simp] theorem repeatSymbol_fReject (s : State) : (repeatSymbol s).fReject = s.fReject := by
  unfold repeatSymbol; dsimp only; split <;> simp
@[simp] theorem repeatSymbol_fIllegal (s : State) : (repeatSymbol s).fIllegal = s.fIllegal := by
  unfold repeatSymbol; dsimp only; split <;> simp
@[simp] theorem repeatSymbol_fDropped (s : State) : (repeatSymbol s).fDropped = s.fDropped := by
  unfold repeatSymbol; dsimp only; split <;> simp
@[simp] theorem repeatSymbol_fb (s : State) : (repeatSymbol s).fb = s.fb := by
  unfold repeatSymbol; dsimp only; split <;> simp
@[simp] theorem repeatSymbol_resp (s : State) : (repeatSymbol s).resp = s.resp := by
  unfold repeatSymbol; dsimp only; split <;> simp
@[simp] theorem repeatSymbol_inp (s : State) : (repeatSymbol s).inp = s.inp := by
  unfold repeatSymbol; dsimp only; split <;> simp
@[simp] theorem repeatSymbol_draws (s : State) : (repeatSymbol s).draws = s.draws := by
  unfold repeatSymbol; dsimp only; split <;> simp
@[simp] theorem repeatSymbol_cfg (s : State) : (repeatSymbol s).cfg = s.cfg := by
  unfold repeatSymbol; dsimp only; split <;> simp

/-! ## textSymbol -/

@[simp] theorem textSymbol_session (c : BitVec 7) (s : State) : (textSymbol c s).session = s.session := by
  unfold textSymbol; split <;> simp
@[simp] theorem textSymbol_mode (c : BitVec 7) (s : State) : (textSymbol c s).mode = s.mode := by
  unfold textSymbol; split <;> simp
@[simp] theorem textSymbol_policy (c : BitVec 7) (s : State) : (textSymbol c s).policy = s.policy := by
  unfold textSymbol; split <;> simp
@[simp] theorem textSymbol_repeatT (c : BitVec 7) (s : State) : (textSymbol c s).repeatT = s.repeatT := by
  unfold textSymbol; split <;> simp
@[simp] theorem textSymbol_ethresh (c : BitVec 7) (s : State) : (textSymbol c s).ethresh = s.ethresh := by
  unfold textSymbol; split <;> simp
@[simp] theorem textSymbol_pbits (c : BitVec 7) (s : State) : (textSymbol c s).pbits = s.pbits := by
  unfold textSymbol; split <;> simp
@[simp] theorem textSymbol_pcnt (c : BitVec 7) (s : State) : (textSymbol c s).pcnt = s.pcnt := by
  unfold textSymbol; split <;> simp
@[simp] theorem textSymbol_evalid (c : BitVec 7) (s : State) : (textSymbol c s).evalid = s.evalid := by
  unfold textSymbol; split <;> simp
@[simp] theorem textSymbol_esilent (c : BitVec 7) (s : State) : (textSymbol c s).esilent = s.esilent := by
  unfold textSymbol; split <;> simp
@[simp] theorem textSymbol_ebin (c : BitVec 7) (s : State) : (textSymbol c s).ebin = s.ebin := by
  unfold textSymbol; split <;> simp
@[simp] theorem textSymbol_fill (c : BitVec 7) (s : State) : (textSymbol c s).fill = s.fill := by
  unfold textSymbol; split <;> simp
@[simp] theorem textSymbol_fFault (c : BitVec 7) (s : State) : (textSymbol c s).fFault = s.fFault := by
  unfold textSymbol; split <;> simp
@[simp] theorem textSymbol_fReject (c : BitVec 7) (s : State) : (textSymbol c s).fReject = s.fReject := by
  unfold textSymbol; split <;> simp
@[simp] theorem textSymbol_fIllegal (c : BitVec 7) (s : State) : (textSymbol c s).fIllegal = s.fIllegal := by
  unfold textSymbol; split <;> simp
@[simp] theorem textSymbol_fDropped (c : BitVec 7) (s : State) : (textSymbol c s).fDropped = s.fDropped := by
  unfold textSymbol; split <;> simp
@[simp] theorem textSymbol_fb (c : BitVec 7) (s : State) : (textSymbol c s).fb = s.fb := by
  unfold textSymbol; split <;> simp
@[simp] theorem textSymbol_resp (c : BitVec 7) (s : State) : (textSymbol c s).resp = s.resp := by
  unfold textSymbol; split <;> simp
@[simp] theorem textSymbol_inp (c : BitVec 7) (s : State) : (textSymbol c s).inp = s.inp := by
  unfold textSymbol; split <;> simp
@[simp] theorem textSymbol_draws (c : BitVec 7) (s : State) : (textSymbol c s).draws = s.draws := by
  unfold textSymbol; split <;> simp
@[simp] theorem textSymbol_cfg (c : BitVec 7) (s : State) : (textSymbol c s).cfg = s.cfg := by
  unfold textSymbol; split <;> simp

/-! ## decodeText -/

@[simp] theorem decodeText_session (r : CharMap) (s : State) : (decodeText r s).session = s.session := by
  cases r <;> simp [decodeText]
@[simp] theorem decodeText_mode (r : CharMap) (s : State) : (decodeText r s).mode = s.mode := by
  cases r <;> simp [decodeText]
@[simp] theorem decodeText_policy (r : CharMap) (s : State) : (decodeText r s).policy = s.policy := by
  cases r <;> simp [decodeText]
@[simp] theorem decodeText_repeatT (r : CharMap) (s : State) : (decodeText r s).repeatT = s.repeatT := by
  cases r <;> simp [decodeText]
@[simp] theorem decodeText_ethresh (r : CharMap) (s : State) : (decodeText r s).ethresh = s.ethresh := by
  cases r <;> simp [decodeText]
@[simp] theorem decodeText_pbits (r : CharMap) (s : State) : (decodeText r s).pbits = s.pbits := by
  cases r <;> simp [decodeText]
@[simp] theorem decodeText_pcnt (r : CharMap) (s : State) : (decodeText r s).pcnt = s.pcnt := by
  cases r <;> simp [decodeText]
@[simp] theorem decodeText_evalid (r : CharMap) (s : State) : (decodeText r s).evalid = s.evalid := by
  cases r <;> simp [decodeText]
@[simp] theorem decodeText_esilent (r : CharMap) (s : State) : (decodeText r s).esilent = s.esilent := by
  cases r <;> simp [decodeText]
@[simp] theorem decodeText_ebin (r : CharMap) (s : State) : (decodeText r s).ebin = s.ebin := by
  cases r <;> simp [decodeText]
@[simp] theorem decodeText_fill (r : CharMap) (s : State) : (decodeText r s).fill = s.fill := by
  cases r <;> simp [decodeText]
@[simp] theorem decodeText_fFault (r : CharMap) (s : State) : (decodeText r s).fFault = s.fFault := by
  cases r <;> simp [decodeText]
@[simp] theorem decodeText_fReject (r : CharMap) (s : State) : (decodeText r s).fReject = s.fReject := by
  cases r <;> simp [decodeText]
@[simp] theorem decodeText_fIllegal (r : CharMap) (s : State) : (decodeText r s).fIllegal = s.fIllegal := by
  cases r <;> simp [decodeText]
@[simp] theorem decodeText_fDropped (r : CharMap) (s : State) : (decodeText r s).fDropped = s.fDropped := by
  cases r <;> simp [decodeText]
@[simp] theorem decodeText_fb (r : CharMap) (s : State) : (decodeText r s).fb = s.fb := by
  cases r <;> simp [decodeText]
@[simp] theorem decodeText_resp (r : CharMap) (s : State) : (decodeText r s).resp = s.resp := by
  cases r <;> simp [decodeText]
@[simp] theorem decodeText_inp (r : CharMap) (s : State) : (decodeText r s).inp = s.inp := by
  cases r <;> simp [decodeText]
@[simp] theorem decodeText_draws (r : CharMap) (s : State) : (decodeText r s).draws = s.draws := by
  cases r <;> simp [decodeText]
@[simp] theorem decodeText_cfg (r : CharMap) (s : State) : (decodeText r s).cfg = s.cfg := by
  cases r <;> simp [decodeText]

/-! ## decodeBinary -/

@[simp] theorem decodeBinary_session (r : Option (BitVec 1)) (s : State) : (decodeBinary r s).session = s.session := by
  unfold decodeBinary; split
  · rfl
  · split <;> simp
@[simp] theorem decodeBinary_mode (r : Option (BitVec 1)) (s : State) : (decodeBinary r s).mode = s.mode := by
  unfold decodeBinary; split
  · rfl
  · split <;> simp
@[simp] theorem decodeBinary_policy (r : Option (BitVec 1)) (s : State) : (decodeBinary r s).policy = s.policy := by
  unfold decodeBinary; split
  · rfl
  · split <;> simp
@[simp] theorem decodeBinary_repeatT (r : Option (BitVec 1)) (s : State) : (decodeBinary r s).repeatT = s.repeatT := by
  unfold decodeBinary; split
  · rfl
  · split <;> simp
@[simp] theorem decodeBinary_ethresh (r : Option (BitVec 1)) (s : State) : (decodeBinary r s).ethresh = s.ethresh := by
  unfold decodeBinary; split
  · rfl
  · split <;> simp
@[simp] theorem decodeBinary_lastSymV (r : Option (BitVec 1)) (s : State) : (decodeBinary r s).lastSymV = s.lastSymV := by
  unfold decodeBinary; split
  · rfl
  · split <;> simp
@[simp] theorem decodeBinary_lastSym (r : Option (BitVec 1)) (s : State) : (decodeBinary r s).lastSym = s.lastSym := by
  unfold decodeBinary; split
  · rfl
  · split <;> simp
@[simp] theorem decodeBinary_rptCnt (r : Option (BitVec 1)) (s : State) : (decodeBinary r s).rptCnt = s.rptCnt := by
  unfold decodeBinary; split
  · rfl
  · split <;> simp
@[simp] theorem decodeBinary_lastOutV (r : Option (BitVec 1)) (s : State) : (decodeBinary r s).lastOutV = s.lastOutV := by
  unfold decodeBinary; split
  · rfl
  · split <;> simp
@[simp] theorem decodeBinary_lastOut (r : Option (BitVec 1)) (s : State) : (decodeBinary r s).lastOut = s.lastOut := by
  unfold decodeBinary; split
  · rfl
  · split <;> simp
@[simp] theorem decodeBinary_evalid (r : Option (BitVec 1)) (s : State) : (decodeBinary r s).evalid = s.evalid := by
  unfold decodeBinary; split
  · rfl
  · split <;> simp
@[simp] theorem decodeBinary_esilent (r : Option (BitVec 1)) (s : State) : (decodeBinary r s).esilent = s.esilent := by
  unfold decodeBinary; split
  · rfl
  · split <;> simp
@[simp] theorem decodeBinary_ebin (r : Option (BitVec 1)) (s : State) : (decodeBinary r s).ebin = s.ebin := by
  unfold decodeBinary; split
  · rfl
  · split <;> simp
@[simp] theorem decodeBinary_fill (r : Option (BitVec 1)) (s : State) : (decodeBinary r s).fill = s.fill := by
  unfold decodeBinary; split
  · rfl
  · split <;> simp
@[simp] theorem decodeBinary_fFault (r : Option (BitVec 1)) (s : State) : (decodeBinary r s).fFault = s.fFault := by
  unfold decodeBinary; split
  · rfl
  · split <;> simp
@[simp] theorem decodeBinary_fReject (r : Option (BitVec 1)) (s : State) : (decodeBinary r s).fReject = s.fReject := by
  unfold decodeBinary; split
  · rfl
  · split <;> simp
@[simp] theorem decodeBinary_fIllegal (r : Option (BitVec 1)) (s : State) : (decodeBinary r s).fIllegal = s.fIllegal := by
  unfold decodeBinary; split
  · rfl
  · split <;> simp
@[simp] theorem decodeBinary_fDropped (r : Option (BitVec 1)) (s : State) : (decodeBinary r s).fDropped = s.fDropped := by
  unfold decodeBinary; split
  · rfl
  · split <;> simp
@[simp] theorem decodeBinary_fb (r : Option (BitVec 1)) (s : State) : (decodeBinary r s).fb = s.fb := by
  unfold decodeBinary; split
  · rfl
  · split <;> simp
@[simp] theorem decodeBinary_resp (r : Option (BitVec 1)) (s : State) : (decodeBinary r s).resp = s.resp := by
  unfold decodeBinary; split
  · rfl
  · split <;> simp
@[simp] theorem decodeBinary_inp (r : Option (BitVec 1)) (s : State) : (decodeBinary r s).inp = s.inp := by
  unfold decodeBinary; split
  · rfl
  · split <;> simp
@[simp] theorem decodeBinary_draws (r : Option (BitVec 1)) (s : State) : (decodeBinary r s).draws = s.draws := by
  unfold decodeBinary; split
  · rfl
  · split <;> simp
@[simp] theorem decodeBinary_cfg (r : Option (BitVec 1)) (s : State) : (decodeBinary r s).cfg = s.cfg := by
  unfold decodeBinary; split
  · rfl
  · split <;> simp

/-! ## decodeFreq -/

@[simp] theorem decodeFreq_session (f : Freq) (s : State) : (decodeFreq f s).session = s.session := by
  unfold decodeFreq; split
  · simp
  · split <;> simp
@[simp] theorem decodeFreq_mode (f : Freq) (s : State) : (decodeFreq f s).mode = s.mode := by
  unfold decodeFreq; split
  · simp
  · split <;> simp
@[simp] theorem decodeFreq_policy (f : Freq) (s : State) : (decodeFreq f s).policy = s.policy := by
  unfold decodeFreq; split
  · simp
  · split <;> simp
@[simp] theorem decodeFreq_repeatT (f : Freq) (s : State) : (decodeFreq f s).repeatT = s.repeatT := by
  unfold decodeFreq; split
  · simp
  · split <;> simp
@[simp] theorem decodeFreq_ethresh (f : Freq) (s : State) : (decodeFreq f s).ethresh = s.ethresh := by
  unfold decodeFreq; split
  · simp
  · split <;> simp
@[simp] theorem decodeFreq_evalid (f : Freq) (s : State) : (decodeFreq f s).evalid = s.evalid := by
  unfold decodeFreq; split
  · simp
  · split <;> simp
@[simp] theorem decodeFreq_esilent (f : Freq) (s : State) : (decodeFreq f s).esilent = s.esilent := by
  unfold decodeFreq; split
  · simp
  · split <;> simp
@[simp] theorem decodeFreq_ebin (f : Freq) (s : State) : (decodeFreq f s).ebin = s.ebin := by
  unfold decodeFreq; split
  · simp
  · split <;> simp
@[simp] theorem decodeFreq_fill (f : Freq) (s : State) : (decodeFreq f s).fill = s.fill := by
  unfold decodeFreq; split
  · simp
  · split <;> simp
@[simp] theorem decodeFreq_fFault (f : Freq) (s : State) : (decodeFreq f s).fFault = s.fFault := by
  unfold decodeFreq; split
  · simp
  · split <;> simp
@[simp] theorem decodeFreq_fReject (f : Freq) (s : State) : (decodeFreq f s).fReject = s.fReject := by
  unfold decodeFreq; split
  · simp
  · split <;> simp
@[simp] theorem decodeFreq_fIllegal (f : Freq) (s : State) : (decodeFreq f s).fIllegal = s.fIllegal := by
  unfold decodeFreq; split
  · simp
  · split <;> simp
@[simp] theorem decodeFreq_fDropped (f : Freq) (s : State) : (decodeFreq f s).fDropped = s.fDropped := by
  unfold decodeFreq; split
  · simp
  · split <;> simp
@[simp] theorem decodeFreq_fb (f : Freq) (s : State) : (decodeFreq f s).fb = s.fb := by
  unfold decodeFreq; split
  · simp
  · split <;> simp
@[simp] theorem decodeFreq_resp (f : Freq) (s : State) : (decodeFreq f s).resp = s.resp := by
  unfold decodeFreq; split
  · simp
  · split <;> simp
@[simp] theorem decodeFreq_inp (f : Freq) (s : State) : (decodeFreq f s).inp = s.inp := by
  unfold decodeFreq; split
  · simp
  · split <;> simp
@[simp] theorem decodeFreq_draws (f : Freq) (s : State) : (decodeFreq f s).draws = s.draws := by
  unfold decodeFreq; split
  · simp
  · split <;> simp
@[simp] theorem decodeFreq_cfg (f : Freq) (s : State) : (decodeFreq f s).cfg = s.cfg := by
  unfold decodeFreq; split
  · simp
  · split <;> simp

/-! ## frameResult -/

@[simp] theorem frameResult_session (e : Est) (s : State) : (frameResult e s).session = s.session := by
  cases e <;> simp [frameResult]
@[simp] theorem frameResult_mode (e : Est) (s : State) : (frameResult e s).mode = s.mode := by
  cases e <;> simp [frameResult]
@[simp] theorem frameResult_policy (e : Est) (s : State) : (frameResult e s).policy = s.policy := by
  cases e <;> simp [frameResult]
@[simp] theorem frameResult_repeatT (e : Est) (s : State) : (frameResult e s).repeatT = s.repeatT := by
  cases e <;> simp [frameResult]
@[simp] theorem frameResult_ethresh (e : Est) (s : State) : (frameResult e s).ethresh = s.ethresh := by
  cases e <;> simp [frameResult]
@[simp] theorem frameResult_fFault (e : Est) (s : State) : (frameResult e s).fFault = s.fFault := by
  cases e <;> simp [frameResult]
@[simp] theorem frameResult_fReject (e : Est) (s : State) : (frameResult e s).fReject = s.fReject := by
  cases e <;> simp [frameResult]
@[simp] theorem frameResult_fIllegal (e : Est) (s : State) : (frameResult e s).fIllegal = s.fIllegal := by
  cases e <;> simp [frameResult]
@[simp] theorem frameResult_fDropped (e : Est) (s : State) : (frameResult e s).fDropped = s.fDropped := by
  cases e <;> simp [frameResult]
@[simp] theorem frameResult_fb (e : Est) (s : State) : (frameResult e s).fb = s.fb := by
  cases e <;> simp [frameResult]
@[simp] theorem frameResult_resp (e : Est) (s : State) : (frameResult e s).resp = s.resp := by
  cases e <;> simp [frameResult]
@[simp] theorem frameResult_inp (e : Est) (s : State) : (frameResult e s).inp = s.inp := by
  cases e <;> simp [frameResult]
@[simp] theorem frameResult_draws (e : Est) (s : State) : (frameResult e s).draws = s.draws := by
  cases e <;> simp [frameResult]
@[simp] theorem frameResult_cfg (e : Est) (s : State) : (frameResult e s).cfg = s.cfg := by
  cases e <;> simp [frameResult]

/-! ## pushSample -/

@[simp] theorem pushSample_session (x : Sample) (s : State) : (pushSample x s).session = s.session := by
  unfold pushSample; split_ifs
  · simp [frameComplete]
  · rfl
@[simp] theorem pushSample_mode (x : Sample) (s : State) : (pushSample x s).mode = s.mode := by
  unfold pushSample; split_ifs
  · simp [frameComplete]
  · rfl
@[simp] theorem pushSample_policy (x : Sample) (s : State) : (pushSample x s).policy = s.policy := by
  unfold pushSample; split_ifs
  · simp [frameComplete]
  · rfl
@[simp] theorem pushSample_repeatT (x : Sample) (s : State) : (pushSample x s).repeatT = s.repeatT := by
  unfold pushSample; split_ifs
  · simp [frameComplete]
  · rfl
@[simp] theorem pushSample_ethresh (x : Sample) (s : State) : (pushSample x s).ethresh = s.ethresh := by
  unfold pushSample; split_ifs
  · simp [frameComplete]
  · rfl
@[simp] theorem pushSample_fFault (x : Sample) (s : State) : (pushSample x s).fFault = s.fFault := by
  unfold pushSample; split_ifs
  · simp [frameComplete]
  · rfl
@[simp] theorem pushSample_fReject (x : Sample) (s : State) : (pushSample x s).fReject = s.fReject := by
  unfold pushSample; split_ifs
  · simp [frameComplete]
  · rfl
@[simp] theorem pushSample_fIllegal (x : Sample) (s : State) : (pushSample x s).fIllegal = s.fIllegal := by
  unfold pushSample; split_ifs
  · simp [frameComplete]
  · rfl
@[simp] theorem pushSample_fDropped (x : Sample) (s : State) : (pushSample x s).fDropped = s.fDropped := by
  unfold pushSample; split_ifs
  · simp [frameComplete]
  · rfl
@[simp] theorem pushSample_resp (x : Sample) (s : State) : (pushSample x s).resp = s.resp := by
  unfold pushSample; split_ifs
  · simp [frameComplete]
  · rfl
@[simp] theorem pushSample_inp (x : Sample) (s : State) : (pushSample x s).inp = s.inp := by
  unfold pushSample; split_ifs
  · simp [frameComplete]
  · rfl
@[simp] theorem pushSample_cfg (x : Sample) (s : State) : (pushSample x s).cfg = s.cfg := by
  unfold pushSample; split_ifs
  · simp [frameComplete]
  · rfl
@[simp] theorem pushSample_fb (x : Sample) (s : State) : (pushSample x s).fb = s.fb.write s.fill.toNat x := by
  unfold pushSample; split_ifs
  · simp [frameComplete]
  · rfl

/-! ## regWrite -/

@[simp] theorem regWrite_session (sel : BitVec 8) (v : RegWord) (s : State) : (regWrite sel v s).session = s.session := by
  unfold regWrite; split_ifs <;> rfl
@[simp] theorem regWrite_lastSymV (sel : BitVec 8) (v : RegWord) (s : State) : (regWrite sel v s).lastSymV = s.lastSymV := by
  unfold regWrite; split_ifs <;> rfl
@[simp] theorem regWrite_lastSym (sel : BitVec 8) (v : RegWord) (s : State) : (regWrite sel v s).lastSym = s.lastSym := by
  unfold regWrite; split_ifs <;> rfl
@[simp] theorem regWrite_rptCnt (sel : BitVec 8) (v : RegWord) (s : State) : (regWrite sel v s).rptCnt = s.rptCnt := by
  unfold regWrite; split_ifs <;> rfl
@[simp] theorem regWrite_lastOutV (sel : BitVec 8) (v : RegWord) (s : State) : (regWrite sel v s).lastOutV = s.lastOutV := by
  unfold regWrite; split_ifs <;> rfl
@[simp] theorem regWrite_lastOut (sel : BitVec 8) (v : RegWord) (s : State) : (regWrite sel v s).lastOut = s.lastOut := by
  unfold regWrite; split_ifs <;> rfl
@[simp] theorem regWrite_pbits (sel : BitVec 8) (v : RegWord) (s : State) : (regWrite sel v s).pbits = s.pbits := by
  unfold regWrite; split_ifs <;> rfl
@[simp] theorem regWrite_pcnt (sel : BitVec 8) (v : RegWord) (s : State) : (regWrite sel v s).pcnt = s.pcnt := by
  unfold regWrite; split_ifs <;> rfl
@[simp] theorem regWrite_evalid (sel : BitVec 8) (v : RegWord) (s : State) : (regWrite sel v s).evalid = s.evalid := by
  unfold regWrite; split_ifs <;> rfl
@[simp] theorem regWrite_esilent (sel : BitVec 8) (v : RegWord) (s : State) : (regWrite sel v s).esilent = s.esilent := by
  unfold regWrite; split_ifs <;> rfl
@[simp] theorem regWrite_ebin (sel : BitVec 8) (v : RegWord) (s : State) : (regWrite sel v s).ebin = s.ebin := by
  unfold regWrite; split_ifs <;> rfl
@[simp] theorem regWrite_fill (sel : BitVec 8) (v : RegWord) (s : State) : (regWrite sel v s).fill = s.fill := by
  unfold regWrite; split_ifs <;> rfl
@[simp] theorem regWrite_fb (sel : BitVec 8) (v : RegWord) (s : State) : (regWrite sel v s).fb = s.fb := by
  unfold regWrite; split_ifs <;> rfl
@[simp] theorem regWrite_out (sel : BitVec 8) (v : RegWord) (s : State) : (regWrite sel v s).out = s.out := by
  unfold regWrite; split_ifs <;> rfl
@[simp] theorem regWrite_resp (sel : BitVec 8) (v : RegWord) (s : State) : (regWrite sel v s).resp = s.resp := by
  unfold regWrite; split_ifs <;> rfl
@[simp] theorem regWrite_inp (sel : BitVec 8) (v : RegWord) (s : State) : (regWrite sel v s).inp = s.inp := by
  unfold regWrite; split_ifs <;> rfl
@[simp] theorem regWrite_draws (sel : BitVec 8) (v : RegWord) (s : State) : (regWrite sel v s).draws = s.draws := by
  unfold regWrite; split_ifs <;> rfl
@[simp] theorem regWrite_cfg (sel : BitVec 8) (v : RegWord) (s : State) : (regWrite sel v s).cfg = s.cfg := by
  unfold regWrite; split_ifs <;> rfl

/-! ## The cases -/

/-- A repeated symbol: the count, with or without the pause space (R139). -/
theorem repeatSymbol_cases (s : State) :
    (repeatSymbol s = { s with rptCnt := satInc s.cfg.cntMax s.rptCnt } ∧
      ¬(s.repeatT ≤ satInc s.cfg.cntMax s.rptCnt ∧ s.lastSym ≠ 0x20 ∧ ¬(s.lastOutV = true ∧ s.lastOut = 0x20))) ∨
    (repeatSymbol s = emitChar 0x20 { s with rptCnt := satInc s.cfg.cntMax s.rptCnt } ∧
      s.repeatT ≤ satInc s.cfg.cntMax s.rptCnt ∧ s.lastSym ≠ 0x20 ∧ ¬(s.lastOutV = true ∧ s.lastOut = 0x20)) := by
  unfold repeatSymbol
  by_cases h : s.repeatT ≤ satInc s.cfg.cntMax s.rptCnt ∧ s.lastSym ≠ 0x20 ∧ ¬(s.lastOutV = true ∧ s.lastOut = 0x20)
  · exact Or.inr ⟨if_pos h, h⟩
  · exact Or.inl ⟨if_neg h, h⟩

/-- A detected symbol: a repeat of the last one, or a new one (R139). -/
theorem textSymbol_cases (c : BitVec 7) (s : State) :
    (s.lastSymV = true ∧ c = s.lastSym ∧ textSymbol c s = repeatSymbol s) ∨
    (¬(s.lastSymV = true ∧ c = s.lastSym) ∧ textSymbol c s = newSymbol c s) := by
  unfold textSymbol
  by_cases h : s.lastSymV = true ∧ c = s.lastSym
  · exact Or.inl ⟨h.1, h.2, if_pos h⟩
  · exact Or.inr ⟨h, if_neg h⟩

/-- A detected bit: the eighth drains the buffer, any other is appended (R140). -/
theorem decodeBinary_cases (b : BitVec 1) (s : State) :
    (s.pcnt = 7 ∧ decodeBinary (some b) s = { emit .byte (s.pbits ++ b) s with pbits := 0, pcnt := 0 }) ∨
    (s.pcnt ≠ 7 ∧ decodeBinary (some b) s = { s with pbits := s.pbits.extractLsb' 0 6 ++ b, pcnt := s.pcnt + 1 }) := by
  by_cases h : s.pcnt = 7
  · exact Or.inl ⟨h, if_pos h⟩
  · exact Or.inr ⟨h, if_neg h⟩

/-- Decode(f): silence, an unmapped frequency, a character or a bit (R138, R141). -/
theorem decodeFreq_cases (f : Freq) (s : State) :
    (f.num = 0 ∧ decodeFreq f s = clearSymbol s) ∨
    (f.num ≠ 0 ∧ decodeFreq f s = s) ∨
    (f.num ≠ 0 ∧ s.mode = .text ∧ ∃ c, (f2c s.cfg f s.policy = .mapped c ∨ f2c s.cfg f s.policy = .subst c) ∧
      decodeFreq f s = textSymbol c s) ∨
    (f.num ≠ 0 ∧ s.mode = .binary ∧ ∃ b, f2b s.cfg f = some b ∧ decodeFreq f s = decodeBinary (some b) s) := by
  unfold decodeFreq
  by_cases h : f.num = 0
  · exact Or.inl ⟨h, if_pos h⟩
  · rw [if_neg h]
    right
    cases hm : s.mode with
    | text =>
      simp only
      cases hc : f2c s.cfg f s.policy with
      | nomap => exact Or.inl ⟨h, rfl⟩
      | mapped c => exact Or.inr (Or.inl ⟨h, trivial, c, Or.inl rfl, rfl⟩)
      | subst c => exact Or.inr (Or.inl ⟨h, trivial, c, Or.inr rfl, rfl⟩)
    | binary =>
      simp only
      cases hb : f2b s.cfg f with
      | none => exact Or.inl ⟨h, rfl⟩
      | some b => exact Or.inr (Or.inr ⟨h, trivial, b, rfl, rfl⟩)

/-- The codes that f2c answers: character codes, and 63 in place of an unmapped frequency (R91). -/
theorem f2c_range {c : Config} (hc : c.Legal) {f : Freq} {p : Policy} {x : BitVec 7}
    (h : f2c c f p = .mapped x ∨ f2c c f p = .subst x) : 32 ≤ x.toNat ∧ x.toNat ≤ 126 := by
  obtain ⟨_, _, _, _, _, _, h1, h2, h3, _⟩ := hc
  unfold f2c at h
  simp only [h1, h2, h3] at h
  split_ifs at h with hr
  · simp only [CharMap.mapped.injEq, or_false] at h
    rw [← h, BitVec.toNat_ofInt]
    omega
  · cases p
    · simp at h
    · simp only [reduceCtorEq, false_or, CharMap.subst.injEq] at h
      rw [← h]; decide

/-! ## Tokens -/

/-- Decode(f) appends at most one token (R142 (a)). -/
theorem decodeFreq_out (f : Freq) (s : State) :
    (decodeFreq f s).out = s.out ∨ ∃ t, (decodeFreq f s).out = s.out ++ [t] := by
  rcases decodeFreq_cases f s with ⟨_, h⟩ | ⟨_, h⟩ | ⟨_, hm, c, hc, h⟩ | ⟨_, hm, b, hb, h⟩ <;> rw [h]
  · exact Or.inl rfl
  · exact Or.inl rfl
  · rcases textSymbol_cases c s with ⟨_, _, h⟩ | ⟨_, h⟩ <;> rw [h]
    · rcases repeatSymbol_cases s with ⟨h, _⟩ | ⟨h, _⟩ <;> rw [h]
      · exact Or.inl rfl
      · exact Or.inr ⟨_, rfl⟩
    · exact Or.inr ⟨_, rfl⟩
  · rcases decodeBinary_cases b s with ⟨_, h⟩ | ⟨_, h⟩ <;> rw [h]
    · exact Or.inr ⟨_, rfl⟩
    · exact Or.inl rfl

/-- A sample appends at most one token (R142 (a)). -/
theorem pushSample_out (x : Sample) (s : State) :
    (pushSample x s).out = s.out ∨ ∃ t, (pushSample x s).out = s.out ++ [t] := by
  unfold pushSample frameComplete
  split_ifs
  · cases frameOutcome (storeSample x s) with
    | silent =>
      simpa [frameResult] using decodeFreq_out Freq.silence
        { takeDraw (storeSample x s) with evalid := true, fill := 0, esilent := true, ebin := 0 }
    | bin k =>
      simpa [frameResult] using decodeFreq_out (freqOfBin s.cfg k)
        { takeDraw (storeSample x s) with evalid := true, fill := 0, esilent := false, ebin := BitVec.ofNat 16 k }
  · exact Or.inl rfl

/-! ## satInc -/

theorem satInc_toNat {m : Nat} (hm : m ≤ 255) (c : BitVec 8) : (satInc m c).toNat = min (c.toNat + 1) m := by
  unfold satInc
  rw [BitVec.toNat_ofNat]
  omega

/-! ## Every command answers -/

/-- When a command is refused, and with which code (R172, R174). -/
def Refused (i : Instr) (k : RespCode) (s : State) : Prop :=
  (i = .start ∧ s.session = .running ∧ k = .alreadyRunning) ∨
  ((i = .stop ∨ i = .fault ∨ (∃ x, i = .sample x) ∨ ∃ fw, i = .freq fw) ∧ s.session ≠ .running ∧ k = .notRunning) ∨
  (∃ sel, i = .rdreg sel ∧ regRead sel s = none ∧ k = .badSel) ∨
  (∃ sel v, i = .wrreg sel v ∧ wrregRefusal sel v s = some k)

/-- What `exec` can answer: a query or a read responds and changes nothing else; the other commands are refused by
`raiseError`, or have their effect and respond OK. -/
theorem exec_cases (i : Instr) (s : State) :
    (∃ k d, isRefusal k = false ∧ exec i s = .next (respond k d s) ∧
      ((∃ c, i = .c2f c) ∨ (∃ fw, i = .f2c fw) ∨ (∃ b, i = .b2f b) ∨ (∃ fw, i = .f2b fw) ∨ (∃ sel, i = .rdreg sel))) ∨
    (∃ k, isRefusal k = true ∧ Refused i k s ∧ exec i s = .next (raiseError (some i) k s)) ∨
    (i = .start ∧ s.session ≠ .running ∧ exec i s = .next (respond .ok 0 { clearSession s with session := .running })) ∨
    (i = .stop ∧ s.session = .running ∧
      exec i s = .next (respond .ok 0 (emit .done 0x00 { clearSession s with session := .stopped }))) ∨
    (i = .fault ∧ s.session = .running ∧
      exec i s = .next (respond .ok 0 (emit .done 0x01 { clearSession (setFlag .fault s) with session := .stopped }))) ∨
    (∃ x, i = .sample x ∧ s.session = .running ∧ exec i s = .next (respond .ok 0 (pushSample x s))) ∨
    (∃ fw, i = .freq fw ∧ s.session = .running ∧ exec i s = .next (respond .ok 0 (decodeFreq (freqOfWord fw) s))) ∨
    (∃ sel v, i = .wrreg sel v ∧ wrregRefusal sel v s = none ∧ exec i s = .next (respond .ok 0 (regWrite sel v s))) := by
  cases i with
  | start =>
    by_cases h : s.session = .running
    · exact Or.inr (Or.inl ⟨.alreadyRunning, rfl, Or.inl ⟨rfl, h, rfl⟩, if_pos h⟩)
    · exact Or.inr (Or.inr (Or.inl ⟨rfl, h, if_neg h⟩))
  | stop =>
    by_cases h : s.session = .running
    · exact Or.inr (Or.inr (Or.inr (Or.inl ⟨rfl, h, if_pos h⟩)))
    · exact Or.inr (Or.inl ⟨.notRunning, rfl, Or.inr (Or.inl ⟨by simp, h, rfl⟩), if_neg h⟩)
  | fault =>
    by_cases h : s.session = .running
    · exact Or.inr (Or.inr (Or.inr (Or.inr (Or.inl ⟨rfl, h, if_pos h⟩))))
    · exact Or.inr (Or.inl ⟨.notRunning, rfl, Or.inr (Or.inl ⟨by simp, h, rfl⟩), if_neg h⟩)
  | sample x =>
    by_cases h : s.session = .running
    · exact Or.inr (Or.inr (Or.inr (Or.inr (Or.inr (Or.inl ⟨x, rfl, h, if_pos h⟩)))))
    · exact Or.inr (Or.inl ⟨.notRunning, rfl, Or.inr (Or.inl ⟨by simp, h, rfl⟩), if_neg h⟩)
  | freq fw =>
    by_cases h : s.session = .running
    · exact Or.inr (Or.inr (Or.inr (Or.inr (Or.inr (Or.inr (Or.inl ⟨fw, rfl, h, if_pos h⟩))))))
    · exact Or.inr (Or.inl ⟨.notRunning, rfl, Or.inr (Or.inl ⟨by simp, h, rfl⟩), if_neg h⟩)
  | c2f c =>
    left
    show ∃ k d, isRefusal k = false ∧ execC2f c s = _ ∧ _
    unfold execC2f
    split
    · exact ⟨_, _, rfl, rfl, by simp⟩
    · exact ⟨_, _, rfl, rfl, by simp⟩
  | f2c fw =>
    left
    show ∃ k d, isRefusal k = false ∧ execF2c fw s = _ ∧ _
    unfold execF2c
    split
    · exact ⟨_, _, rfl, rfl, by simp⟩
    · exact ⟨_, _, rfl, rfl, by simp⟩
    · exact ⟨_, _, rfl, rfl, by simp⟩
  | b2f b => exact Or.inl ⟨_, _, rfl, rfl, by simp⟩
  | f2b fw =>
    left
    show ∃ k d, isRefusal k = false ∧ execF2b fw s = _ ∧ _
    unfold execF2b
    split
    · exact ⟨_, _, rfl, rfl, by simp⟩
    · exact ⟨_, _, rfl, rfl, by simp⟩
  | rdreg sel =>
    cases h : regRead sel s with
    | some v => exact Or.inl ⟨.ok, v, rfl, by simp only [exec, execRdreg, h], by simp⟩
    | none => exact Or.inr (Or.inl ⟨.badSel, rfl, Or.inr (Or.inr (Or.inl ⟨sel, rfl, h, rfl⟩)), by simp only [exec, execRdreg, h]⟩)
  | wrreg sel v =>
    cases h : wrregRefusal sel v s with
    | some k =>
      refine Or.inr (Or.inl ⟨k, ?_, Or.inr (Or.inr (Or.inr ⟨sel, v, rfl, h⟩)), by simp only [exec, execWrreg, h]⟩)
      unfold wrregRefusal at h
      split_ifs at h <;> (obtain rfl := Option.some.inj h; decide)
    | none => exact Or.inr (Or.inr (Or.inr (Or.inr (Or.inr (Or.inr (Or.inr ⟨sel, v, rfl, h, by simp only [exec, execWrreg, h]⟩))))))

/-- What a command word can do: its command, or the refusal ILLEGAL. -/
theorem runWord_cases (w : CmdWord) (s : State) :
    (decode w = none ∧ runWord w s = .next (raiseError none .illegal s)) ∨
    (∃ i, decode w = some i ∧ runWord w s = exec i s) := by
  unfold runWord
  cases h : decode w with
  | none => exact Or.inl ⟨rfl, rfl⟩
  | some i => exact Or.inr ⟨i, rfl, rfl⟩

/-- An accepted WRREG writes CONFIG, ETHRESH or FLAGS (R161). -/
theorem regWrite_cases {sel : BitVec 8} {v : RegWord} {s : State} (h : wrregRefusal sel v s = none) :
    (sel = 0x01 ∧ s.session ≠ .running ∧ legalConfig v = true ∧ regWrite sel v s = setConfig v s) ∨
    (sel = 0x02 ∧ s.session ≠ .running ∧ regWrite sel v s = { s with ethresh := v }) ∨
    (sel = 0x07 ∧ legalFlags v = true ∧ regWrite sel v s = clearFlags v s) := by
  have hs : ∀ x : BitVec 8, reservedSel x = false → readOnlySel x = false → x = 0x01 ∨ x = 0x02 ∨ x = 0x07 := by decide
  unfold wrregRefusal at h
  split_ifs at h with h1 h2 h3 h4 h5
  rcases hs sel (by simpa using h1) (by simpa using h2) with rfl | rfl | rfl
  · exact Or.inl ⟨rfl, fun hr => h3 ⟨rfl, hr⟩, by simpa using h4, rfl⟩
  · exact Or.inr (Or.inl ⟨rfl, fun hr => h3 ⟨rfl, hr⟩, rfl⟩)
  · exact Or.inr (Or.inr ⟨rfl, by simpa using h5, rfl⟩)

end Sys2Proof.Machine
end

