-- ==== Sys2Proof/Laws/PerInstr.lean ====
section
/-! SUPPORT. Statements made per instruction: the word that encodes a command matches the row of that command in
spec/opcode_table.json, and no other row (R71, R73). -/

namespace Sys2Proof.Laws.Encoding

/-- The word of the command matches its own row, and of the table's rows no other one. -/
def Statement (i : Instr) : Prop := ∀ r ∈ opcodeTable, r.matches (encode i) = true ↔ r = tableRow i

/-- A word with RSVD 0 matches a row of the table when its OPC, SEL and DATA match the row's fields. -/
theorem matches_mkWord (opc sel o s mo ms : BitVec 8) (data d md : RegWord) :
    TableRow.matches ⟨mkWord o s d, mo ++ ms ++ 0xFFFF#16 ++ md⟩ (mkWord opc sel data) = true ↔
      opc &&& mo = o ∧ sel &&& ms = s ∧ data &&& md = d := by
  unfold TableRow.matches
  rw [decide_eq_true_iff, mkWord_and, mkWord_inj]

/-- The rows as the fields of their match and mask words. -/
theorem opcodeTable_fields : opcodeTable =
    [⟨mkWord 0x01 0 0, 0xFF#8 ++ 0xFF#8 ++ 0xFFFF#16 ++ 0xFFFFFFFF#32⟩,
     ⟨mkWord 0x02 0 0, 0xFF#8 ++ 0xFF#8 ++ 0xFFFF#16 ++ 0xFFFFFFFF#32⟩,
     ⟨mkWord 0x03 0 0, 0xFF#8 ++ 0xFF#8 ++ 0xFFFF#16 ++ 0xFFFFFFFF#32⟩,
     ⟨mkWord 0x10 0 0, 0xFF#8 ++ 0xFF#8 ++ 0xFFFF#16 ++ 0xFFFF0000#32⟩,
     ⟨mkWord 0x11 0 0, 0xFF#8 ++ 0xFF#8 ++ 0xFFFF#16 ++ 0x00000000#32⟩,
     ⟨mkWord 0x20 0 0, 0xFF#8 ++ 0xFF#8 ++ 0xFFFF#16 ++ 0xFFFFFF00#32⟩,
     ⟨mkWord 0x21 0 0, 0xFF#8 ++ 0xFF#8 ++ 0xFFFF#16 ++ 0x00000000#32⟩,
     ⟨mkWord 0x22 0 0, 0xFF#8 ++ 0xFF#8 ++ 0xFFFF#16 ++ 0xFFFFFFFE#32⟩,
     ⟨mkWord 0x23 0 0, 0xFF#8 ++ 0xFF#8 ++ 0xFFFF#16 ++ 0x00000000#32⟩,
     ⟨mkWord 0x30 0 0, 0xFF#8 ++ 0x00#8 ++ 0xFFFF#16 ++ 0xFFFFFFFF#32⟩,
     ⟨mkWord 0x31 0 0, 0xFF#8 ++ 0x00#8 ++ 0xFFFF#16 ++ 0x00000000#32⟩] := by decide

/-- The rows of the table differ in their OPC, so the row of a command is decided by its OPC. -/
theorem statement_of {i : Instr} (opc : BitVec 8) (row : TableRow) (ho : opcodeOf i = opc) (hrow : tableRow i = row)
    (hm : row.matches (encode i) = true) (hall : ∀ r ∈ opcodeTable, opcField r.matchWord = opc → r = row) :
    Statement i := by
  subst ho hrow
  intro r hr
  refine ⟨fun h => hall r hr ?_, fun h => h ▸ hm⟩
  rw [opcodeTable_fields] at hr
  fin_cases hr <;>
    (obtain ⟨h1, _, _⟩ := (matches_mkWord _ _ _ _ _ _ _ _ _).mp h
     rw [opcField_mkWord, ← h1]
     exact BitVec.and_allOnes)

theorem start : Statement .start := statement_of _ _ rfl rfl (by decide) (by decide)
theorem stop : Statement .stop := statement_of _ _ rfl rfl (by decide) (by decide)
theorem fault : Statement .fault := statement_of _ _ rfl rfl (by decide) (by decide)
theorem sample (x : Sample) : Statement (.sample x) :=
  statement_of 0x10 ⟨mkWord 0x10 0 0, 0xFF#8 ++ 0xFF#8 ++ 0xFFFF#16 ++ 0xFFFF0000#32⟩ rfl rfl
    ((matches_mkWord _ _ _ _ _ _ _ _ _).mpr ⟨(by decide : (0x10#8 &&& 0xFF#8) = 0x10#8), (by decide : (0#8 &&& 0xFF#8) = 0#8), 
      (zmask_sample_iff _).mpr (congrArg _ (extract_setWidth 16 (by omega) x))⟩)
    (by decide)
theorem freq (fw : RegWord) : Statement (.freq fw) :=
  statement_of 0x11 ⟨mkWord 0x11 0 0, 0xFF#8 ++ 0xFF#8 ++ 0xFFFF#16 ++ 0x00000000#32⟩ rfl rfl
    ((matches_mkWord _ _ _ _ _ _ _ _ _).mpr ⟨(by decide : (0x11#8 &&& 0xFF#8) = 0x11#8), (by decide : (0#8 &&& 0xFF#8) = 0#8), BitVec.and_zero⟩)
    (by decide)
theorem c2f (code : BitVec 8) : Statement (.c2f code) :=
  statement_of 0x20 ⟨mkWord 0x20 0 0, 0xFF#8 ++ 0xFF#8 ++ 0xFFFF#16 ++ 0xFFFFFF00#32⟩ rfl rfl
    ((matches_mkWord _ _ _ _ _ _ _ _ _).mpr ⟨(by decide : (0x20#8 &&& 0xFF#8) = 0x20#8), (by decide : (0#8 &&& 0xFF#8) = 0#8), 
      (zmask_c2f_iff _).mpr (congrArg _ (extract_setWidth 8 (by omega) code))⟩)
    (by decide)
theorem f2c (fw : RegWord) : Statement (.f2c fw) :=
  statement_of 0x21 ⟨mkWord 0x21 0 0, 0xFF#8 ++ 0xFF#8 ++ 0xFFFF#16 ++ 0x00000000#32⟩ rfl rfl
    ((matches_mkWord _ _ _ _ _ _ _ _ _).mpr ⟨(by decide : (0x21#8 &&& 0xFF#8) = 0x21#8), (by decide : (0#8 &&& 0xFF#8) = 0#8), BitVec.and_zero⟩)
    (by decide)
theorem b2f (bit : BitVec 1) : Statement (.b2f bit) :=
  statement_of 0x22 ⟨mkWord 0x22 0 0, 0xFF#8 ++ 0xFF#8 ++ 0xFFFF#16 ++ 0xFFFFFFFE#32⟩ rfl rfl
    ((matches_mkWord _ _ _ _ _ _ _ _ _).mpr ⟨(by decide : (0x22#8 &&& 0xFF#8) = 0x22#8), (by decide : (0#8 &&& 0xFF#8) = 0#8), 
      (zmask_b2f_iff _).mpr (congrArg _ (extract_setWidth 1 (by omega) bit))⟩)
    (by decide)
theorem f2b (fw : RegWord) : Statement (.f2b fw) :=
  statement_of 0x23 ⟨mkWord 0x23 0 0, 0xFF#8 ++ 0xFF#8 ++ 0xFFFF#16 ++ 0x00000000#32⟩ rfl rfl
    ((matches_mkWord _ _ _ _ _ _ _ _ _).mpr ⟨(by decide : (0x23#8 &&& 0xFF#8) = 0x23#8), (by decide : (0#8 &&& 0xFF#8) = 0#8), BitVec.and_zero⟩)
    (by decide)
theorem rdreg (sel : BitVec 8) : Statement (.rdreg sel) :=
  statement_of 0x30 ⟨mkWord 0x30 0 0, 0xFF#8 ++ 0x00#8 ++ 0xFFFF#16 ++ 0xFFFFFFFF#32⟩ rfl rfl
    ((matches_mkWord _ _ _ _ _ _ _ _ _).mpr ⟨(by decide : (0x30#8 &&& 0xFF#8) = 0x30#8), BitVec.and_zero, (by decide : (0#32 &&& 0xFFFFFFFF#32) = 0#32)⟩)
    (by decide)
theorem wrreg (sel : BitVec 8) (val : RegWord) : Statement (.wrreg sel val) :=
  statement_of 0x31 ⟨mkWord 0x31 0 0, 0xFF#8 ++ 0x00#8 ++ 0xFFFF#16 ++ 0x00000000#32⟩ rfl rfl
    ((matches_mkWord _ _ _ _ _ _ _ _ _).mpr ⟨(by decide : (0x31#8 &&& 0xFF#8) = 0x31#8), BitVec.and_zero, BitVec.and_zero⟩)
    (by decide)

end Sys2Proof.Laws.Encoding
end

