-- ==== Sys2Proof/Laws/Words.lean ====
section
/-! SUPPORT. The fields of response words and tokens (R75, R77). -/

namespace Sys2Proof.Machine

/-- A concatenation as a shift and an or, at any width. -/
theorem setWidth_append_eq_or {a b : ℕ} (n : ℕ) (x : BitVec a) (y : BitVec b) :
    (x ++ y).setWidth n = x.setWidth n <<< b ||| y.setWidth n := by
  apply BitVec.eq_of_getLsbD_eq
  intro i hi
  simp only [BitVec.getLsbD_setWidth, BitVec.getLsbD_append, BitVec.getLsbD_or, BitVec.getLsbD_shiftLeft, hi, decide_true,
    Bool.true_and]
  by_cases h : i < b
  · simp [h]
  · simp [h, show i - b < n by omega, BitVec.getLsbD_of_ge y i (by omega)]

@[simp] theorem respCode_mkResponse (k : RespCode) (d : RegWord) : respCode (mkResponse k d) = codeBits k := by
  apply BitVec.eq_of_getLsbD_eq
  intro i hi
  simp only [respCode, mkResponse, BitVec.getLsbD_extractLsb', BitVec.getLsbD_append, hi]
  simp [hi]

@[simp] theorem respData_mkResponse (k : RespCode) (d : RegWord) : respData (mkResponse k d) = d := by
  apply BitVec.eq_of_getLsbD_eq
  intro i hi
  simp only [respData, mkResponse, BitVec.getLsbD_extractLsb', BitVec.getLsbD_append, hi]
  simp [hi]

@[simp] theorem tokenKind_mkToken (k : TokenKind) (v : BitVec 8) : tokenKind (mkToken k v) = kindBits k := by
  apply BitVec.eq_of_getLsbD_eq
  intro i hi
  simp only [tokenKind, mkToken, BitVec.getLsbD_extractLsb', BitVec.getLsbD_append, hi]
  simp

@[simp] theorem tokenValue_mkToken (k : TokenKind) (v : BitVec 8) : tokenValue (mkToken k v) = v := by
  apply BitVec.eq_of_getLsbD_eq
  intro i hi
  simp only [tokenValue, mkToken, BitVec.getLsbD_extractLsb', BitVec.getLsbD_append, hi]
  simp [hi]

/-- Two codes have the same bits only if they are the same (R171). -/
theorem codeBits_inj {k k' : RespCode} (h : codeBits k = codeBits k') : k = k' := by
  revert h; cases k <;> cases k' <;> decide

/-- A response word is its code and its data (R75). -/
theorem mkResponse_inj {k k' : RespCode} {d d' : RegWord} (h : mkResponse k d = mkResponse k' d') : k = k' ∧ d = d' := by
  have h1 := congrArg respCode h
  have h2 := congrArg respData h
  simp only [respCode_mkResponse, respData_mkResponse] at h1 h2
  exact ⟨codeBits_inj h1, h2⟩

/-- Every response word that the block makes is legal (R75, R171). -/
theorem legalResponse_mkResponse (k : RespCode) (d : RegWord) : legalResponse (mkResponse k d) = true := by
  have h1 : (mkResponse k d).extractLsb' 36 28 = 0#28 := by
    apply BitVec.eq_of_getLsbD_eq
    intro i hi
    simp only [mkResponse, BitVec.getLsbD_extractLsb', BitVec.getLsbD_append, hi]
    simp [show ¬ 36 + i < 32 by omega, show ¬ 36 + i - 32 < 4 by omega]
  unfold legalResponse
  rw [h1, respCode_mkResponse]
  cases k <;> rfl

/-- A CHAR token of a character code, a BYTE token and the two DONE tokens are legal (R77). -/
theorem legalToken_mkToken {k : TokenKind} {v : BitVec 8}
    (h : k = .byte ∨ (k = .char ∧ 32 ≤ v.toNat ∧ v.toNat ≤ 126) ∨ (k = .done ∧ v.toNat ≤ 1)) :
    legalToken (mkToken k v) = true := by
  unfold legalToken
  rw [tokenKind_mkToken, tokenValue_mkToken]
  rcases h with rfl | ⟨rfl, h1, h2⟩ | ⟨rfl, h⟩
  · rfl
  · simp [kindBits, h1, h2]
  · simp [kindBits, h]

end Sys2Proof.Machine
end

