-- ==== Sys2Proof/Tests/Slice0.lean ====
section
/-! SUPPORT. The model's own tests: what an assembler refuses (R79), words written out from the encoding table (R72,
R73), one-step vectors of spec/95_test_vectors.md, and a witness for every statement that has hypotheses. The expected
results are the spec's own; each test names its vector or its rule. -/

namespace Sys2Proof.Tests

open Sys2Proof.Machine

/-! ## Helpers -/

/-- The response code and data of a step that answered, as the spec numbers them. -/
def answer (o : Host.Outcome State Fault Refusal) : Option (BitVec 4 × RegWord) :=
  match o with
  | .next t => t.resp.getLast?.map fun r => (respCode r, respData r)
  | .fault _ => none
  | .refused _ => none

/-- What a function of the next state gives. -/
def onNext {α : Type} (f : State → α) (o : Host.Outcome State Fault Refusal) : Option α :=
  match o with
  | .next t => some (f t)
  | .fault _ => none
  | .refused _ => none

/-- A session in text mode, right after START from reset. -/
def textSession : State := { State.reset with session := .running }

/-- The session after `n` detections of `A` in a row. -/
def afterA (n : BitVec 8) : State :=
  { textSession with lastSymV := true, lastSym := 0x41, rptCnt := n, lastOutV := true, lastOut := 0x41 }

/-- A session in binary mode with `n` bits pending. -/
def binarySession (bits : BitVec 7) (n : BitVec 3) : State :=
  { State.reset with session := .running, mode := .binary, pbits := bits, pcnt := n }

/-- A legal configuration with frames of four samples: 40 Hz, so bin k is at 10·k Hz. -/
def smallConfig : Config := { Config.default with pRate := 40, pN := 4 }

/-- A legal configuration with a tolerant estimator, P_ESTTOL = 1. -/
def tolerantConfig : Config := { smallConfig with estTolNum := 1 }

/-- A legal configuration whose P_ESTTOL is a real number of which nothing is known. -/
def freeConfig : Config := { smallConfig with estTolFree := some 0 }

/-- A session with three of four samples in FB: 0, 16384, −16384. -/
def lastSample (c : Config) : State :=
  { State.resetWith smallConfig (by decide) with cfg := c, session := .running, fill := 3, fb := [(1, 0x4000), (2, 0xC000)] }

/-- Reset, but with the four flags set. -/
def allFlags : State := { State.reset with fFault := true, fReject := true, fIllegal := true, fDropped := true }

/-- A frame of the small configuration. -/
def smallFrame (ethresh : Nat) (samples : List Int) : Frame := ⟨smallConfig, ethresh, samples⟩

/-! ## Ill-formed lines are refused (R79) -/

theorem test_sample_out_of_range :
    (AsmLine.sample 32768).wellFormed = false ∧ (AsmLine.sample (-32769)).wellFormed = false := by decide
theorem test_freq_not_a_multiple : (AsmLine.freq (.hz 1 3)).wellFormed = false := by decide
theorem test_freq_no_number : (AsmLine.f2c (.hz 1 0)).wellFormed = false := by decide
theorem test_freq_too_large : (AsmLine.f2b (.hz 16777216 1)).wellFormed = false := by decide
theorem test_raw_too_large : (AsmLine.freq (.raw (2 ^ 32))).wellFormed = false := by decide
theorem test_code_too_large : (AsmLine.c2f (.number 256)).wellFormed = false := by decide
theorem test_code_no_ascii : (AsmLine.c2f (.char (Char.ofNat 200))).wellFormed = false := by decide
theorem test_bit_too_large : (AsmLine.b2f 2).wellFormed = false := by decide
theorem test_register_too_large : (AsmLine.rdreg (.number 256)).wellFormed = false := by decide
theorem test_wrreg_register_too_large : (AsmLine.wrreg (.number 256) 0).wellFormed = false := by decide
theorem test_wrreg_value_too_large : (AsmLine.wrreg (.name .config) (2 ^ 32)).wellFormed = false := by decide
theorem test_refused_line_has_no_word : assemble (.b2f 2) = none := by decide

/-! ## Assembly text (R79, R80) -/

/-- `FREQ 1645.5` is 0x1100_0000_0006_6D80 (T8). -/
theorem test_text_freq : assembleText Config.default "FREQ 1645.5 ; q = 64.55".toList = some [0x1100000000066D80] := by
  decide
/-- `WRREG CONFIG, 0x301` is 0x3101_0000_0000_0301 (P2). -/
theorem test_text_wrreg : assembleText Config.default "WRREG CONFIG, 0x301".toList = some [0x3101000000000301] := by decide
/-- `SAMPLE −1` is 0x1000_0000_0000_FFFF (R73). -/
theorem test_text_sample : assembleText Config.default "SAMPLE -1".toList = some [0x100000000000FFFF] := by decide
/-- `C2F 'z'` is 0x2000_0000_0000_007A (P4). -/
theorem test_text_c2f :
    assembleText Config.default ("C2F ".toList ++ [quote, 'z', quote]) = some [0x200000000000007A] := by decide
/-- `SENDC 65` is `FREQ 1650`, `SETCFG 0, 1, 5` is `WRREG CONFIG, 0x502` (R80). -/
theorem test_text_pseudo :
    assembleText Config.default "SENDC 65".toList = some [0x1100000000067200] ∧
    assembleText Config.default "SETCFG 0, 1, 5".toList = some [0x3101000000000502] := by decide

/-! ## Words written out from the encoding (R70 to R73) -/

theorem test_decode_start : decode 0x0100000000000000 = some .start := by decide
theorem test_decode_stop : decode 0x0200000000000000 = some .stop := by decide
theorem test_decode_fault : decode 0x0300000000000000 = some .fault := by decide
theorem test_decode_sample :
    decode 0x1000000000008000 = some (.sample (-32768)) ∧ decode 0x100000000000FFFF = some (.sample (-1)) := by decide
theorem test_decode_freq : decode 0x11000000FFFFFFFF = some (.freq 0xFFFFFFFF) := by decide
theorem test_decode_c2f : decode 0x20000000000000FF = some (.c2f 0xFF) := by decide
theorem test_decode_f2c : decode 0x210000000003E800 = some (.f2c 0x3E800) := by decide
theorem test_decode_b2f : decode 0x2200000000000001 = some (.b2f 1) := by decide
theorem test_decode_f2b : decode 0x230000000007D000 = some (.f2b 0x7D000) := by decide
theorem test_decode_rdreg : decode 0x30FF000000000000 = some (.rdreg 0xFF) := by decide
theorem test_decode_wrreg : decode 0x310700000000000F = some (.wrreg 0x07 0xF) := by decide
/-- V8.1 to V8.6: each of the four tests of R71 refuses a word. -/
theorem test_decode_illegal :
    illegal? 0x0000000000000000 = some .opcode ∧ illegal? 0x0400000000000000 = some .opcode ∧
    illegal? 0xFF00000000000000 = some .opcode ∧ illegal? 0x0100000000000001 = some .mustBeZero ∧
    illegal? 0x0101000000000000 = some .sel ∧ illegal? 0x0100000100000000 = some .rsvd := by decide
/-- V8.8 to V8.12, V8.14 to V8.16. -/
theorem test_decode_illegal_operands :
    decode 0x10000000FFFFFFFF = none ∧ decode 0x1000000000010000 = none ∧ decode 0x2000000000000100 = none ∧
    decode 0x2200000000000002 = none ∧ decode 0x3000000000000001 = none ∧ decode 0x3001000100000000 = none ∧
    decode 0x3101000100000300 = none ∧ decode 0x1101000000067200 = none := by decide
/-- The least significant byte of a word comes first on a byte-wide link (R52). -/
theorem test_link : decodeLink [0x01, 0x03, 0, 0, 0, 0, 0x01, 0x31, 0xAA] = some (.wrreg 0x01 0x301, [0xAA]) := by decide

/-! ## One step each (spec/95_test_vectors.md) -/

/-- V6.6: a START while RUNNING. -/
theorem test_start_rejected :
    answer (exec .start (afterA 2)) = some (0x1, 0) ∧ onNext (fun t => (t.fReject, t.rptCnt)) (exec .start (afterA 2)) =
      some (true, 2) := by decide
/-- V6.11: START from STOPPED. -/
theorem test_start_again : onNext State.session (exec .start { State.reset with session := .stopped }) = some .running := by
  decide
/-- V6.8: STOP emits one DONE and clears DEC. -/
theorem test_stop : onNext (fun t => (t.out, decWord t, t.session)) (exec .stop (afterA 1)) =
    some ([0x0300], 0, .stopped) := by decide
/-- V6.9: no second DONE. -/
theorem test_stop_again : onNext State.out (exec .stop { State.reset with session := .stopped }) = some [] := by decide
/-- V6.12: FAULT in a session. -/
theorem test_fault : onNext (fun t => (t.out, flagsWord t)) (exec .fault textSession) = some ([0x0301], 0x1) := by decide
/-- V6.2: FAULT outside a session. -/
theorem test_fault_idle : answer (exec .fault State.reset) = some (0x2, 0) ∧
    onNext (fun t => (t.out, flagsWord t)) (exec .fault State.reset) = some ([], 0x1) := by decide
/-- V8.7: a SAMPLE outside a session. -/
theorem test_sample_dropped : answer (exec (.sample (-1)) State.reset) = some (0x2, 0) ∧
    onNext flagsWord (exec (.sample (-1)) State.reset) = some 0x8 := by decide
/-- The sample that completes the frame 0, 16384, −16384, 0 under the symmetric window, of which the hand calculation
gives |X[0]| = 0, |X[1]| = 0.75·√2/2 and |X[2]| = 0.75 (R111 to R116, R136): EST is BIN(2) and FILL is 0. -/
theorem test_sample_completes_frame :
    onNext (fun t => (estWord t, t.fill)) (exec (.sample 0) (lastSample smallConfig)) = some (0x00020001, 0) := by
  decide +kernel
/-- T1: the third `A` in a row emits the space, and S5's count is 3. -/
theorem test_freq_repeat : onNext (fun t => (t.out, decWord t)) (exec (.freq 0x67200) (afterA 2)) =
    some ([0x0120], 0x00A003C1) := by decide
/-- T20: the eighth bit of 0100 0001. -/
theorem test_freq_byte : onNext (fun t => (t.out, bitsWord t)) (exec (.freq 0x7D000) (binarySession 0x20 7)) =
    some ([0x0241], 0) := by decide
/-- P4 #3: `z` is at 2220 Hz; and the code after the last one has no frequency. -/
theorem test_c2f : answer (exec (.c2f 0x7A) State.reset) = some (0x0, 0x0008AC00) ∧
    answer (exec (.c2f 0x7F) State.reset) = some (0x3, 0) := by decide
/-- P4 #5: 1000 Hz under PLACEHOLDER. -/
theorem test_f2c_placeholder : answer (exec (.f2c 0x3E800) { State.reset with policy := .placeholder }) = some (0x3, 0x3F) := by
  decide
/-- T8: ties go to even codes, 1655 Hz to 66 and 1645 Hz to 64. -/
theorem test_f2c_tie : answer (exec (.f2c 0x67700) State.reset) = some (0x0, 66) ∧
    answer (exec (.f2c 0x66D00) State.reset) = some (0x0, 64) := by decide
/-- S2: the generator's frequencies of the two bits. -/
theorem test_b2f : answer (exec (.b2f 0) State.reset) = some (0x0, 0x3E800) ∧
    answer (exec (.b2f 1) State.reset) = some (0x0, 0x7D000) := by decide
/-- T23: 1100 Hz is bit 0, and 1/256 Hz more is unmapped. -/
theorem test_f2b : answer (exec (.f2b 0x44C00) State.reset) = some (0x0, 0) ∧
    answer (exec (.f2b 0x44C01) State.reset) = some (0x3, 0) := by decide
/-- T2: DEC after the fourth `A`; V7.6. -/
theorem test_rdreg : answer (exec (.rdreg 0x03) { afterA 4 with lastOut := 0x20 }) = some (0x0, 0x00A004C1) ∧
    answer (exec (.rdreg 0x0A) State.reset) = some (0x7, 0) := by decide
/-- V7.8, V7.22, V7.21 and V7.13: the order of the refusals. -/
theorem test_wrreg_refused : answer (exec (.wrreg 0x0A 0) textSession) = some (0x7, 0) ∧
    answer (exec (.wrreg 0x00 0) textSession) = some (0x8, 0) ∧
    answer (exec (.wrreg 0x01 0x3) textSession) = some (0x5, 0) ∧
    answer (exec (.wrreg 0x01 0x304) State.reset) = some (0x6, 0) := by decide
/-- V7.14; P4 #15. -/
theorem test_wrreg_written :
    onNext configWord (exec (.wrreg 0x01 0xFF03) State.reset) = some 0xFF03 ∧
    onNext flagsWord (exec (.wrreg 0x07 0x6) allFlags) = some 0x9 := by decide
/-- V4.10's rule at a small size: one unit of amplitude is 2/32768 of full scale, below the reset threshold. -/
theorem test_estimate_below_threshold : estimate (smallFrame 0x68DB9 [0, 1, -1, 0]) = .silent := by decide +kernel
/-- The rendering of `OUT` (R77): T1 and P2. -/
theorem test_render : render [0x0141, 0x0120, 0x0142, 0x0300] = "A B".toList ∧ render [0x0241, 0x0242, 0x0300] = "41 42 ".toList := by
  decide

/-! ## Witnesses: for each statement with hypotheses, a state and operands that meet them -/

theorem witness_EncodeOfDecode : decode 0x3101000000000301 = some (.wrreg 0x01 0x301) := by decide
theorem witness_DecodeByTable : decode 0x3000000000000000 = some (.rdreg 0) ∧
    (tableRow (.rdreg 0)).matches 0x3000000000000000 = true ∧ ∀ r ∈ opcodeTable, r.matches 0 = false := by decide
/-- EncodedAs: for each OPC a word with it, and of each kind (a command, an ILLEGAL word) at least one. -/
theorem witness_EncodedAs : opcField 0x0100000000000000 = 0x01 ∧ opcField 0x0200000000000001 = 0x02 ∧
    opcField 0x0300000000000000 = 0x03 ∧ opcField 0x1000000000010000 = 0x10 ∧ opcField 0x1100000000000000 = 0x11 ∧
    opcField 0x2000000000000100 = 0x20 ∧ opcField 0x2100000000000000 = 0x21 ∧ opcField 0x2200000000000001 = 0x22 ∧
    opcField 0x2300000000000000 = 0x23 ∧ opcField 0x30FF000000000000 = 0x30 ∧ opcField 0x3100000100000000 = 0x31 := by
  decide
theorem witness_IllegalWords :
    opcField 0x3200000000000000 ∉ [0x01#8, 0x02#8, 0x03#8, 0x10#8, 0x11#8, 0x20#8, 0x21#8, 0x22#8, 0x23#8, 0x30#8, 0x31#8] ∧
    rsvdField 0x0100800000000000 ≠ 0 ∧ selField 0x1180000000000000 ≠ 0 ∧
    dataField 0x1000000080000000 &&& 0xFFFF0000#32 ≠ 0 ∧ dataField 0x2000000000000100 &&& 0xFFFFFF00#32 ≠ 0 ∧
    dataField 0x2200000000000002 &&& 0xFFFFFFFE#32 ≠ 0 := by decide
/-- The forms of O7 at the ends of their ranges, an accepted line beside a refused one. -/
theorem witness_AssemblerAgreesWithDecoder : assemble (.sample (-32768)) = some 0x1000000000008000 ∧
    assemble (.sample 32768) = none ∧ assemble (.freq (.hz 1 256)) = some 0x1100000000000001 ∧
    assemble (.f2c (.hz 1 512)) = none ∧ assemble (.f2b (.hz 16777215 1)) = some 0x23000000FFFFFF00 ∧
    assemble (.f2b (.hz 16777216 1)) = none ∧ assemble (.f2c (.raw 0xFFFFFFFF)) = some 0x21000000FFFFFFFF ∧
    assemble (.c2f (.char (Char.ofNat 127))) = some 0x200000000000007F ∧ assemble (.c2f (.char (Char.ofNat 128))) = none ∧
    assemble (.rdreg (.number 255)) = some 0x30FF000000000000 ∧
    assemble (.wrreg (.name .paramN) 0xFFFFFFFF) = some 0x31090000FFFFFFFF := by decide

/-- A state in which `w` is presented. -/
def presented (w : CmdWord) : State := { State.reset with inp := [w] }

theorem witness_StepRunsDecoded : (presented 0x0100000000000000).inp = [0x0100000000000000] ∧
    decode 0x0100000000000000 = some .start := by decide
theorem witness_StepOnIllegalWord : (presented 0).inp = [0] ∧ decode 0 = none := by decide
theorem witness_StepHoldsState : State.reset.inp = [] := by decide
theorem witness_EveryStepAnswers : (presented 0x0200000000000001).inp = [0x0200000000000001] := by decide
theorem witness_ResetMeetsInvariant : smallConfig.Legal ∧ tolerantConfig.Legal ∧ Config.default.Legal := by decide

/-- The invariant holds right after reset at the small configuration. -/
theorem small_inv : Inv (State.resetWith smallConfig (by decide)) := by
  constructor
  · decide
  · constructor <;> simp [State.resetWith, SessionClear, smallConfig, Config.default]
  all_goals simp [State.resetWith, Memory.wf]

theorem witness_ResetValues : Config.default.Legal ∧ c2f Config.default 32 = some 1320 ∧ c2f Config.default 126 = some 2260 := by
  decide
theorem witness_StepKeepsInvariant :
    ∃ s t : State, Inv s ∧ step s = .next t ∧ t.session = .running := by
  have h := small_inv
  refine ⟨{ State.resetWith smallConfig (by decide) with inp := [0x0100000000000000] }, _, ?_, rfl, rfl⟩
  exact ⟨h.1, ⟨h.2.1, h.2.2, h.2.3, h.2.4, h.2.5, h.2.6, h.2.7, h.2.8⟩, h.3, h.4, h.5, h.6, h.7, h.8, h.9, h.10, h.11⟩
theorem witness_ReachableInvariants : smallConfig.Legal ∧
    ∃ s : State, Runs [0x0100000000000000, 0x1100000000067200] (State.resetWith smallConfig (by decide)) s ∧ s.out = [0x0141] :=
  ⟨by decide, _, .cons _ _ _ _ _ rfl (.cons _ _ _ _ _ rfl (.nil _)), by decide⟩

/-- The clauses of C2F at their boundaries: 31 and 127 have no frequency, 32 and 126 have. -/
theorem witness_C2fResult : State.reset.cfg.Legal ∧ answer (exec (.c2f 31) State.reset) = some (0x3, 0) ∧
    answer (exec (.c2f 32) State.reset) = some (0x0, 0x52800) ∧
    answer (exec (.c2f 126) State.reset) = some (0x0, 0x8D400) ∧ answer (exec (.c2f 127) State.reset) = some (0x3, 0) := by
  decide
/-- The clauses of F2C at their boundaries: 1315 Hz is the least frequency of code 32 and 2265 Hz the greatest of 126. -/
theorem witness_F2cResult : Config.default.Legal ∧ f2c Config.default (freqOfWord 0x3E800) .placeholder = .subst 63 ∧
    f2c Config.default (freqOfWord 0x3E800) .drop = .nomap ∧ f2c Config.default ⟨1315, 1⟩ .drop = .mapped 32 ∧
    f2c Config.default ⟨2265, 1⟩ .drop = .mapped 126 ∧ f2c Config.default ⟨1314, 1⟩ .drop = .nomap ∧
    f2c Config.default ⟨2266, 1⟩ .placeholder = .subst 63 := by decide
/-- The clauses of F2B at their boundaries. -/
theorem witness_F2bResult : f2b Config.default ⟨900, 1⟩ = some 0 ∧ f2b Config.default ⟨1100, 1⟩ = some 0 ∧
    f2b Config.default ⟨1900, 1⟩ = some 1 ∧ f2b Config.default ⟨2100, 1⟩ = some 1 ∧
    f2b Config.default ⟨899, 1⟩ = none ∧ f2b Config.default ⟨2101, 1⟩ = none := by decide
/-- The last register and the first reserved select. -/
theorem witness_RdregResult : answer (exec (.rdreg 0x09) State.reset) = some (0x0, 4410) ∧
    answer (exec (.rdreg 0x0A) State.reset) = some (0x7, 0) := by decide
/-- The clauses of WRREG: reserved, read-only, locked, a bad value, and the three writes. -/
theorem witness_WrregResult : answer (exec (.wrreg 0xFF 0) State.reset) = some (0x7, 0) ∧
    answer (exec (.wrreg 0x09 0) State.reset) = some (0x8, 0) ∧
    answer (exec (.wrreg 0x02 0) textSession) = some (0x5, 0) ∧
    answer (exec (.wrreg 0x01 0x10300) State.reset) = some (0x6, 0) ∧
    answer (exec (.wrreg 0x01 0x100) State.reset) = some (0x0, 0) ∧
    answer (exec (.wrreg 0x02 0xFFFFFFFF) State.reset) = some (0x0, 0) ∧
    answer (exec (.wrreg 0x07 0x10) State.reset) = some (0x6, 0) ∧
    answer (exec (.wrreg 0x07 0xF) State.reset) = some (0x0, 0) := by decide
/-- The three outcomes of START, STOP, FAULT and FREQ's conditions on the session state. -/
theorem witness_session : State.reset.session ≠ .running ∧ textSession.session = .running := by decide

theorem witness_FrameUsesReferenceEstimator : (lastSample smallConfig).cfg.Legal ∧ (lastSample smallConfig).fb.wf = true ∧
    (lastSample smallConfig).cfg.TolZero ∧ (lastSample smallConfig).session = .running ∧
    (lastSample smallConfig).fill.toNat + 1 = (lastSample smallConfig).cfg.pN := by decide
theorem witness_FrameDrawsAdmissibleOutcome : (lastSample tolerantConfig).cfg.Legal ∧
    (lastSample tolerantConfig).fb.wf = true ∧ ¬(lastSample tolerantConfig).cfg.TolZero ∧
    (lastSample tolerantConfig).session = .running ∧
    (lastSample tolerantConfig).fill.toNat + 1 = (lastSample tolerantConfig).cfg.pN := by decide
/-- The same where `P_ESTTOL` is a free real number. -/
theorem witness_FrameDrawsAdmissibleOutcome_free : (lastSample freeConfig).cfg.Legal ∧
    (lastSample freeConfig).fb.wf = true ∧ ¬(lastSample freeConfig).cfg.TolZero ∧
    (lastSample freeConfig).session = .running ∧
    (lastSample freeConfig).fill.toNat + 1 = (lastSample freeConfig).cfg.pN := by decide
/-- P_ESTTOL = 1 is more than any amplitude, so every proposed bin lies in Adm. -/
theorem witness_AdmissibleDraw : admissible (completedFrame 0 (lastSample tolerantConfig)) (drawnEst 1) = true := by
  decide +kernel
theorem witness_AdmissibleSetNeverEmpty : (smallFrame 1 [0, 0, 0, 0]).Complete ∧
    (smallFrame 1 [0, 0, 0, 0]).amplitude (smallFrame 1 [0, 0, 0, 0]).kStar <
      (smallFrame 1 [0, 0, 0, 0]).tau - (smallFrame 1 [0, 0, 0, 0]).delta := by
  have hx : ∀ n, (smallFrame 1 [0, 0, 0, 0]).x n = 0 := by
    intro n
    have : ([0, 0, 0, 0] : List Int).getD n 0 = 0 := by
      rcases n with _ | _ | _ | _ | n <;> simp
    simp only [Frame.x, smallFrame, this]
    simp
  have ha : ∀ k, (smallFrame 1 [0, 0, 0, 0]).amplitude k = 0 := by
    intro k
    simp [Frame.amplitude, Frame.magnitude, Frame.spectrum, hx]
  refine ⟨⟨by decide, rfl⟩, ?_⟩
  rw [ha]
  show (0 : ℝ) < (smallFrame 1 [0, 0, 0, 0]).tau - (smallFrame 1 [0, 0, 0, 0]).tolQuotient
  simp [Frame.tau, Frame.tolQuotient, smallFrame, smallConfig, Config.default]
theorem witness_ConstantFrameIsSilent : (smallFrame 0 [-7, -7, -7, -7]).Complete ∧
    ∃ v : ℤ, ∀ x ∈ (smallFrame 0 [-7, -7, -7, -7]).samples, x = v :=
  ⟨⟨by decide, rfl⟩, -7, by decide⟩
theorem witness_QuantizersAreExact : smallConfig.Legal ∧ (0 : ℕ) < (⟨3, 2⟩ : Freq).den := by decide
theorem witness_CodecRoundTrip : Config.default.Legal ∧ f2c Config.default ⟨1650, 1⟩ .drop = .mapped 65 ∧
    f2c Config.default ⟨3320, 2⟩ .placeholder = .mapped 66 ∧ ((1650 : ℕ) : ℚ) / (1 : ℕ) ≤ (3320 : ℕ) / (2 : ℕ) := by
  refine ⟨by decide, by decide, by decide, by norm_num⟩
/-- The clauses of R95 (d) and R100 at their boundaries: the even code 66 has both ends, the odd code 65 neither. -/
theorem witness_DefaultCodecMaps : f2c Config.default ⟨1655, 1⟩ .drop = .mapped 66 ∧
    f2c Config.default ⟨1665, 1⟩ .drop = .mapped 66 ∧ f2c Config.default ⟨1656, 1⟩ .drop = .mapped 66 ∧
    f2c Config.default ⟨1654, 1⟩ .drop = .mapped 65 ∧
    f2c Config.default (freqOfBin Config.default 131) .drop = .nomap ∧
    f2c Config.default (freqOfBin Config.default 132) .drop = .mapped 32 ∧
    f2c Config.default (freqOfBin Config.default 226) .drop = .mapped 126 ∧
    f2c Config.default (freqOfBin Config.default 227) .placeholder = .subst 63 ∧
    f2b Config.default (freqOfBin Config.default 89) = none ∧ f2b Config.default (freqOfBin Config.default 90) = some 0 ∧
    f2b Config.default (freqOfBin Config.default 110) = some 0 ∧ f2b Config.default (freqOfBin Config.default 111) = none ∧
    f2b Config.default (freqOfBin Config.default 189) = none ∧ f2b Config.default (freqOfBin Config.default 190) = some 1 ∧
    f2b Config.default (freqOfBin Config.default 210) = some 1 ∧ f2b Config.default (freqOfBin Config.default 211) = none := by
  decide

/-- The clauses of Decode: silence, text, binary. -/
theorem witness_DecodeFrequency : (decodeFreq ⟨0, 256⟩ (afterA 2)).rptCnt = 0 ∧
    (decodeFreq ⟨1650, 1⟩ textSession).out = [0x0141] ∧ (decodeFreq ⟨2000, 1⟩ (binarySession 0 0)).pcnt = 1 := by decide
/-- The count at the end of its range, at a legal configuration: 254 goes to 255, and 255 stays (T12). -/
theorem witness_DecodeTextCount : (afterA 254).cfg.Legal ∧ (afterA 254).lastSymV = true ∧ 0x41#7 = (afterA 254).lastSym ∧
    (decodeText (.mapped 0x41) (afterA 254)).rptCnt = 255 ∧ (decodeText (.mapped 0x41) (afterA 255)).rptCnt = 255 := by
  decide
/-- The clauses of DecodeText: a substitute, a new symbol, a repeat below the threshold and one at it. -/
theorem witness_DecodeTextProcedure : (decodeText (.subst 63) textSession).out = [0x013F] ∧
    (decodeText (.mapped 0x42) (afterA 1)).out = [0x0142] ∧ (decodeText (.mapped 0x41) (afterA 1)).out = [] ∧
    (decodeText (.mapped 0x41) (afterA 2)).out = [0x0120] := by decide
/-- The clauses of DecodeBinary: the seventh bit and the eighth. -/
theorem witness_DecodeBinaryProcedure : (decodeBinary (some 1) (binarySession 0 6)).pcnt = 7 ∧
    (decodeBinary (some 1) (binarySession 0 7)).out = [0x0201] := by decide
theorem witness_TextRunEmitsOnce : textSession.cfg.Legal ∧ ¬(textSession.lastSymV = true ∧ 0x41#7 = textSession.lastSym) := by
  decide
theorem witness_EightBitsMakeAByte : (binarySession 0 0).pbits = 0 ∧ (binarySession 0 0).pcnt = 0 := by decide

theorem witness_RefusalsArePrecise : ∃ t : State, runWord 0x0200000000000000 State.reset = .next t ∧
    t.resp = State.reset.resp ++ [mkResponse .notRunning 0] ∧ isRefusal .notRunning = true := ⟨_, rfl, rfl, rfl⟩
/-- The write that clears flags, and a write that clears none. -/
theorem witness_FlagsRule : (∃ t : State, runWord 0x310700000000000F State.reset = .next t) ∧
    decode 0x310700000000000F = some (.wrreg 0x07 0xF) ∧ (0xF#32).extractLsb' 4 28 = 0 ∧
    (∃ t : State, runWord 0x0300000000000000 State.reset = .next t ∧ t.fFault = true) ∧
    ∀ v : RegWord, decode 0x0300000000000000 ≠ some (.wrreg 0x07 v) :=
  ⟨⟨_, rfl⟩, by decide, by decide, ⟨_, rfl, rfl⟩, fun v h => by
    rw [test_decode_fault] at h; cases h⟩
theorem witness_SessionTransitions : ∃ t : State, runWord 0x0100000000000000 State.reset = .next t ∧ t.session = .running :=
  ⟨_, rfl, rfl⟩
/-- Both premises: a running session, and a command that is no WRREG. -/
theorem witness_SettingsAreLocked : (∃ t : State, runWord 0x3101000000000100 textSession = .next t) ∧
    textSession.session = .running ∧ (∃ t : State, runWord 0x0300000000000000 State.reset = .next t) ∧
    ∀ sel v, decode 0x0300000000000000 ≠ some (.wrreg sel v) :=
  ⟨⟨_, rfl⟩, rfl, ⟨_, rfl⟩, fun sel v h => by rw [test_decode_fault] at h; cases h⟩
theorem witness_DecoderStateIsProtected : ∃ t : State, runWord 0x310700000000000F State.reset = .next t ∧
    decode 0x310700000000000F ≠ some .start ∧ decode 0x310700000000000F ≠ some .stop ∧
    decode 0x310700000000000F ≠ some .fault ∧ (∀ x, decode 0x310700000000000F ≠ some (.sample x)) ∧
    ∀ fw, decode 0x310700000000000F ≠ some (.freq fw) := by
  refine ⟨_, rfl, by decide, by decide, by decide, fun x h => ?_, fun fw h => ?_⟩ <;>
    (rw [test_decode_wrreg] at h; cases h)
theorem witness_WriteThenRead : ∃ t : State, exec (.wrreg 0x01 0xFF03) State.reset = .next t ∧
    t.resp = State.reset.resp ++ [mkResponse .ok 0] := ⟨_, rfl, rfl⟩
theorem witness_WriteThenRead_ethresh : ∃ t : State, exec (.wrreg 0x02 0xFFFFFFFF) State.reset = .next t ∧
    t.resp = State.reset.resp ++ [mkResponse .ok 0] := ⟨_, rfl, rfl⟩
theorem witness_DoneOncePerSession : acceptedStart 0x0100000000000000 State.reset = true ∧
    ∃ t : State, RunsStarting [0x0100000000000000] (if acceptedStart 0x0100000000000000 State.reset then 0 + 1 else 0)
      State.reset t := ⟨by decide, _, .cons _ _ _ _ _ _ rfl (.nil _)⟩
theorem witness_NoTokenOutsideSession : ∃ t : State, runWord 0x1100000000067200 State.reset = .next t ∧
    State.reset.session ≠ .running := ⟨_, rfl, by decide⟩

/-- Two samples in, with `v` left in FB by an earlier frame. -/
def midFrame (v : Sample) : State := { lastSample smallConfig with fill := 2, fb := [(1, 0x4000), (3, v)] }

theorem witness_FrameBufferIsUnobservable : (midFrame 5).fb.wf = true ∧ (midFrame 6).fb.wf = true ∧
    AgreeFrame (midFrame 5) (midFrame 6) ∧ ∃ t : State, runWord 0x1000000000000001 (midFrame 5) = .next t :=
  ⟨by decide, by decide, ⟨rfl, by decide⟩, _, rfl⟩
theorem witness_FlagsInfluenceNothing : AgreeButFlags textSession { textSession with fFault := true, resp := [0] } ∧
    (∃ t : State, runWord 0x1100000000067200 textSession = .next t) ∧
    decode 0x1100000000067200 ≠ some (.rdreg 0x07) := ⟨rfl, ⟨_, rfl⟩, by decide⟩
theorem witness_SessionsAreIndependent :
    (∃ s' t' : State, exec .start State.reset = .next s' ∧
      exec .start { State.reset with session := .stopped, fFault := true, out := [0x0301], resp := [0] } = .next t') ∧
    AgreeSession (midFrame 5) { midFrame 6 with out := [0x0141] } ∧
    ∃ t : State, runWord 0x1000000000000001 (midFrame 5) = .next t :=
  ⟨⟨_, _, rfl, rfl⟩, ⟨rfl, by decide⟩, _, rfl⟩
theorem witness_QueriesFrame : (∃ c, Instr.c2f 0 = .c2f c) ∧ (∃ fw, Instr.f2c 0 = .f2c fw) ∧ (∃ b, Instr.b2f 0 = .b2f b) ∧
    (∃ fw, Instr.f2b 0 = .f2b fw) ∧ ∃ sel, Instr.rdreg 0 = .rdreg sel := ⟨⟨_, rfl⟩, ⟨_, rfl⟩, ⟨_, rfl⟩, ⟨_, rfl⟩, _, rfl⟩
theorem witness_SessionCommandsFrame : Instr.fault ≠ .start ∧ Instr.start ≠ .fault ∧ Instr.stop = .stop := by decide
/-- A running session in each mode, and a frequency word other than 0. -/
theorem witness_FreqFrame : textSession.session = .running ∧ textSession.mode = .text ∧
    (binarySession 5 3).session = .running ∧ (binarySession 5 3).mode = .binary ∧ (0x67200 : RegWord) ≠ 0 := by decide
/-- Selects other than each of the three writable ones. -/
theorem witness_WrregFrame : (0x02 : BitVec 8) ≠ 0x01 ∧ (0x07 : BitVec 8) ≠ 0x02 ∧ (0x01 : BitVec 8) ≠ 0x07 := by decide
/-- SAMPLE accepted and SAMPLE refused, each from a frame buffer in canonical form. -/
theorem witness_SampleFrame : (midFrame 5).fb.wf = true ∧ (midFrame 5).session = .running ∧
    (midFrame 5).fill.toNat + 1 ≠ (midFrame 5).cfg.pN ∧ State.reset.fb.wf = true ∧ State.reset.session ≠ .running := by
  decide
theorem witness_ResponseMatrix : State.reset.cfg.Legal := by decide

end Sys2Proof.Tests
end

section
/-! SUPPORT. The scope of a step (R9): it runs the word presented, and every word is answered by one legal response and
at most one token (R35, R142 (a), R170, R186). -/

namespace Sys2Proof

/-- Decoding undoes encoding, with every operand at every value (R71 to R74). -/
@[simp] theorem decode_encode (i : Instr) : decode (encode i) = some i := by
  rw [encode, decode_mkWord]
  cases i with
  | start => rfl
  | stop => rfl
  | fault => rfl
  | freq fw => exact if_pos ⟨Or.inr rfl, BitVec.and_zero⟩
  | f2c fw => exact if_pos ⟨Or.inr rfl, BitVec.and_zero⟩
  | f2b fw => exact if_pos ⟨Or.inr rfl, BitVec.and_zero⟩
  | rdreg sel => exact if_pos ⟨Or.inl rfl, BitVec.zero_and⟩
  | wrreg sel val => exact if_pos ⟨Or.inl rfl, BitVec.and_zero⟩
  | sample x =>
    have hx := extract_setWidth 16 (by omega) x
    exact (if_pos ⟨Or.inr rfl, (zmask_sample_iff _).mpr (congrArg _ hx)⟩).trans
      (congrArg (fun y => some (Instr.sample y)) hx)
  | c2f code =>
    have hc := extract_setWidth 8 (by omega) code
    exact (if_pos ⟨Or.inr rfl, (zmask_c2f_iff _).mpr (congrArg _ hc)⟩).trans
      (congrArg (fun y => some (Instr.c2f y)) hc)
  | b2f bit =>
    have hb := extract_setWidth 1 (by omega) bit
    exact (if_pos ⟨Or.inr rfl, (zmask_b2f_iff _).mpr (congrArg _ hb)⟩).trans
      (congrArg (fun y => some (Instr.b2f y)) hb)

end Sys2Proof

namespace Sys2Proof.Machine

/-! ## The word that a step runs -/

theorem runWord_of_decode {w : CmdWord} {i : Instr} (h : decode w = some i) (s : State) : runWord w s = exec i s := by
  rw [runWord, h]

theorem step_of_inp {s : State} {w : CmdWord} {rest : List CmdWord} (h : s.inp = w :: rest) :
    step s = runWord w { s with inp := rest } := by
  rw [step, takeWord, h]

@[simp] theorem step_presentWord (w : CmdWord) (s : State) : step (presentWord w s) = runWord w s :=
  step_of_inp (presentWord_inp w s)

/-- A whole word fits the 64 bits of the command port, so presenting it by its number loses nothing (R58, R70). -/
@[simp] theorem withFetchWord_toNat (w : CmdWord) (s : State) : s.withFetchWord 64 w.toNat = presentWord w s := by
  rw [State.withFetchWord, Nat.mod_eq_of_lt w.isLt, BitVec.ofNat_toNat, BitVec.setWidth_eq]

/-! ## The answer to a word -/

/-- `out` is `out₀` with at most one token after it (R35, R142 (a)). -/
def AppendsAtMostOne (out₀ out : List Token) : Prop := out = out₀ ∨ ∃ tok : Token, out = out₀ ++ [tok]

/-- `t` is `s` after the answer to one word: one legal response more, at most one token more, and the words still
presented and the configuration as they were (R35, R142 (a), R170). -/
structure Answers (s t : State) : Prop where
  inp : t.inp = s.inp
  cfg : t.cfg = s.cfg
  resp : ∃ r : RespWord, legalResponse r = true ∧ t.resp = s.resp ++ [r]
  out : AppendsAtMostOne s.out t.out

/-- A response answers when the effect before it returned none and emitted at most one token. -/
theorem answers_respond (k : RespCode) (d : RegWord) {s u : State} (hinp : u.inp = s.inp) (hcfg : u.cfg = s.cfg)
    (hresp : u.resp = s.resp) (hout : AppendsAtMostOne s.out u.out) : Answers s (respond k d u) where
  inp := hinp
  cfg := hcfg
  resp := ⟨mkResponse k d, legalResponse_mkResponse k d, by rw [respond_resp, hresp]⟩
  out := hout

/-- A refusal answers, and emits nothing (R170). -/
theorem answers_raiseError (cmd : Option Instr) (k : RespCode) (s : State) : Answers s (raiseError cmd k s) where
  inp := raiseError_inp cmd k s
  cfg := raiseError_cfg cmd k s
  resp := ⟨mkResponse k 0, legalResponse_mkResponse k 0, raiseError_resp cmd k s⟩
  out := Or.inl (raiseError_out cmd k s)

/-- Every command answers in every state: the cases of `exec_cases` are a query or a read, a refusal, and the six
accepted commands, of which STOP and FAULT emit a DONE and SAMPLE and FREQ may emit what they decode. -/
theorem exec_answers (i : Instr) (s : State) : ∃ t : State, exec i s = .next t ∧ Answers s t := by
  rcases exec_cases i s with ⟨k, d, _, h, _⟩ | ⟨k, _, _, h⟩ | ⟨_, _, h⟩ | ⟨_, _, h⟩ | ⟨_, _, h⟩ | ⟨x, _, _, h⟩ |
    ⟨fw, _, _, h⟩ | ⟨sel, v, _, _, h⟩
  · exact ⟨_, h, answers_respond k d rfl rfl rfl (Or.inl rfl)⟩
  · exact ⟨_, h, answers_raiseError (some i) k s⟩
  · exact ⟨_, h, answers_respond .ok 0 rfl rfl rfl (Or.inl rfl)⟩
  · exact ⟨_, h, answers_respond .ok 0 rfl rfl rfl (Or.inr ⟨mkToken .done 0x00, rfl⟩)⟩
  · exact ⟨_, h, answers_respond .ok 0 rfl rfl rfl (Or.inr ⟨mkToken .done 0x01, rfl⟩)⟩
  · exact ⟨_, h, answers_respond .ok 0 (by simp) (by simp) (by simp) (pushSample_out x s)⟩
  · exact ⟨_, h, answers_respond .ok 0 (by simp) (by simp) (by simp) (decodeFreq_out (freqOfWord fw) s)⟩
  · exact ⟨_, h, answers_respond .ok 0 (by simp) (by simp) (by simp) (Or.inl (regWrite_out sel v s))⟩

/-- Every command word answers in every state, an ILLEGAL one by its refusal. -/
theorem runWord_answers (w : CmdWord) (s : State) : ∃ t : State, runWord w s = .next t ∧ Answers s t := by
  rcases runWord_cases w s with ⟨_, h⟩ | ⟨i, _, h⟩ <;> rw [h]
  · exact ⟨_, rfl, answers_raiseError none .illegal s⟩
  · exact exec_answers i s

/-! ## The statements -/

/-- Settles O12: the step runs the word presented, and every word answers. -/
theorem everyStepAnswers : Obligations.EveryStepAnswers := by
  unfold Obligations.EveryStepAnswers
  intro s w rest h
  obtain ⟨t, hrun, ⟨hinp, hcfg, hresp, hout⟩⟩ := runWord_answers w { s with inp := rest }
  exact ⟨t, (step_of_inp h).trans hrun, hinp, hcfg, hresp, hout⟩

/-- Settles O8: the word presented is taken and runs, and a word that decodes runs its command. -/
theorem stepRunsDecoded : Obligations.StepRunsDecoded := by
  unfold Obligations.StepRunsDecoded
  intro s w rest i h hdec
  rw [step_of_inp h, runWord_of_decode hdec]

/-- Settles O11: the word of a command is placed whole, is the next to run, and decodes to the command. -/
theorem presentedWordRunsNext : Obligations.PresentedWordRunsNext := by
  unfold Obligations.PresentedWordRunsNext
  intro i s
  rw [withFetchWord_toNat, step_presentWord, runWord_of_decode (decode_encode i)]

end Sys2Proof.Machine
end

section
/-! SUPPORT. The invariant of the model (R36): it holds at reset, each operation keeps it, and so every step and every run
do. The operations of a session keep it while RUNNING, where (I6) asks nothing. -/

namespace Sys2Proof.Machine

variable {s : State}

/-! ## Outside the decode procedures -/

theorem pN_pos_of_legal {c : Config} (hc : c.Legal) : 0 < c.pN := by
  obtain ⟨⟨hN, _⟩, _⟩ := hc
  omega

theorem pN_le_of_legal {c : Config} (hc : c.Legal) : c.pN ≤ 65535 := by
  obtain ⟨⟨_, hN⟩, _⟩ := hc
  exact hN

theorem cntMax_of_legal {c : Config} (hc : c.Legal) : c.cntMax = 255 := by
  obtain ⟨_, _, _, _, _, _, _, _, _, hmax⟩ := hc
  exact hmax

/-- Cleared fields meet every clause about them, in either mode and any session state (R131). -/
theorem SessionClear.inv (hs : SessionClear s) (hc : s.cfg.Legal) (hT : 1 ≤ s.repeatT.toNat) (hwf : s.fb.wf = true)
    (hfb : ∀ p ∈ s.fb, p.1 < s.cfg.pN) (hout : ∀ t ∈ s.out, legalToken t = true)
    (hresp : ∀ r ∈ s.resp, legalResponse r = true) : Inv s := by
  obtain ⟨hsymV, hsym, hcnt, houtV, hlast, hbits, hpcnt, hvalid, hsil, hbin, hfill⟩ := hs
  exact {
    legal := hc
    spec := {
      i1 := fun _ => ⟨hsym, hcnt⟩
      i2 := fun h => by simp [hsymV] at h
      i3 := fun _ => hlast
      i4 := by simp [hbits, hpcnt]
      i5 := by simpa [hfill] using pN_pos_of_legal hc
      i6 := fun _ => ⟨hsymV, hsym, hcnt, houtV, hlast, hbits, hpcnt, hvalid, hsil, hbin, hfill⟩
      i7 := fun _ => ⟨hsymV, houtV⟩
      i8 := ⟨hT, Nat.le_of_lt_succ s.repeatT.isLt⟩ }
    fbWf := hwf
    fbRange := hfb
    out := hout
    resp := hresp
    estNone := fun _ => ⟨hsil, hbin⟩
    estSilent := fun _ => hbin
    estBin := fun h => by simp [hvalid] at h
    lastOut := fun h => by simp [houtV] at h
    textBits := fun _ => ⟨hbits, hpcnt⟩ }

theorem sessionClear_clearSession (s : State) (st : SessionState) :
    SessionClear { clearSession s with session := st } :=
  ⟨rfl, rfl, rfl, rfl, rfl, rfl, rfl, rfl, rfl, rfl, rfl⟩

theorem inv_resetWith (c : Config) (hc : c.Legal) : Inv (State.resetWith c hc) :=
  have hs : SessionClear (State.resetWith c hc) := ⟨rfl, rfl, rfl, rfl, rfl, rfl, rfl, rfl, rfl, rfl, rfl⟩
  hs.inv hc (by decide : 1 ≤ (3 : BitVec 8).toNat) rfl nofun nofun nofun

theorem Inv.clearSession (h : Inv s) (st : SessionState) : Inv { clearSession s with session := st } :=
  (sessionClear_clearSession s st).inv h.legal h.spec.i8.1 h.fbWf h.fbRange h.out h.resp

/-! ## The operations of every command -/

theorem Inv.takeInp (h : Inv s) (rest : List CmdWord) : Inv { s with inp := rest } :=
  { h with spec := { h.spec with } }

theorem Inv.respond (h : Inv s) (k : RespCode) (d : RegWord) : Inv (respond k d s) :=
  { h with
    spec := { h.spec with }
    resp := List.forall_mem_append.mpr ⟨h.resp, List.forall_mem_singleton.mpr (legalResponse_mkResponse k d)⟩ }

theorem Inv.emit (h : Inv s) {kind : TokenKind} {v : BitVec 8} (hv : legalToken (mkToken kind v) = true) :
    Inv (emit kind v s) :=
  { h with
    spec := { h.spec with }
    out := List.forall_mem_append.mpr ⟨h.out, List.forall_mem_singleton.mpr hv⟩ }

theorem Inv.setFlag (h : Inv s) (f : Flag) : Inv (setFlag f s) := by
  cases f <;> exact { h with spec := { h.spec with } }

/-- A refusal keeps the invariant: it sets a flag or none, and responds (R170). -/
theorem Inv.raiseError (h : Inv s) (cmd : Option Instr) (k : RespCode) : Inv (raiseError cmd k s) := by
  unfold Machine.raiseError applyRefusalFlag
  cases refusalFlag cmd k with
  | none => exact h.respond k 0
  | some f => exact (h.setFlag f).respond k 0

/-! ## The registers -/

/-- A legal CONFIG has a repeat threshold of at least 1 (R24). -/
theorem repeatT_pos_of_legalConfig {v : RegWord} (hv : legalConfig v = true) : 1 ≤ (v.extractLsb' 8 8).toNat := by
  simp only [legalConfig, Bool.and_eq_true, bne_iff_ne] at hv
  exact Nat.one_le_iff_ne_zero.mpr (BitVec.toNat_ne.mp hv.2)

/-- The mode changes only outside a session, where neither mode has anything pending (R162, (I6)). -/
theorem Inv.setConfig (h : Inv s) (hr : s.session ≠ .running) {v : RegWord} (hv : legalConfig v = true) :
    Inv (setConfig v s) :=
  have hs : SessionClear (Machine.setConfig v s) := h.spec.i6 hr
  hs.inv h.legal (repeatT_pos_of_legalConfig hv) h.fbWf h.fbRange h.out h.resp

theorem Inv.regWrite (h : Inv s) {sel : BitVec 8} {v : RegWord} (ha : wrregRefusal sel v s = none) :
    Inv (regWrite sel v s) := by
  rcases regWrite_cases ha with ⟨_, hr, hv, hw⟩ | ⟨_, _, hw⟩ | ⟨_, _, hw⟩ <;> rw [hw]
  · exact h.setConfig hr hv
  · exact { h with spec := { h.spec with } }
  · exact { h with spec := { h.spec with } }

/-! ## The decode procedures, while RUNNING -/

theorem Inv.clearSymbol (h : Inv s) (hr : s.session = .running) : Inv (clearSymbol s) :=
  { h with
    spec := { h.spec with
      i1 := fun _ => ⟨rfl, rfl⟩
      i2 := nofun
      i6 := fun hn => absurd hr hn
      i7 := fun hm => ⟨rfl, (h.spec.i7 hm).2⟩ } }

/-- Text mode may emit any character code and record it as the last output (R139). -/
theorem Inv.emitChar (h : Inv s) (hr : s.session = .running) (hm : s.mode = .text) {c : BitVec 7}
    (hc : 32 ≤ c.toNat ∧ c.toNat ≤ 126) : Inv (emitChar c s) := by
  have htok : legalToken (mkToken .char (c.setWidth 8)) = true := by
    refine legalToken_mkToken (Or.inr (Or.inl ⟨rfl, ?_⟩))
    rwa [BitVec.toNat_setWidth_of_le (by decide)]
  have he : Inv (Machine.emit .char (c.setWidth 8) s) := h.emit htok
  exact { he with
    spec := { he.spec with
      i3 := nofun
      i6 := fun hn => absurd hr hn
      i7 := fun hb => absurd (hm.symm.trans hb) nofun }
    lastOut := fun _ => hc }

/-- The count of a symbol may be any of 1 to 255 (I2). -/
theorem Inv.withRptCnt (h : Inv s) (hr : s.session = .running) (hl : s.lastSymV = true) {n : BitVec 8}
    (hn : 1 ≤ n.toNat) : Inv { s with rptCnt := n } :=
  { h with
    spec := { h.spec with
      i1 := fun hf => absurd (hl.symm.trans hf) nofun
      i2 := fun _ => ⟨⟨hn, Nat.le_of_lt_succ n.isLt⟩, (h.spec.i2 hl).2⟩
      i6 := fun hn => absurd hr hn } }

theorem Inv.repeatSymbol (h : Inv s) (hr : s.session = .running) (hm : s.mode = .text) (hl : s.lastSymV = true) :
    Inv (repeatSymbol s) := by
  have hmax : s.cfg.cntMax = 255 := cntMax_of_legal h.legal
  have hcount : 1 ≤ (satInc s.cfg.cntMax s.rptCnt).toNat := by
    rw [satInc_toNat (by omega)]
    omega
  have hi := h.withRptCnt hr hl hcount
  rcases repeatSymbol_cases s with ⟨he, _⟩ | ⟨he, _⟩ <;> rw [he]
  · exact hi
  · exact hi.emitChar hr hm (by decide)

theorem Inv.newSymbol (h : Inv s) (hr : s.session = .running) (hm : s.mode = .text) {c : BitVec 7}
    (hc : 32 ≤ c.toNat ∧ c.toNat ≤ 126) : Inv (newSymbol c s) := by
  have he := h.emitChar hr hm hc
  exact { he with
    spec := { he.spec with
      i1 := nofun
      i2 := fun _ => ⟨(by decide : 1 ≤ (1 : BitVec 8).toNat ∧ (1 : BitVec 8).toNat ≤ 255), hc⟩
      i6 := fun hn => absurd hr hn
      i7 := fun hb => absurd (hm.symm.trans hb) nofun } }

theorem Inv.textSymbol (h : Inv s) (hr : s.session = .running) (hm : s.mode = .text) {c : BitVec 7}
    (hc : 32 ≤ c.toNat ∧ c.toNat ≤ 126) : Inv (textSymbol c s) := by
  rcases textSymbol_cases c s with ⟨hl, _, he⟩ | ⟨_, he⟩ <;> rw [he]
  · exact h.repeatSymbol hr hm hl
  · exact h.newSymbol hr hm hc

/-- Binary mode may hold up to seven bits pending (I4). -/
theorem Inv.withBits (h : Inv s) (hr : s.session = .running) (hm : s.mode = .binary) {bits : BitVec 7} {n : BitVec 3}
    (hb : bits.toNat < 2 ^ n.toNat) : Inv { s with pbits := bits, pcnt := n } :=
  { h with
    spec := { h.spec with
      i4 := ⟨Nat.le_of_lt_succ n.isLt, hb⟩
      i6 := fun hn => absurd hr hn }
    textBits := fun ht => absurd (hm.symm.trans ht) nofun }

/-- Fewer than seven pending bits leave room for one more: the top bit that the shift drops is 0 (R140, (I4)). -/
theorem appendBit_lt {bits : BitVec 7} {n : BitVec 3} (b : BitVec 1) (hn : n ≠ 7) (hb : bits.toNat < 2 ^ n.toNat) :
    (bits.extractLsb' 0 6 ++ b).toNat < 2 ^ (n + 1).toNat := by
  have hn' : n.toNat ≠ 7 := fun h => hn (BitVec.eq_of_toNat_eq h)
  have hinc : (n + 1).toNat = n.toNat + 1 := by bv_omega
  have hle : (bits.extractLsb' 0 6).toNat ≤ bits.toNat := by
    rw [BitVec.extractLsb'_toNat]
    exact Nat.mod_le _ _
  rw [hinc, Nat.pow_succ, BitVec.toNat_append, ← Nat.shiftLeft_add_eq_or_of_lt b.isLt, Nat.shiftLeft_eq]
  omega

theorem Inv.decodeBinary (h : Inv s) (hr : s.session = .running) (hm : s.mode = .binary) (b : BitVec 1) :
    Inv (decodeBinary (some b) s) := by
  rcases decodeBinary_cases b s with ⟨_, he⟩ | ⟨hn, he⟩ <;> rw [he]
  · exact (h.emit (legalToken_mkToken (Or.inl rfl))).withBits hr hm (by decide)
  · exact h.withBits hr hm (appendBit_lt b hn h.spec.i4.2)

theorem Inv.decodeFreq (h : Inv s) (hr : s.session = .running) (f : Freq) : Inv (decodeFreq f s) := by
  rcases decodeFreq_cases f s with ⟨_, he⟩ | ⟨_, he⟩ | ⟨_, hm, c, hc, he⟩ | ⟨_, hm, b, _, he⟩ <;> rw [he]
  · exact h.clearSymbol hr
  · exact h
  · exact h.textSymbol hr hm (f2c_range h.legal hc)
  · exact h.decodeBinary hr hm b

/-! ## Samples and frames, while RUNNING -/

/-- A sample is stored inside the frame (R34, (I5)). -/
theorem Inv.storeSample (h : Inv s) (x : Sample) : Inv (storeSample x s) :=
  { h with
    spec := { h.spec with }
    fbWf := Memory.wf_write _ x h.fbWf
    fbRange := fun p hp => (Memory.mem_write hp).elim (fun he => he ▸ h.spec.i5) (h.fbRange p) }

theorem Inv.takeDraw (h : Inv s) : Inv (takeDraw s) := by
  unfold Machine.takeDraw
  split_ifs
  · exact h
  · exact { h with spec := { h.spec with } }

theorem Inv.withFill (h : Inv s) (hr : s.session = .running) {n : BitVec 16} (hn : n.toNat < s.cfg.pN) :
    Inv { s with fill := n } :=
  { h with spec := { h.spec with i5 := hn, i6 := fun hn => absurd hr hn } }

/-- EST may record SILENT with bin 0, or a bin of the spectrum, and FILL starts again (R28, R136). -/
theorem Inv.withEst (h : Inv s) (hr : s.session = .running) {silent : Bool} {bin : BitVec 16}
    (hs : silent = true → bin = 0) (hb : silent = false → 1 ≤ bin.toNat ∧ bin.toNat ≤ s.cfg.lastBin) :
    Inv { s with evalid := true, fill := 0, esilent := silent, ebin := bin } :=
  have hfill : Inv { s with fill := 0 } := h.withFill hr (pN_pos_of_legal h.legal)
  { hfill with
    spec := { hfill.spec with i6 := fun hn => absurd hr hn }
    estNone := nofun
    estSilent := hs
    estBin := fun _ => hb }

/-- The frame step keeps the invariant for SILENT and for every bin of the spectrum (R116, R136). -/
theorem Inv.frameResult (h : Inv s) (hr : s.session = .running) {e : Est}
    (he : ∀ k, e = .bin k → 1 ≤ k ∧ k ≤ s.cfg.lastBin) : Inv (frameResult e s) := by
  cases e with
  | silent => exact (h.withEst (silent := true) (bin := 0) hr (fun _ => rfl) nofun).decodeFreq hr Freq.silence
  | bin k =>
    obtain ⟨hk1, hk2⟩ := he k rfl
    have hk : (BitVec.ofNat 16 k).toNat = k := by
      have hN : s.cfg.pN ≤ 65535 := pN_le_of_legal h.legal
      rw [Config.lastBin] at hk2
      exact (BitVec.toNat_ofNat k 16).trans (Nat.mod_eq_of_lt (by omega))
    rw [← hk] at hk1 hk2
    exact (h.withEst (silent := false) hr nofun fun _ => ⟨hk1, hk2⟩).decodeFreq hr (freqOfBin s.cfg k)

theorem Inv.frameComplete (h : Inv s) (hr : s.session = .running) : Inv (frameComplete s) := by
  refine h.takeDraw.frameResult (by simpa using hr) fun k hk => ?_
  rw [takeDraw_cfg]
  exact outcomeOf_bin_range _ (frameOf_complete s h.legal) (frameOf_inRange s) hk

theorem Inv.pushSample (h : Inv s) (hr : s.session = .running) (x : Sample) : Inv (pushSample x s) := by
  unfold Machine.pushSample
  split_ifs with hlast
  · exact (h.storeSample x).frameComplete hr
  · refine (h.storeSample x).withFill hr ?_
    have hroom : s.fill.toNat < s.cfg.pN := h.spec.i5
    have hN : s.cfg.pN ≤ 65535 := pN_le_of_legal h.legal
    rw [storeSample_cfg]
    bv_omega

/-! ## Commands, steps and runs -/

theorem Inv.exec {i : Instr} {t : State} (h : Inv s) (hx : exec i s = .next t) : Inv t := by
  rcases exec_cases i s with ⟨k, d, _, he, _⟩ | ⟨k, _, _, he⟩ | ⟨_, _, he⟩ | ⟨_, _, he⟩ | ⟨_, _, he⟩ | ⟨x, _, hr, he⟩ |
    ⟨fw, _, hr, he⟩ | ⟨sel, v, _, ha, he⟩ <;> obtain rfl := Host.Outcome.next.inj (he.symm.trans hx)
  · exact h.respond k d
  · exact h.raiseError (some i) k
  · exact (h.clearSession .running).respond .ok 0
  · exact ((h.clearSession .stopped).emit (by decide)).respond .ok 0
  · exact (((h.setFlag .fault).clearSession .stopped).emit (by decide)).respond .ok 0
  · exact (h.pushSample hr x).respond .ok 0
  · exact (h.decodeFreq hr (freqOfWord fw)).respond .ok 0
  · exact (h.regWrite ha).respond .ok 0

theorem Inv.runWord {w : CmdWord} {t : State} (h : Inv s) (hx : runWord w s = .next t) : Inv t := by
  rcases runWord_cases w s with ⟨_, he⟩ | ⟨i, _, he⟩ <;> rw [he] at hx
  · exact Host.Outcome.next.inj hx ▸ h.raiseError none .illegal
  · exact h.exec hx

theorem Inv.step {t : State} (h : Inv s) (hx : step s = .next t) : Inv t := by
  cases hi : s.inp with
  | nil =>
    rw [Machine.step, takeWord, hi] at hx
    exact Host.Outcome.next.inj hx ▸ h
  | cons w rest =>
    rw [step_of_inp hi] at hx
    exact (h.takeInp rest).runWord hx

theorem Inv.runs {ws : List CmdWord} {t : State} (h : Inv s) (hx : Runs ws s t) : Inv t := by
  induction hx with
  | nil s => exact h
  | cons w ws s t u hw _ ih => exact ih (h.runWord hw)

/-! ## The statements -/

/-- Settles O14: the values of reset, at any legal configuration. -/
theorem resetMeetsInvariant : Obligations.ResetMeetsInvariant := by
  unfold Obligations.ResetMeetsInvariant
  exact ⟨inv_resetWith, inv_resetWith Config.default _⟩

/-- Settles O15: every operation that a command is made of keeps the invariant. -/
theorem stepKeepsInvariant : Obligations.StepKeepsInvariant := by
  unfold Obligations.StepKeepsInvariant
  exact fun _ _ h hx => h.step hx

/-- Settles O16: the invariant holds at reset and along every run. -/
theorem reachableInvariants : Obligations.ReachableInvariants := by
  unfold Obligations.ReachableInvariants
  exact fun c hc _ _ hx => ((inv_resetWith c hc).runs hx).spec

end Sys2Proof.Machine
end

section
/-! SUPPORT. The transitions of STATE (R130) and the lock of the settings (R24, R25, R162): the cases of what a command
can do. -/

namespace Sys2Proof.Machine

/-! ## STATE -/

/-- STATE after a command: an accepted START, STOP or FAULT sets it, and nothing else does (R130). -/
theorem exec_session {i : Instr} {s t : State} (hx : exec i s = .next t) :
    t.session =
      if i = .start then .running
      else if (i = .stop ∨ i = .fault) ∧ s.session = .running then .stopped
      else s.session := by
  rcases exec_cases i s with ⟨k, d, _, he, hi⟩ | ⟨k, _, hk, he⟩ | ⟨rfl, _, he⟩ | ⟨rfl, hr, he⟩ | ⟨rfl, hr, he⟩ |
    ⟨x, rfl, _, he⟩ | ⟨fw, rfl, _, he⟩ | ⟨sel, v, rfl, _, he⟩ <;> obtain rfl := Host.Outcome.next.inj (he.symm.trans hx)
  · rcases hi with ⟨c, rfl⟩ | ⟨fw, rfl⟩ | ⟨b, rfl⟩ | ⟨fw, rfl⟩ | ⟨sel, rfl⟩ <;> simp
  · rw [raiseError_session]
    rcases hk with ⟨rfl, hr, _⟩ | ⟨hi, hr, _⟩ | ⟨sel, rfl, _⟩ | ⟨sel, v, rfl, _⟩
    · exact hr
    · rcases hi with rfl | rfl | ⟨x, rfl⟩ | ⟨fw, rfl⟩ <;> simp [hr]
    · simp
    · simp
  · rfl
  · simp [hr]
  · simp [hr]
  · simp
  · simp
  · simp

/-! ## The settings -/

/-- `t` has the settings of `s`: MODE, POLICY, REPEAT_T and ETHRESH (R24, R25). -/
def SameSettings (s t : State) : Prop :=
  t.mode = s.mode ∧ t.policy = s.policy ∧ t.repeatT = s.repeatT ∧ t.ethresh = s.ethresh

/-- In a session the lock leaves FLAGS as the one register that a WRREG may write (R161). -/
theorem regWrite_settings_of_running {sel : BitVec 8} {v : RegWord} {s : State} (ha : wrregRefusal sel v s = none)
    (hr : s.session = .running) : SameSettings s (regWrite sel v s) := by
  rcases regWrite_cases ha with ⟨_, hn, _⟩ | ⟨_, hn, _⟩ | ⟨_, _, hw⟩
  · exact absurd hr hn
  · exact absurd hr hn
  · rw [hw]
    exact ⟨rfl, rfl, rfl, rfl⟩

/-- The settings are locked in a session, and no command but WRREG writes them (R24, R25). -/
theorem exec_settings {i : Instr} {s t : State} (hx : exec i s = .next t)
    (hl : s.session = .running ∨ ∀ sel v, i ≠ .wrreg sel v) : SameSettings s t := by
  rcases exec_cases i s with ⟨k, d, _, he, _⟩ | ⟨k, _, _, he⟩ | ⟨_, _, he⟩ | ⟨_, _, he⟩ | ⟨_, _, he⟩ | ⟨x, _, _, he⟩ |
    ⟨fw, _, _, he⟩ | ⟨sel, v, hi, ha, he⟩ <;> obtain rfl := Host.Outcome.next.inj (he.symm.trans hx)
  · exact ⟨rfl, rfl, rfl, rfl⟩
  · simp [SameSettings]
  · exact ⟨rfl, rfl, rfl, rfl⟩
  · exact ⟨rfl, rfl, rfl, rfl⟩
  · exact ⟨rfl, rfl, rfl, rfl⟩
  · simp [SameSettings]
  · simp [SameSettings]
  · exact regWrite_settings_of_running ha (hl.resolve_right fun hn => hn sel v hi)

/-! ## The statements -/

/-- Settles O44: the transitions of each command; an ILLEGAL word is refused and leaves STATE. -/
theorem sessionTransitions : Obligations.SessionTransitions := by
  unfold Obligations.SessionTransitions
  intro w s t hx
  rcases runWord_cases w s with ⟨hdec, he⟩ | ⟨i, hdec, he⟩
  · obtain rfl := Host.Outcome.next.inj (he.symm.trans hx)
    simp [hdec]
  · simpa only [hdec, Option.some.injEq] using exec_session (he.symm.trans hx)

/-- Settles O45: the lock of each command; an ILLEGAL word is refused and leaves the settings. -/
theorem settingsAreLocked : Obligations.SettingsAreLocked := by
  unfold Obligations.SettingsAreLocked
  intro w s t hx hl
  rcases runWord_cases w s with ⟨_, he⟩ | ⟨i, hdec, he⟩
  · obtain rfl := Host.Outcome.next.inj (he.symm.trans hx)
    simp
  · exact exec_settings (he.symm.trans hx) (hl.imp_right fun hn sel v hi => hn sel v (hdec.trans (congrArg some hi)))

end Sys2Proof.Machine
end

section
/-! SUPPORT. What FB holds at FILL and above is not observable (R34). Every command but an accepted SAMPLE runs alike
whatever FB holds; a SAMPLE stores at FILL, and the frame that it completes is read below FILL and at FILL alone. -/

namespace Sys2Proof.Machine

/-! ## The same state over another frame buffer -/

/-- `s` with the frame buffer `m`. -/
def State.withFb (m : Memory) (s : State) : State := { s with fb := m }

@[simp] theorem withFb_mode (m : Memory) (s : State) : (s.withFb m).mode = s.mode := rfl
@[simp] theorem withFb_policy (m : Memory) (s : State) : (s.withFb m).policy = s.policy := rfl
@[simp] theorem withFb_fill (m : Memory) (s : State) : (s.withFb m).fill = s.fill := rfl
@[simp] theorem withFb_fb (m : Memory) (s : State) : (s.withFb m).fb = m := rfl
@[simp] theorem withFb_cfg (m : Memory) (s : State) : (s.withFb m).cfg = s.cfg := rfl

/-- Agreement in terms of the frame buffer that the second state has instead. -/
theorem agreeFrame_iff {s t : State} :
    AgreeFrame s t ↔ ∃ m, t = s.withFb m ∧ ∀ i < s.fill.toNat, s.fb.read i = m.read i :=
  ⟨fun ⟨ht, hm⟩ => ⟨t.fb, ht.symm, hm⟩, fun ⟨_, ht, hm⟩ => ht ▸ ⟨rfl, hm⟩⟩

/-! ## The operations that leave FB alone do not depend on it -/

theorem raiseError_withFb (cmd : Option Instr) (k : RespCode) (m : Memory) (s : State) :
    raiseError cmd k (s.withFb m) = (raiseError cmd k s).withFb m := by
  unfold raiseError applyRefusalFlag
  rcases refusalFlag cmd k with _ | f
  · rfl
  · cases f <;> rfl

theorem repeatSymbol_withFb (m : Memory) (s : State) : repeatSymbol (s.withFb m) = (repeatSymbol s).withFb m := by
  rcases repeatSymbol_cases s with ⟨he, hn⟩ | ⟨he, hp⟩ <;> rw [he]
  · exact if_neg hn
  · exact if_pos hp

theorem textSymbol_withFb (c : BitVec 7) (m : Memory) (s : State) :
    textSymbol c (s.withFb m) = (textSymbol c s).withFb m := by
  rcases textSymbol_cases c s with ⟨hv, hc, he⟩ | ⟨hn, he⟩ <;> rw [he]
  · exact (if_pos ⟨hv, hc⟩).trans (repeatSymbol_withFb m s)
  · exact if_neg hn

theorem decodeBinary_withFb (b : BitVec 1) (m : Memory) (s : State) :
    decodeBinary (some b) (s.withFb m) = (decodeBinary (some b) s).withFb m := by
  rcases decodeBinary_cases b s with ⟨hp, he⟩ | ⟨hn, he⟩ <;> rw [he]
  · exact if_pos hp
  · exact if_neg hn

theorem decodeFreq_withFb (f : Freq) (m : Memory) (s : State) :
    decodeFreq f (s.withFb m) = (decodeFreq f s).withFb m := by
  unfold decodeFreq
  simp only [withFb_mode, withFb_cfg, withFb_policy]
  split_ifs
  · rfl
  · cases s.mode with
    | text =>
      cases f2c s.cfg f s.policy with
      | nomap => rfl
      | mapped c => exact textSymbol_withFb c m s
      | subst c => exact textSymbol_withFb c m s
    | binary =>
      cases f2b s.cfg f with
      | none => rfl
      | some b => exact decodeBinary_withFb b m s

theorem takeDraw_withFb (m : Memory) (s : State) : takeDraw (s.withFb m) = (takeDraw s).withFb m := by
  unfold takeDraw
  rw [apply_ite (State.withFb m)]
  rfl

theorem frameResult_withFb (e : Est) (m : Memory) (s : State) :
    frameResult e (s.withFb m) = (frameResult e s).withFb m := by
  cases e with
  | silent => exact decodeFreq_withFb Freq.silence m { s with evalid := true, fill := 0, esilent := true, ebin := 0 }
  | bin k =>
    exact decodeFreq_withFb (freqOfBin s.cfg k) m
      { s with evalid := true, fill := 0, esilent := false, ebin := BitVec.ofNat 16 k }

theorem regWrite_withFb (sel : BitVec 8) (v : RegWord) (m : Memory) (s : State) :
    regWrite sel v (s.withFb m) = (regWrite sel v s).withFb m := by
  unfold regWrite
  split_ifs <;> rfl

/-! ## Commands other than an accepted SAMPLE -/

/-- An answer, with the frame buffer `m` in the next state. -/
def outcomeWithFb (m : Memory) : Host.Outcome State Fault Refusal → Host.Outcome State Fault Refusal
  | .next s => .next (s.withFb m)
  | .fault r => .fault r
  | .refused r => .refused r

theorem ite_next_withFb {p : Prop} [Decidable p] {m : Memory} {a b a' b' : State} (ha : a' = a.withFb m)
    (hb : b' = b.withFb m) :
    (if p then Host.Outcome.next a' else .next b' : Host.Outcome State Fault Refusal) =
      outcomeWithFb m (if p then .next a else .next b) := by
  rw [ha, hb]
  split_ifs <;> rfl

theorem exec_sample_refused (x : Sample) {s : State} (hr : s.session ≠ .running) :
    exec (.sample x) s = .next (raiseError (some (.sample x)) .notRunning s) := if_neg hr

theorem exec_sample_accepted (x : Sample) {s : State} (hr : s.session = .running) :
    exec (.sample x) s = .next (respond .ok 0 (pushSample x s)) := if_pos hr

/-- No command but an accepted SAMPLE reads or writes FB. -/
theorem exec_withFb {i : Instr} {s : State} (hi : ∀ x, i = .sample x → s.session ≠ .running) (m : Memory) :
    exec i (s.withFb m) = outcomeWithFb m (exec i s) := by
  cases i with
  | start => exact ite_next_withFb (raiseError_withFb (some .start) .alreadyRunning m s) rfl
  | stop => exact ite_next_withFb rfl (raiseError_withFb (some .stop) .notRunning m s)
  | fault => exact ite_next_withFb rfl (raiseError_withFb (some .fault) .notRunning m s)
  | sample x =>
    have hr : s.session ≠ .running := hi x rfl
    rw [exec_sample_refused x hr, exec_sample_refused x (s := s.withFb m) hr, raiseError_withFb]
    rfl
  | freq fw =>
    exact ite_next_withFb (congrArg (respond .ok 0) (decodeFreq_withFb (freqOfWord fw) m s))
      (raiseError_withFb (some (.freq fw)) .notRunning m s)
  | c2f code =>
    simp only [exec, execC2f, withFb_cfg]
    cases c2f s.cfg code.toNat <;> rfl
  | f2c fw =>
    simp only [exec, execF2c, withFb_cfg, withFb_policy]
    cases f2c s.cfg (freqOfWord fw) s.policy <;> rfl
  | b2f bit => rfl
  | f2b fw =>
    simp only [exec, execF2b, withFb_cfg]
    cases f2b s.cfg (freqOfWord fw) <;> rfl
  | rdreg sel =>
    have hread : regRead sel (s.withFb m) = regRead sel s := rfl
    simp only [exec, execRdreg, hread]
    cases regRead sel s with
    | none => exact congrArg Host.Outcome.next (raiseError_withFb (some (.rdreg sel)) .badSel m s)
    | some v => rfl
  | wrreg sel v =>
    have hcheck : wrregRefusal sel v (s.withFb m) = wrregRefusal sel v s := rfl
    simp only [exec, execWrreg, hcheck]
    cases wrregRefusal sel v s with
    | none => exact congrArg (fun t => Host.Outcome.next (respond .ok 0 t)) (regWrite_withFb sel v m s)
    | some k => exact congrArg Host.Outcome.next (raiseError_withFb (some (.wrreg sel v)) k m s)

/-- A command other than an accepted SAMPLE leaves FB, and keeps FILL or sets it to 0. -/
theorem exec_fb_fill {i : Instr} {s t : State} (hi : ∀ x, i = .sample x → s.session ≠ .running) (hx : exec i s = .next t) :
    t.fb = s.fb ∧ t.fill.toNat ≤ s.fill.toNat := by
  rcases exec_cases i s with ⟨k, d, _, he, _⟩ | ⟨k, _, _, he⟩ | ⟨_, _, he⟩ | ⟨_, _, he⟩ | ⟨_, _, he⟩ | ⟨x, hs, hr, he⟩ |
    ⟨fw, _, _, he⟩ | ⟨sel, v, _, _, he⟩ <;> obtain rfl := Host.Outcome.next.inj (he.symm.trans hx)
  · simp
  · simp
  · simp
  · simp
  · simp
  · exact absurd hr (hi x hs)
  · simp
  · simp

/-! ## SAMPLE -/

/-- The frame that a sample completes is read below FILL and at FILL alone. -/
theorem completedFrame_withFb {m : Memory} {s : State} (x : Sample) (hlast : s.fill.toNat + 1 = s.cfg.pN)
    (hm : ∀ i < s.fill.toNat, s.fb.read i = m.read i) : completedFrame x (s.withFb m) = completedFrame x s := by
  unfold completedFrame
  congr 1
  refine List.map_congr_left fun i hi => ?_
  have hlt : i < s.fill.toNat + 1 := hlast ▸ List.mem_range.mp hi
  by_cases hfill : i = s.fill.toNat
  · exact (if_pos hfill).trans (if_pos hfill).symm
  · rw [if_neg hfill, hm i (by omega)]
    exact if_neg hfill

theorem frameComplete_withFb {m : Memory} {s : State} (hf : frameOf (s.withFb m) = frameOf s) :
    frameComplete (s.withFb m) = (frameComplete s).withFb m := by
  have hout : frameOutcome (s.withFb m) = frameOutcome s := congrArg (outcomeOf · (Config.estDraw s.draws)) hf
  rw [frameComplete, hout, takeDraw_withFb, frameResult_withFb]
  rfl

/-- A sample has the same effect but for the rest of FB. -/
theorem pushSample_withFb {m : Memory} {s : State} (x : Sample) (hs : s.fb.wf = true) (hwf : m.wf = true)
    (hm : ∀ i < s.fill.toNat, s.fb.read i = m.read i) :
    pushSample x (s.withFb m) = (pushSample x s).withFb (m.write s.fill.toNat x) := by
  have hstore : storeSample x (s.withFb m) = (storeSample x s).withFb (m.write s.fill.toNat x) := rfl
  unfold pushSample
  simp only [withFb_fill, withFb_cfg, hstore]
  split_ifs with hlast
  · refine frameComplete_withFb ?_
    rw [← hstore, frameOf_storeSample x _ hwf, frameOf_storeSample x s hs, completedFrame_withFb x hlast hm]
  · rfl

@[simp] theorem frameResult_fill (e : Est) (s : State) : (frameResult e s).fill = 0 := by
  cases e <;> simp [frameResult]

theorem pushSample_fill_le (x : Sample) (s : State) : (pushSample x s).fill.toNat ≤ s.fill.toNat + 1 := by
  unfold pushSample
  split_ifs
  · simp [frameComplete]
  · rw [BitVec.toNat_add]
    exact Nat.mod_le _ _

/-- A sample stored at FILL in both frame buffers leaves them alike up to and including FILL. -/
theorem read_write_agree {a b : Memory} {n i : ℕ} (x : Sample) (ha : a.wf = true) (hb : b.wf = true)
    (hab : ∀ j < n, a.read j = b.read j) (hi : i < n + 1) : (a.write n x).read i = (b.write n x).read i := by
  rw [Memory.read_write n i x ha, Memory.read_write n i x hb]
  split_ifs with hn
  · rfl
  · exact hab i (by omega)

/-! ## Every word -/

/-- Every command answers both states, and leaves them in agreement. -/
theorem exec_agreeFrame {i : Instr} {m : Memory} {s t : State} (hs : s.fb.wf = true) (hwf : m.wf = true)
    (hm : ∀ j < s.fill.toNat, s.fb.read j = m.read j) (hx : exec i s = .next t) :
    ∃ t', exec i (s.withFb m) = .next t' ∧ AgreeFrame t t' := by
  by_cases hi : ∀ x, i = .sample x → s.session ≠ .running
  · obtain ⟨hfb, hfill⟩ := exec_fb_fill hi hx
    refine ⟨t.withFb m, by rw [exec_withFb hi, hx, outcomeWithFb], agreeFrame_iff.mpr ⟨m, rfl, fun j hj => ?_⟩⟩
    rw [hfb]
    exact hm j (hj.trans_le hfill)
  · push Not at hi
    obtain ⟨x, rfl, hr⟩ := hi
    obtain rfl := Host.Outcome.next.inj ((exec_sample_accepted x hr).symm.trans hx)
    refine ⟨_, exec_sample_accepted x hr, agreeFrame_iff.mpr ⟨m.write s.fill.toNat x, ?_, fun j hj => ?_⟩⟩
    · rw [pushSample_withFb x hs hwf hm]
      rfl
    · rw [respond_fb, pushSample_fb]
      exact read_write_agree x hs hwf hm (hj.trans_le (pushSample_fill_le x s))

theorem AgreeFrame.raiseError {s t : State} (h : AgreeFrame s t) (cmd : Option Instr) (k : RespCode) :
    AgreeFrame (raiseError cmd k s) (raiseError cmd k t) := by
  obtain ⟨m, rfl, hm⟩ := agreeFrame_iff.mp h
  exact agreeFrame_iff.mpr ⟨m, raiseError_withFb cmd k m s, by simpa using hm⟩

theorem runWord_agreeFrame {w : CmdWord} {s t s' : State} (hs : s.fb.wf = true) (ht : t.fb.wf = true)
    (h : AgreeFrame s t) (hx : runWord w s = .next s') : ∃ t', runWord w t = .next t' ∧ AgreeFrame s' t' := by
  cases hdec : decode w with
  | none =>
    rw [runWord, hdec] at hx ⊢
    obtain rfl := Host.Outcome.next.inj hx
    exact ⟨_, rfl, h.raiseError none .illegal⟩
  | some i =>
    rw [runWord_of_decode hdec] at hx ⊢
    obtain ⟨m, rfl, hm⟩ := agreeFrame_iff.mp h
    exact exec_agreeFrame hs ht hm hx

/-- Settles O50: the two states answer alike and stay in agreement, and agreement covers responses and tokens. -/
theorem frameBufferIsUnobservable : Obligations.FrameBufferIsUnobservable := by
  unfold Obligations.FrameBufferIsUnobservable
  intro w s t s' hs ht h hx
  obtain ⟨t', hx', h'⟩ := runWord_agreeFrame hs ht h hx
  obtain ⟨m, rfl, _⟩ := agreeFrame_iff.mp h'
  exact ⟨_, hx', h', rfl, rfl⟩

end Sys2Proof.Machine
end

section
/-! SUPPORT. Words and registers read back as they were written: a byte-wide link carries every bit of a word (R52), and
a register holds what an accepted WRREG wrote (R58, R194). The queries and RDREG write nothing at all (R54). -/

namespace Sys2Proof

/-! ## The byte-wide link -/

/-- Two neighbouring slices of a word, put together, are one slice: the library's lemma where the widths need no cast. -/
theorem extract_append_extract {w m : ℕ} (x : BitVec w) (a n : ℕ) :
    x.extractLsb' (a + n) m ++ x.extractLsb' a n = x.extractLsb' a (m + n) :=
  BitVec.extractLsb'_append_extractLsb'_eq_extractLsb' rfl

/-- The byte `j` of a word on the link holds the bits from `8 * j` up (R52). -/
theorem linkBytes_eq_map (w : CmdWord) : linkBytes w = (List.range 8).map fun j => w.extractLsb' (8 * j) 8 := rfl

/-- The eight bytes, the last to arrive on top, are the word again (R52). -/
theorem wordOfLink_linkBytes_append (w : CmdWord) (rest : List (BitVec 8)) :
    wordOfLink (linkBytes w ++ rest) = some (w, rest) := by
  simp only [linkBytes, List.cons_append, List.nil_append, wordOfLink]
  rw [extract_append_extract w 48 8, extract_append_extract w 40 8,
    extract_append_extract w 32 8, extract_append_extract w 24 8,
    extract_append_extract w 16 8, extract_append_extract w 8 8,
    extract_append_extract w 0 8]
  exact congrArg (fun x => some (x, rest)) BitVec.extractLsb'_eq_self

end Sys2Proof

namespace Sys2Proof.Machine

/-! ## CONFIG read back -/

theorem modeBit_ite (b : Bool) : modeBit (if b then .binary else .text) = BitVec.ofBool b := by cases b <;> rfl

theorem policyBit_ite (b : Bool) : policyBit (if b then .placeholder else .drop) = BitVec.ofBool b := by cases b <;> rfl

theorem ofBool_getLsbD {w : ℕ} (x : BitVec w) (i : ℕ) : BitVec.ofBool (x.getLsbD i) = x.extractLsb' i 1 := by
  apply BitVec.eq_of_getLsbD_eq
  intro j hj
  obtain rfl : j = 0 := by omega
  simp

/-- The fields of CONFIG keep every bit of a legal value: the reserved bits, which they leave out, are 0 (R24, R162). -/
theorem configWord_setConfig {v : RegWord} (hv : legalConfig v = true) (s : State) : configWord (setConfig v s) = v := by
  simp only [legalConfig, Bool.and_eq_true, decide_eq_true_eq] at hv
  obtain ⟨⟨hlow, hhigh⟩, _⟩ := hv
  rw [configWord, setConfig_mode, setConfig_policy, setConfig_repeatT, modeBit_ite, policyBit_ite, ofBool_getLsbD,
    ofBool_getLsbD, ← hlow, ← hhigh, extract_append_extract v 8 8, extract_append_extract v 2 6,
    extract_append_extract v 1 1, extract_append_extract v 0 1]
  exact BitVec.extractLsb'_eq_self

/-! ## WRREG and RDREG -/

theorem exec_rdreg_of_regRead {sel : BitVec 8} {v : RegWord} {s : State} (h : regRead sel s = some v) :
    exec (.rdreg sel) s = .next (respond .ok v s) := by
  simp only [exec, execRdreg, h]

/-- A WRREG is refused by one of the checks, or writes (R161). -/
theorem exec_wrreg_cases (sel : BitVec 8) (v : RegWord) (s : State) :
    (∃ k, isRefusal k = true ∧ wrregRefusal sel v s = some k ∧
      exec (.wrreg sel v) s = .next (raiseError (some (.wrreg sel v)) k s)) ∨
    (wrregRefusal sel v s = none ∧ exec (.wrreg sel v) s = .next (respond .ok 0 (regWrite sel v s))) := by
  simpa [Refused] using exec_cases (.wrreg sel v) s

/-- The response OK tells an accepted WRREG from a refused one (R75, R171). -/
theorem exec_wrreg_accepted {sel : BitVec 8} {v : RegWord} {s t : State} (hx : exec (.wrreg sel v) s = .next t)
    (hok : t.resp = s.resp ++ [mkResponse .ok 0]) :
    wrregRefusal sel v s = none ∧ t = respond .ok 0 (regWrite sel v s) := by
  rcases exec_wrreg_cases sel v s with ⟨k, href, _, he⟩ | ⟨ha, he⟩ <;>
    obtain rfl := Host.Outcome.next.inj (he.symm.trans hx)
  · rw [raiseError_resp] at hok
    obtain ⟨rfl, _⟩ := mkResponse_inj (List.singleton_inj.mp (List.append_cancel_left hok))
    exact absurd href (by decide)
  · exact ⟨ha, rfl⟩

/-- CONFIG and ETHRESH hold what an accepted WRREG wrote (R162, R163); FLAGS does not, its ones clear (R164). -/
theorem regRead_regWrite {sel : BitVec 8} {v : RegWord} {s : State} (ha : wrregRefusal sel v s = none)
    (hsel : sel = 0x01 ∨ sel = 0x02) : regRead sel (regWrite sel v s) = some v := by
  rcases regWrite_cases ha with ⟨rfl, _, hv, hw⟩ | ⟨rfl, _, hw⟩ | ⟨rfl, _, _⟩
  · rw [hw]
    exact congrArg some (configWord_setConfig hv s)
  · rw [hw]
    rfl
  · exact absurd hsel (by decide)

/-- A response changes no register. -/
theorem regRead_respond (sel : BitVec 8) (k : RespCode) (d : RegWord) (s : State) :
    regRead sel (respond k d s) = regRead sel s := rfl

/-! ## The queries -/

/-- C2F, F2C, B2F, F2B or RDREG: a command that only asks (R54, R96 to R99, R160). -/
def IsQuery (i : Instr) : Prop :=
  (∃ c, i = .c2f c) ∨ (∃ fw, i = .f2c fw) ∨ (∃ b, i = .b2f b) ∨ (∃ fw, i = .f2b fw) ∨ (∃ sel, i = .rdreg sel)

/-- The one refusal of a query is RDREG's BAD_SEL (R172). -/
theorem Refused.badSel_of_isQuery {i : Instr} {k : RespCode} {s : State} (h : Refused i k s) (hq : IsQuery i) :
    k = .badSel := by
  rcases hq with ⟨c, rfl⟩ | ⟨fw, rfl⟩ | ⟨b, rfl⟩ | ⟨fw, rfl⟩ | ⟨sel, rfl⟩
  · simp [Refused] at h
  · simp [Refused] at h
  · simp [Refused] at h
  · simp [Refused] at h
  · have hk : regRead sel s = none ∧ k = .badSel := by simpa [Refused] using h
    exact hk.2

/-- A query responds and does nothing else: BAD_SEL, its only refusal, sets no flag (R173). -/
theorem exec_query {i : Instr} (hq : IsQuery i) (s : State) : ∃ k d, exec i s = .next (respond k d s) := by
  rcases exec_cases i s with ⟨k, d, _, he, _⟩ | ⟨k, _, hk, he⟩ | haccepted
  · exact ⟨k, d, he⟩
  · obtain rfl := hk.badSel_of_isQuery hq
    exact ⟨.badSel, 0, he⟩
  · rcases hq with ⟨c, rfl⟩ | ⟨fw, rfl⟩ | ⟨b, rfl⟩ | ⟨fw, rfl⟩ | ⟨sel, rfl⟩ <;> simp at haccepted

/-! ## The statements -/

/-- Settles O6: the bytes by their places, and the word they make. -/
theorem linkByteOrder : Obligations.LinkByteOrder := by
  unfold Obligations.LinkByteOrder
  intro w rest
  exact ⟨rfl, fun j hj => by simp [linkBytes_eq_map, hj], wordOfLink_linkBytes_append w rest, fun _ => rfl⟩

/-- Settles O47: the register holds the value written, and the response to the write leaves it there. -/
theorem writeThenRead : Obligations.WriteThenRead := by
  unfold Obligations.WriteThenRead
  intro sel v s t hx hok hsel
  obtain ⟨ha, rfl⟩ := exec_wrreg_accepted hx hok
  exact exec_rdreg_of_regRead ((regRead_respond sel .ok 0 _).trans (regRead_regWrite ha hsel))

/-- Settles O53: a query is its response. -/
theorem queriesFrame : Obligations.QueriesFrame := by
  unfold Obligations.QueriesFrame
  intro i s hq
  obtain ⟨k, d, he⟩ := exec_query hq s
  exact ⟨respond k d s, mkResponse k d, he, rfl, fun _ => rfl⟩

end Sys2Proof.Machine
end

section
/-! SUPPORT. The encoding of commands (R70 to R74, R78, R79): decoding and encoding undo each other, the opcode table and
the fields of a word decide which words are ILLEGAL, and the assembler gives the words of R79. -/

namespace Sys2Proof

/-! ## The command of a word -/

/-- The command that a legal word's fields stand for has those fields (R73). -/
theorem fields_of_commandOf {opc sel : BitVec 8} {data : RegWord} {i : Instr} (h : commandOf opc sel data = some i)
    (hsel : usesSelect opc = true ∨ sel = 0) (hdata : data &&& zmask opc = 0) :
    opcodeOf i = opc ∧ selectOf i = sel ∧ dataOf i = data := by
  have hnone : data &&& 0xFFFFFFFF#32 = 0#32 → 0 = data := fun hd => ((zmask_none_iff data).mp hd).symm
  have hzero : ∀ {o : BitVec 8}, usesSelect o = false → usesSelect o = true ∨ sel = 0 → 0 = sel := fun ho hs =>
    (hs.resolve_left (by simp [ho])).symm
  rcases commandOf_cases h with ⟨rfl, rfl⟩ | ⟨rfl, rfl⟩ | ⟨rfl, rfl⟩ | ⟨rfl, rfl⟩ | ⟨rfl, rfl⟩ | ⟨rfl, rfl⟩ |
    ⟨rfl, rfl⟩ | ⟨rfl, rfl⟩ | ⟨rfl, rfl⟩ | ⟨rfl, rfl⟩ | ⟨rfl, rfl⟩
  · exact ⟨rfl, hzero rfl hsel, hnone hdata⟩
  · exact ⟨rfl, hzero rfl hsel, hnone hdata⟩
  · exact ⟨rfl, hzero rfl hsel, hnone hdata⟩
  · exact ⟨rfl, hzero rfl hsel, (zmask_sample_iff data).mp hdata⟩
  · exact ⟨rfl, hzero rfl hsel, rfl⟩
  · exact ⟨rfl, hzero rfl hsel, (zmask_c2f_iff data).mp hdata⟩
  · exact ⟨rfl, hzero rfl hsel, rfl⟩
  · exact ⟨rfl, hzero rfl hsel, (zmask_b2f_iff data).mp hdata⟩
  · exact ⟨rfl, hzero rfl hsel, rfl⟩
  · exact ⟨rfl, rfl, hnone hdata⟩
  · exact ⟨rfl, rfl, rfl⟩

/-- A command has one word only (R71, R78). -/
theorem encode_of_decode {w : CmdWord} {i : Instr} (h : decode w = some i) : encode i = w := by
  obtain ⟨hw, hsel, hdata, hcmd⟩ := decode_cases h
  obtain ⟨ho, hs, hd⟩ := fields_of_commandOf hcmd hsel hdata
  rw [hw, encode, ho, hs, hd]

/-! ## The ILLEGAL words -/

/-- The operation codes of the opcode table, in its order (R72). -/
def opcodes : List (BitVec 8) :=
  [0x01#8, 0x02#8, 0x03#8, 0x10#8, 0x11#8, 0x20#8, 0x21#8, 0x22#8, 0x23#8, 0x30#8, 0x31#8]

theorem legalOpcode_iff {opc : BitVec 8} : legalOpcode opc = true ↔ opc ∈ opcodes := decide_eq_true_iff

/-- Every listed operation code has a command for each operand (R72). -/
theorem commandOf_ne_none {opc : BitVec 8} (h : opc ∈ opcodes) (sel : BitVec 8) (data : RegWord) :
    commandOf opc sel data ≠ none := by
  unfold opcodes at h
  fin_cases h <;> exact Option.some_ne_none _

/-- A word passes the four tests of R71 when each field is as its operation code allows. -/
theorem illegal?_eq_none_iff (w : CmdWord) : illegal? w = none ↔
    opcField w ∈ opcodes ∧ rsvdField w = 0 ∧ (usesSelect (opcField w) = true ∨ selField w = 0) ∧
      dataField w &&& zmask (opcField w) = 0 := by
  rw [← legalOpcode_iff, illegal?]
  split_ifs with ho hr hs hd
  · exact iff_of_false nofun fun ⟨h, _⟩ => absurd (h.symm.trans ho) (by decide)
  · exact iff_of_false nofun fun ⟨_, h, _⟩ => hr h
  · exact iff_of_false nofun fun ⟨_, _, h, _⟩ => h.elim (fun hu => absurd (hu.symm.trans hs.1) (by decide)) hs.2
  · exact iff_of_false nofun fun ⟨_, _, _, h⟩ => hd h
  · have hsel : usesSelect (opcField w) = true ∨ selField w = 0 := by
      rwa [not_and_or, Bool.not_eq_false, not_not] at hs
    exact iff_of_true rfl ⟨(Bool.not_eq_false _).mp ho, not_not.mp hr, hsel, not_not.mp hd⟩

/-- A word that passes the tests is a command: no listed operation code is without one. -/
theorem decode_eq_none_iff (w : CmdWord) : decode w = none ↔ illegal? w ≠ none := by
  unfold decode
  cases h : illegal? w with
  | some r => simp
  | none => simpa using commandOf_ne_none ((illegal?_eq_none_iff w).mp h).1 (selField w) (dataField w)

/-- The must-be-zero bits of each operation code (R73): all of DATA, some of it, or none. -/
theorem and_zmask_ne_zero_iff (opc : BitVec 8) (d : RegWord) : d &&& zmask opc ≠ 0 ↔
    (opc ∈ [0x01#8, 0x02#8, 0x03#8, 0x30#8] ∧ d ≠ 0) ∨ (opc = 0x10#8 ∧ d &&& 0xFFFF0000#32 ≠ 0) ∨
      (opc = 0x20#8 ∧ d &&& 0xFFFFFF00#32 ≠ 0) ∨ (opc = 0x22#8 ∧ d &&& 0xFFFFFFFE#32 ≠ 0) := by
  unfold zmask
  split_ifs <;> simp [*, zmask_none_iff]

/-! ## The opcode table -/

/-- The row of an operation code: SEL is in the mask where the command does not use it, DATA by its must-be-zero bits. -/
def rowOfOpcode (opc : BitVec 8) : TableRow :=
  ⟨mkWord opc 0 0, 0xFF#8 ++ (if usesSelect opc then 0x00#8 else 0xFF#8) ++ 0xFFFF#16 ++ zmask opc⟩

theorem opcodeTable_eq_map : opcodeTable = opcodes.map rowOfOpcode := by decide

theorem tableRow_eq_rowOfOpcode (i : Instr) : tableRow i = rowOfOpcode (opcodeOf i) := by
  cases i with
  | start => decide
  | stop => decide
  | fault => decide
  | sample _ => exact (by decide : tableRow (.sample 0) = rowOfOpcode 0x10)
  | freq _ => exact (by decide : tableRow (.freq 0) = rowOfOpcode 0x11)
  | c2f _ => exact (by decide : tableRow (.c2f 0) = rowOfOpcode 0x20)
  | f2c _ => exact (by decide : tableRow (.f2c 0) = rowOfOpcode 0x21)
  | b2f _ => exact (by decide : tableRow (.b2f 0) = rowOfOpcode 0x22)
  | f2b _ => exact (by decide : tableRow (.f2b 0) = rowOfOpcode 0x23)
  | rdreg _ => exact (by decide : tableRow (.rdreg 0) = rowOfOpcode 0x30)
  | wrreg _ _ => exact (by decide : tableRow (.wrreg 0 0) = rowOfOpcode 0x31)

theorem rsvdField_append (o s : BitVec 8) (r : BitVec 16) (d : RegWord) : rsvdField (o ++ s ++ r ++ d) = r := by
  apply BitVec.eq_of_getLsbD_eq
  intro i hi
  simp only [rsvdField, BitVec.getLsbD_extractLsb', BitVec.getLsbD_append]
  simp [hi]

theorem rsvdField_of_rowOfOpcode_matches {opc : BitVec 8} {w : CmdWord} (h : (rowOfOpcode opc).matches w = true) :
    rsvdField w = 0 :=
  rsvdField_of_and (rsvdField_append _ _ _ _) (rsvdField_mkWord opc 0 0) (of_decide_eq_true h)

/-- A word matches a row exactly when it has the row's operation code and passes the other tests of R71. -/
theorem rowOfOpcode_matches_iff (opc : BitVec 8) (w : CmdWord) : (rowOfOpcode opc).matches w = true ↔
    opcField w = opc ∧ rsvdField w = 0 ∧ (usesSelect opc = true ∨ selField w = 0) ∧ dataField w &&& zmask opc = 0 := by
  have hsel : selField w &&& (if usesSelect opc then 0x00#8 else 0xFF#8) = 0 ↔
      (usesSelect opc = true ∨ selField w = 0) := by
    cases usesSelect opc with
    | true => simp
    | false => simpa using Eq.congr_left (BitVec.and_allOnes (x := selField w))
  have hfields : rsvdField w = 0 → ((rowOfOpcode opc).matches w = true ↔
      opcField w = opc ∧ (usesSelect opc = true ∨ selField w = 0) ∧ dataField w &&& zmask opc = 0) := by
    intro hr
    have hopc : opcField w &&& 0xFF#8 = opcField w := BitVec.and_allOnes
    conv_lhs => rw [← mkWord_fields w hr]
    rw [rowOfOpcode, Laws.Encoding.matches_mkWord, hsel, hopc]
  constructor
  · intro h
    have hr := rsvdField_of_rowOfOpcode_matches h
    obtain ⟨ho, hrest⟩ := (hfields hr).mp h
    exact ⟨ho, hr, hrest⟩
  · rintro ⟨ho, hr, hrest⟩
    exact (hfields hr).mpr ⟨ho, hrest⟩

/-- A word is a command exactly when it matches a row, the row of its own operation code (R71). -/
theorem decode_eq_none_iff_rows (w : CmdWord) : decode w = none ↔ ∀ r ∈ opcodeTable, r.matches w = false := by
  rw [decode_eq_none_iff, ne_eq, illegal?_eq_none_iff, opcodeTable_eq_map, List.forall_mem_map]
  simp only [Bool.eq_false_iff, ne_eq, rowOfOpcode_matches_iff]
  exact ⟨fun h o ho ⟨hopc, hrest⟩ => h (hopc ▸ ⟨ho, hopc ▸ hrest⟩), fun h ⟨ho, hrest⟩ => h _ ho ⟨rfl, hrest⟩⟩

/-- The word of a command matches the command's row (R73). -/
theorem tableRow_matches_of_decode {w : CmdWord} {i : Instr} (h : decode w = some i) : (tableRow i).matches w = true := by
  have hlegal : illegal? w = none := by
    by_contra hill
    exact absurd (h.symm.trans ((decode_eq_none_iff w).mpr hill)) (Option.some_ne_none i)
  obtain ⟨-, hr, hsel, hdata⟩ := (illegal?_eq_none_iff w).mp hlegal
  have hopc : opcodeOf i = opcField w := by rw [← encode_of_decode h, encode, opcField_mkWord]
  rw [tableRow_eq_rowOfOpcode, rowOfOpcode_matches_iff, hopc]
  exact ⟨rfl, hr, hsel, hdata⟩

/-- Rows differ in their operation codes, so no word matches two of them. -/
theorem opcodeTable_pairwise_disjoint :
    opcodeTable.Pairwise fun r r' => ∀ w : CmdWord, ¬(r.matches w = true ∧ r'.matches w = true) := by
  have hne : opcodes.Pairwise (· ≠ ·) := by decide
  rw [opcodeTable_eq_map, List.pairwise_map]
  refine hne.imp fun {o o'} hoo w ⟨h, h'⟩ => hoo ?_
  exact ((rowOfOpcode_matches_iff o w).mp h).1.symm.trans ((rowOfOpcode_matches_iff o' w).mp h').1

/-! ## The assembler -/

theorem assemble_eq_some_iff (l : AsmLine) (w : CmdWord) :
    assemble l = some w ↔ l.wellFormed = true ∧ encode (instrOfLine l) = w := by
  rw [assemble, Option.ite_none_right_eq_some, Option.some.injEq]

theorem isSome_assemble (l : AsmLine) : (assemble l).isSome = l.wellFormed := by
  rw [assemble]
  cases l.wellFormed <;> rfl

/-- DATA[15:0] of SAMPLE s is s modulo 2^16 (R79). -/
theorem setWidth_ofInt_sample (s : ℤ) : (BitVec.ofInt 16 s).setWidth 32 = BitVec.ofNat 32 (s % 65536).toNat := by
  apply BitVec.eq_of_toNat_eq
  rw [BitVec.toNat_setWidth, BitVec.toNat_ofInt, BitVec.toNat_ofNat]
  rfl

/-- f·256 is a natural number exactly when den divides num·256, and then it is the quotient (R79). -/
theorem natCast_eq_mul_256_iff {num den : ℕ} (hden : 0 < den) (d : ℕ) :
    (d : ℚ) = (num : ℚ) / den * 256 ↔ num * 256 % den = 0 ∧ d = num * 256 / den := by
  have hne : (den : ℚ) ≠ 0 := by exact_mod_cast hden.ne'
  rw [div_mul_eq_mul_div, eq_div_iff hne]
  norm_cast
  constructor
  · intro h
    rw [← h]
    exact ⟨Nat.mul_mod_left d den, (Nat.mul_div_cancel d hden).symm⟩
  · rintro ⟨hmod, rfl⟩
    exact Nat.div_mul_cancel (Nat.dvd_of_mod_eq_zero hmod)

/-- A frequency in Hz is accepted exactly when f·256 is an integer below 2^32, and that integer is DATA (R79). -/
theorem hz_word_iff (opc : BitVec 8) (num den : ℕ) (w : CmdWord) :
    (FreqOperand.hz num den).wellFormed = true ∧ mkWord opc 0 (wordOfFreq (.hz num den)) = w ↔
      0 < den ∧ ∃ d : ℕ, d < 2 ^ 32 ∧ (d : ℚ) = (num : ℚ) / den * 256 ∧ w = opc ++ 0#8 ++ 0#16 ++ BitVec.ofNat 32 d := by
  simp only [FreqOperand.wellFormed, wordOfFreq, Bool.and_eq_true, decide_eq_true_eq]
  constructor
  · rintro ⟨⟨⟨hden, hmod⟩, hlt⟩, rfl⟩
    exact ⟨hden, _, hlt, (natCast_eq_mul_256_iff hden _).mpr ⟨hmod, rfl⟩, rfl⟩
  · rintro ⟨hden, d, hlt, hd, rfl⟩
    obtain ⟨hmod, rfl⟩ := (natCast_eq_mul_256_iff hden d).mp hd
    exact ⟨⟨⟨hden, hmod⟩, hlt⟩, rfl⟩

/-- The assembler on a form of line, from the range of its operands and the word of those in range (R79). -/
theorem assemble_eq_ite {l : AsmLine} {p : Prop} [Decidable p] {w : CmdWord} (hwf : l.wellFormed = true ↔ p)
    (hw : p → encode (instrOfLine l) = w) : assemble l = if p then some w else none := by
  split_ifs with hp
  · exact (assemble_eq_some_iff l w).mpr ⟨hwf.mpr hp, hw hp⟩
  · exact if_neg (mt hwf.mp hp)

/-- The selects of the register names (R22). -/
def regSelects : List (RegName × ℕ) :=
  [(.status, 0x00), (.config, 0x01), (.ethresh, 0x02), (.dec, 0x03), (.bits, 0x04), (.est, 0x05), (.fill, 0x06),
   (.flags, 0x07), (.paramRate, 0x08), (.paramN, 0x09)]

theorem selectOfName_of_mem : ∀ p ∈ regSelects, selectOfName p.1 = BitVec.ofNat 8 p.2 := by decide

theorem assemble_sample (s : ℤ) : assemble (.sample s) =
    if -32768 ≤ s ∧ s ≤ 32767 then some (0x10#8 ++ 0#8 ++ 0#16 ++ BitVec.ofNat 32 (s % 65536).toNat) else none :=
  assemble_eq_ite (by simp [AsmLine.wellFormed]) fun _ => congrArg (mkWord 0x10 0) (setWidth_ofInt_sample s)

theorem assemble_c2f_number (c : ℕ) : assemble (.c2f (.number c)) =
    if c ≤ 255 then some (0x20#8 ++ 0#8 ++ 0#16 ++ BitVec.ofNat 32 c) else none :=
  assemble_eq_ite decide_eq_true_iff fun hc =>
    congrArg (mkWord 0x20 0) (BitVec.setWidth_ofNat_of_le_of_lt (by omega) (by omega))

theorem assemble_c2f_char (ch : Char) : assemble (.c2f (.char ch)) =
    if ch.toNat ≤ 127 then some (0x20#8 ++ 0#8 ++ 0#16 ++ BitVec.ofNat 32 ch.toNat) else none :=
  assemble_eq_ite decide_eq_true_iff fun hc =>
    congrArg (mkWord 0x20 0) (BitVec.setWidth_ofNat_of_le_of_lt (by omega) (by omega))

theorem assemble_b2f (b : ℕ) :
    assemble (.b2f b) = if b ≤ 1 then some (0x22#8 ++ 0#8 ++ 0#16 ++ BitVec.ofNat 32 b) else none :=
  assemble_eq_ite decide_eq_true_iff fun hb =>
    congrArg (mkWord 0x22 0) (BitVec.setWidth_ofNat_of_le_of_lt (by omega) (by omega))

theorem wellFormed_number_iff (r : ℕ) : (RegOperand.number r).wellFormed = true ↔ r ≤ 255 := decide_eq_true_iff

theorem assemble_rdreg_number (r : ℕ) : assemble (.rdreg (.number r)) =
    if r ≤ 255 then some (0x30#8 ++ BitVec.ofNat 8 r ++ 0#16 ++ 0#32) else none :=
  assemble_eq_ite (wellFormed_number_iff r) fun _ => rfl

theorem assemble_wrreg_number (r v : ℕ) : assemble (.wrreg (.number r) v) =
    if r ≤ 255 ∧ v < 2 ^ 32 then some (0x31#8 ++ BitVec.ofNat 8 r ++ 0#16 ++ BitVec.ofNat 32 v) else none :=
  assemble_eq_ite (by simp [AsmLine.wellFormed, wellFormed_number_iff]) fun _ => rfl

theorem assemble_rdreg_name (r : RegName) :
    assemble (.rdreg (.name r)) = some (0x30#8 ++ selectOfName r ++ 0#16 ++ 0#32) := rfl

theorem assemble_wrreg_name (r : RegName) (v : ℕ) : assemble (.wrreg (.name r) v) =
    if v < 2 ^ 32 then some (0x31#8 ++ selectOfName r ++ 0#16 ++ BitVec.ofNat 32 v) else none :=
  assemble_eq_ite decide_eq_true_iff fun _ => rfl

end Sys2Proof

/-! ## The statements -/

namespace Sys2Proof.Machine

/-- Settles O1: decoding undoes encoding, as the step needs it too. -/
theorem decodeOfEncode : Obligations.DecodeOfEncode := decode_encode

/-- Settles O2: a word that decodes has the fields of its command. -/
theorem encodeOfDecode : Obligations.EncodeOfDecode := fun _ _ => encode_of_decode

/-- Settles O3: each row is the test of its operation code. -/
theorem decodeByTable : Obligations.DecodeByTable :=
  ⟨decode_eq_none_iff_rows, fun _ _ => tableRow_matches_of_decode, opcodeTable_pairwise_disjoint⟩

/-- Settles O4: an ILLEGAL word fails a test of R71, and the words of RDREG and WRREG pass them with any SEL. -/
theorem illegalWords : Obligations.IllegalWords := by
  unfold Obligations.IllegalWords
  refine ⟨fun w => ?_, fun sel v => ⟨decode_encode (.rdreg sel), decode_encode (.wrreg sel v)⟩⟩
  rw [decode_eq_none_iff, ne_eq, illegal?_eq_none_iff, not_and_or, not_and_or, not_and_or, not_or, ← ne_eq (_ &&& _),
    and_zmask_ne_zero_iff]
  simp [opcodes, usesSelect, and_assoc]

/-- Settles O7: the forms of line one by one. -/
theorem assemblerAgreesWithDecoder : Obligations.AssemblerAgreesWithDecoder := by
  unfold Obligations.AssemblerAgreesWithDecoder
  refine ⟨isSome_assemble, fun l w h => ?_, by decide, by decide, by decide, assemble_sample, fun num den w => ⟨?_, ?_, ?_⟩,
    fun v => ⟨?_, ?_, ?_⟩, assemble_c2f_number, assemble_c2f_char, assemble_b2f, assemble_rdreg_number,
    assemble_wrreg_number, fun p hp => ?_⟩
  · obtain ⟨-, rfl⟩ := (assemble_eq_some_iff l w).mp h
    exact decode_encode (instrOfLine l)
  · exact (assemble_eq_some_iff _ w).trans (hz_word_iff 0x11 num den w)
  · exact (assemble_eq_some_iff _ w).trans (hz_word_iff 0x21 num den w)
  · exact (assemble_eq_some_iff _ w).trans (hz_word_iff 0x23 num den w)
  · exact assemble_eq_ite decide_eq_true_iff fun _ => rfl
  · exact assemble_eq_ite decide_eq_true_iff fun _ => rfl
  · exact assemble_eq_ite decide_eq_true_iff fun _ => rfl
  · rw [← selectOfName_of_mem p hp]
    exact ⟨assemble_rdreg_name p.1, assemble_wrreg_name p.1⟩

/-- Settles O5: the decoder is evaluated on each word. -/
theorem sampleWordsDecode : Obligations.SampleWordsDecode := by
  unfold Obligations.SampleWordsDecode
  decide

theorem runWord_of_illegal {w : CmdWord} (h : decode w = none) (s : State) :
    runWord w s = .next (raiseError none .illegal s) := by
  rw [runWord, h]
  rfl

/-- Settles O9: the word is taken, and its refusal sets the flag of ILLEGAL and responds. -/
theorem stepOnIllegalWord : Obligations.StepOnIllegalWord := by
  unfold Obligations.StepOnIllegalWord
  intro s w rest h hdec
  rw [step_of_inp h, runWord_of_illegal hdec]
  rfl

end Sys2Proof.Machine
end

section
/-! SUPPORT. Each row of the opcode table as `EncodedAs` states it: its words are the commands of its operation code, and
any other word with that code is refused with ILLEGAL (R71 to R73). -/

namespace Sys2Proof.Machine

/-- The row of an operation code names its words: one that matches is the command that its fields stand for, any other
fails a test of R71. -/
theorem encodedAs_of_row {opc : BitVec 8} {m k : CmdWord} {command : CmdWord → Instr} (hopc : opc ∈ opcodes)
    (hrow : rowOfOpcode opc = ⟨m, k⟩)
    (hcmd : ∀ w, commandOf opc (selField w) (dataField w) = some (command w)) : EncodedAs opc m k command := by
  intro w ho
  have hmatch : w &&& k = m ↔ illegal? w = none := by
    have hrow_iff := rowOfOpcode_matches_iff opc w
    rw [hrow, TableRow.matches, decide_eq_true_iff] at hrow_iff
    rw [hrow_iff, illegal?_eq_none_iff, ho]
    exact and_congr_left' (iff_of_true rfl hopc)
  by_cases h : w &&& k = m
  · have hdec : decode w = some (command w) := by rw [decode, hmatch.mp h, ho, hcmd]
    rw [if_pos h]
    exact ⟨hdec, fun s => (runWord_of_decode hdec s).trans (if_pos h).symm⟩
  · have hdec : decode w = none := (decode_eq_none_iff w).mpr (mt hmatch.mpr h)
    rw [if_neg h]
    exact ⟨hdec, fun s => (runWord_of_illegal hdec s).trans (if_neg h).symm⟩

theorem encodedAs_c2f :
    EncodedAs 0x20 0x2000000000000000 0xFFFFFFFFFFFFFF00 (fun w => .c2f (w.extractLsb' 0 8)) :=
  encodedAs_of_row (by decide) (by decide) fun w =>
    congrArg (fun x => some (Instr.c2f x)) (BitVec.extractLsb'_extractLsb'_of_le (by omega))

theorem encodedAs_f2c :
    EncodedAs 0x21 0x2100000000000000 0xFFFFFFFF00000000 (fun w => .f2c (w.extractLsb' 0 32)) :=
  encodedAs_of_row (by decide) (by decide) fun _ => rfl

theorem encodedAs_b2f :
    EncodedAs 0x22 0x2200000000000000 0xFFFFFFFFFFFFFFFE (fun w => .b2f (w.extractLsb' 0 1)) :=
  encodedAs_of_row (by decide) (by decide) fun w =>
    congrArg (fun x => some (Instr.b2f x)) (BitVec.extractLsb'_extractLsb'_of_le (by omega))

theorem encodedAs_f2b :
    EncodedAs 0x23 0x2300000000000000 0xFFFFFFFF00000000 (fun w => .f2b (w.extractLsb' 0 32)) :=
  encodedAs_of_row (by decide) (by decide) fun _ => rfl

end Sys2Proof.Machine
end

section
/-! SUPPORT. Rounding (R13, R94): the integer evaluation `rdiv` is the rational `rne`, and the rationals that `rne` takes to
an integer are those within one half of it, an end point only where the integer is even. -/

namespace Sys2Proof.Machine

/-- A quotient is below t + 1/2, or above it, as twice the remainder is below, or above, the divisor. -/
theorem div_sub_lt_half_iff (a t : ℤ) {b : ℕ} (hb : 0 < b) : (a : ℚ) / b - t < 1 / 2 ↔ 2 * (a - t * b) < b := by
  have hb' : (0 : ℚ) < b := Nat.cast_pos.mpr hb
  rw [sub_lt_iff_lt_add, div_lt_iff₀ hb', ← @Int.cast_lt ℚ]
  push_cast
  constructor <;> intro h <;> linarith

theorem half_lt_div_sub_iff (a t : ℤ) {b : ℕ} (hb : 0 < b) : 1 / 2 < (a : ℚ) / b - t ↔ b < 2 * (a - t * b) := by
  have hb' : (0 : ℚ) < b := Nat.cast_pos.mpr hb
  rw [lt_sub_iff_add_lt, lt_div_iff₀ hb', ← @Int.cast_lt ℚ]
  push_cast
  constructor <;> intro h <;> linarith

/-- R94: the integer evaluation makes the two tests of `rne` on the remainder. -/
theorem rdiv_eq_rne (a : ℤ) {b : ℕ} (hb : 0 < b) : rdiv a b = rne ((a : ℚ) / b) := by
  simp only [rdiv, rne, Rat.floor_intCast_div_natCast, div_sub_lt_half_iff a _ hb, half_lt_div_sub_iff a _ hb]

/-- The rationals that round to `n`: those within 1/2 of it, with the end points only where `n` is even (R13). -/
def RoundsTo (q : ℚ) (n : ℤ) : Prop := if n % 2 = 0 then n - 1 / 2 ≤ q ∧ q ≤ n + 1 / 2 else n - 1 / 2 < q ∧ q < n + 1 / 2

theorem RoundsTo.bounds {q : ℚ} {n : ℤ} (h : RoundsTo q n) : n - 1 / 2 ≤ q ∧ q ≤ n + 1 / 2 := by
  unfold RoundsTo at h
  split_ifs at h
  · exact h
  · exact ⟨h.1.le, h.2.le⟩

theorem roundsTo_of_lt {q : ℚ} {n : ℤ} (h₁ : n - 1 / 2 < q) (h₂ : q < n + 1 / 2) : RoundsTo q n := by
  unfold RoundsTo
  split_ifs
  · exact ⟨h₁.le, h₂.le⟩
  · exact ⟨h₁, h₂⟩

theorem roundsTo_rne (q : ℚ) : RoundsTo q (rne q) := by
  have hle := Int.floor_le q
  have hlt := Int.lt_floor_add_one q
  unfold rne
  split_ifs with hlow hhigh heven
  · exact roundsTo_of_lt (by linarith) (by linarith)
  · exact roundsTo_of_lt (by push_cast; linarith) (by push_cast; linarith)
  · rw [RoundsTo, if_pos heven]
    exact ⟨by linarith, by linarith⟩
  · rw [RoundsTo, if_pos (by omega)]
    push_cast
    exact ⟨by linarith, by linarith⟩

/-- Of two neighbours one is odd, and has no end point: a larger rational never rounds to a smaller integer. -/
theorem RoundsTo.le {q q' : ℚ} {n n' : ℤ} (h : RoundsTo q n) (h' : RoundsTo q' n') (hq : q ≤ q') : n ≤ n' := by
  by_contra hlt
  have hstep : ((n' + 1 : ℤ) : ℚ) ≤ n := Int.cast_le.mpr (not_le.mp hlt)
  push_cast at hstep
  obtain ⟨hlow, -⟩ := h.bounds
  obtain ⟨-, hhigh⟩ := h'.bounds
  have hsucc : n = n' + 1 := by exact_mod_cast (by linarith : (n : ℚ) = n' + 1)
  rcases Int.emod_two_eq_zero_or_one n with heven | hodd
  · rw [RoundsTo, if_neg (by omega)] at h'
    linarith [h'.2]
  · rw [RoundsTo, if_neg (by omega)] at h
    linarith [h.1]

theorem rne_eq_iff (q : ℚ) (n : ℤ) : rne q = n ↔ RoundsTo q n :=
  ⟨fun h => h ▸ roundsTo_rne q, fun h => le_antisymm ((roundsTo_rne q).le h le_rfl) (h.le (roundsTo_rne q) le_rfl)⟩

theorem rne_mono : Monotone rne := fun q q' h => (roundsTo_rne q).le (roundsTo_rne q') h

end Sys2Proof.Machine
end

section
/-! SUPPORT. The codec (R90 to R100): its functions at a legal configuration, their exact rational meaning, and the answers
of the four queries. -/

namespace Sys2Proof.Machine

/-! ## Legal configurations -/

theorem codeRange_of_legal {c : Config} (hc : c.Legal) : c.codeMin = 32 ∧ c.codeMax = 126 := by
  obtain ⟨-, -, -, -, -, -, hmin, hmax, -⟩ := hc
  exact ⟨hmin, hmax⟩

theorem pPlaceholder_of_legal {c : Config} (hc : c.Legal) : c.pPlaceholder = 63 := by
  obtain ⟨-, -, -, -, -, -, -, -, hph, -⟩ := hc
  exact hph

theorem pStep_pos_of_legal {c : Config} (hc : c.Legal) : 0 < c.pStep := by
  obtain ⟨-, -, -, ⟨-, hstep, -⟩, -⟩ := hc
  exact hstep

/-- The centres of the two bands are further apart than twice the tolerance (R7 (e)). -/
theorem bands_of_legal {c : Config} (hc : c.Legal) : c.pBit0 + 2 * c.pTol < c.pBit1 := by
  obtain ⟨-, -, -, -, ⟨-, -, hapart, -⟩, -⟩ := hc
  omega

/-! ## Characters -/

theorem c2f_of_legal {c : Config} (hc : c.Legal) (code : ℕ) :
    c2f c code = if 32 ≤ code ∧ code ≤ 126 then some (lut c code) else none := by
  obtain ⟨hmin, hmax⟩ := codeRange_of_legal hc
  rw [c2f, hmin, hmax]

/-- `f2c` at a legal configuration, the fixed parameters at their values (R5, R91). -/
theorem f2c_of_legal {c : Config} (hc : c.Legal) (f : Freq) (p : Policy) :
    f2c c f p = if 32 ≤ quantize c f ∧ quantize c f ≤ 126 then .mapped (BitVec.ofInt 7 (quantize c f))
      else if p = .placeholder then .subst 63 else .nomap := by
  obtain ⟨hmin, hmax⟩ := codeRange_of_legal hc
  unfold f2c
  rw [hmin, hmax, pPlaceholder_of_legal hc]
  cases p <;> rfl

theorem policy_eq_drop {p : Policy} (h : p ≠ .placeholder) : p = .drop := by
  cases p with
  | drop => rfl
  | placeholder => exact absurd rfl h

/-- A mapped frequency is one whose quotient rounds to a character code, and that is its code. -/
theorem f2c_eq_mapped_iff {c : Config} (hc : c.Legal) (f : Freq) (p : Policy) (x : BitVec 7) :
    f2c c f p = .mapped x ↔ (32 ≤ x.toNat ∧ x.toNat ≤ 126) ∧ quantize c f = x.toNat := by
  constructor
  · intro h
    refine ⟨f2c_range hc (Or.inl h), ?_⟩
    rw [f2c_of_legal hc] at h
    split_ifs at h with hr
    obtain rfl := CharMap.mapped.inj h
    rw [BitVec.toNat_ofInt]
    omega
  · rintro ⟨hr, hq⟩
    rw [f2c_of_legal hc, hq, if_pos (by omega), BitVec.ofInt_natCast, BitVec.ofNat_toNat, BitVec.setWidth_eq]

/-- No rounding is needed at a multiple of the divisor. -/
theorem rdiv_mul_self (n : ℤ) {b : ℕ} (hb : 0 < b) : rdiv (n * b) b = n := by
  have hdiv : n * b / b = n := Int.mul_ediv_cancel n (by omega)
  rw [rdiv, hdiv, sub_self]
  exact if_pos (by omega)

/-- A frequency that is a whole number of steps above `P_BASE` is no rounding tie: the number is its code. -/
theorem quantize_of_num_eq {c : Config} {f : Freq} {n : ℤ} (hstep : 0 < c.pStep) (hden : 0 < f.den)
    (h : (f.num : ℤ) - f.den * c.pBase = n * (f.den * c.pStep : ℕ)) : quantize c f = n := by
  rw [quantize, h, rdiv_mul_self n (Nat.mul_pos hden hstep)]

/-- R91 and R94: the code is the quotient of R91, rounded. -/
theorem quantize_eq_rne {c : Config} {f : Freq} (hstep : 0 < c.pStep) (hden : 0 < f.den) :
    quantize c f = rne (((f.num : ℚ) / f.den - c.pBase) / c.pStep) := by
  have hden' : (f.den : ℚ) ≠ 0 := Nat.cast_ne_zero.mpr hden.ne'
  rw [quantize, rdiv_eq_rne _ (Nat.mul_pos hden hstep)]
  congr 1
  push_cast
  rw [← div_div, sub_div, mul_div_cancel_left₀ _ hden']

/-- The frequency of a character is exact, whatever the denominator it is written with (R95 (a)). -/
theorem f2c_lut {c : Config} (hc : c.Legal) {code d : ℕ} (p : Policy) (hr : 32 ≤ code ∧ code ≤ 126) (hd : 0 < d) :
    f2c c ⟨lut c code * d, d⟩ p = .mapped (BitVec.ofNat 7 code) := by
  have hcode : (BitVec.ofNat 7 code).toNat = code := by rw [BitVec.toNat_ofNat]; omega
  rw [f2c_eq_mapped_iff hc, hcode]
  refine ⟨hr, quantize_of_num_eq (pStep_pos_of_legal hc) hd ?_⟩
  rw [lut]
  push_cast
  ring

/-- The code never falls as the frequency rises (R95 (c)). -/
theorem quantize_mono {c : Config} {f f' : Freq} (hstep : 0 < c.pStep) (hden : 0 < f.den) (hden' : 0 < f'.den)
    (h : (f.num : ℚ) / f.den ≤ f'.num / f'.den) : quantize c f ≤ quantize c f' := by
  rw [quantize_eq_rne hstep hden, quantize_eq_rne hstep hden']
  exact rne_mono (div_le_div_of_nonneg_right (sub_le_sub_right h _) (Nat.cast_nonneg _))

/-! ## Bits -/

/-- R93 and R94: the band test is that of the exact frequency. -/
theorem inBand_iff (c : Config) {f : Freq} (centre : ℕ) (hden : 0 < f.den) :
    inBand c f centre = true ↔ |(f.num : ℚ) / f.den - centre| ≤ c.pTol := by
  have hden' : (0 : ℚ) < f.den := Nat.cast_pos.mpr hden
  have hdist : (((f.num : ℤ) - f.den * centre).natAbs : ℚ) = f.den * |(f.num : ℚ) / f.den - centre| := by
    rw [Nat.cast_natAbs, Int.cast_abs, ← abs_of_pos hden', ← abs_mul, abs_of_pos hden', mul_sub, mul_div_cancel₀ _ hden'.ne']
    push_cast
    rfl
  rw [inBand, decide_eq_true_iff, ← @Nat.cast_le ℚ, Nat.cast_mul, hdist, mul_le_mul_iff_right₀ hden']

theorem f2b_eq_ite (c : Config) {f : Freq} (hden : 0 < f.den) :
    f2b c f =
      if |(f.num : ℚ) / f.den - c.pBit0| ≤ c.pTol then some 0
      else if |(f.num : ℚ) / f.den - c.pBit1| ≤ c.pTol then some 1
      else none := by
  simp only [f2b, inBand_iff c _ hden]

/-- The bit frequencies are further apart than the tolerance (R95 (b)). -/
theorem pTol_lt_abs_b2f_sub {c : Config} (hc : c.Legal) (b : BitVec 1) : (c.pTol : ℚ) < |(b2f c b : ℚ) - b2f c (~~~b)| := by
  have hapart : (c.pBit0 : ℚ) + 2 * c.pTol < c.pBit1 := by exact_mod_cast bands_of_legal hc
  have htol : (0 : ℚ) ≤ c.pTol := Nat.cast_nonneg _
  have hdist : (c.pTol : ℚ) < |(c.pBit1 : ℚ) - c.pBit0| := lt_abs.mpr (Or.inl (by linarith))
  rcases BitVec.eq_zero_or_eq_one b with rfl | rfl
  · exact hdist.trans_eq (abs_sub_comm _ _)
  · exact hdist

/-- The frequency of a bit is a band's centre, whatever the denominator it is written with (R95 (b)). -/
theorem f2b_b2f {c : Config} (hc : c.Legal) (b : BitVec 1) {d : ℕ} (hd : 0 < d) : f2b c ⟨b2f c b * d, d⟩ = some b := by
  have hd' : (d : ℚ) ≠ 0 := Nat.cast_ne_zero.mpr hd.ne'
  rw [f2b_eq_ite c hd, Nat.cast_mul, mul_div_cancel_right₀ _ hd']
  rcases BitVec.eq_zero_or_eq_one b with rfl | rfl
  · exact if_pos (by simp [b2f])
  · have hout : ¬|(b2f c 1#1 : ℚ) - c.pBit0| ≤ c.pTol := not_le.mpr (pTol_lt_abs_b2f_sub hc 1#1)
    rw [if_neg hout]
    exact if_pos (by simp [b2f])

/-! ## The default parameters -/

/-- A rounding cell at the defaults is 10 Hz wide around 1000 + 10n Hz (R95 (d)). -/
theorem quantize_default_eq_iff {f : Freq} (hden : 0 < f.den) (n : ℕ) :
    quantize Config.default f = n ↔
      if n % 2 = 0 then 995 + 10 * (n : ℚ) ≤ (f.num : ℚ) / f.den ∧ (f.num : ℚ) / f.den ≤ 1005 + 10 * n
      else 995 + 10 * (n : ℚ) < (f.num : ℚ) / f.den ∧ (f.num : ℚ) / f.den < 1005 + 10 * n := by
  rw [quantize_eq_rne (by decide) hden, rne_eq_iff, RoundsTo]
  have hq : ((f.num : ℚ) / f.den - Config.default.pBase) / Config.default.pStep = ((f.num : ℚ) / f.den - 1000) / 10 := by
    norm_num [Config.default]
  have heven : ((n : ℤ) % 2 = 0) ↔ n % 2 = 0 := by omega
  rw [hq]
  simp only [heven, Int.cast_natCast]
  split_ifs
  · exact ⟨fun ⟨hlow, hhigh⟩ => ⟨by linarith, by linarith⟩, fun ⟨hlow, hhigh⟩ => ⟨by linarith, by linarith⟩⟩
  · exact ⟨fun ⟨hlow, hhigh⟩ => ⟨by linarith, by linarith⟩, fun ⟨hlow, hhigh⟩ => ⟨by linarith, by linarith⟩⟩

/-- Bin k is at 10·k Hz (R100). -/
theorem freqOfBin_default_hz (k : ℕ) :
    ((freqOfBin Config.default k).num : ℚ) / (freqOfBin Config.default k).den = 10 * k := by
  simp only [freqOfBin, Config.default]
  push_cast
  ring

theorem quantize_freqOfBin_default (k : ℕ) : quantize Config.default (freqOfBin Config.default k) = (k : ℤ) - 100 := by
  refine quantize_of_num_eq (by decide) (by decide : 0 < Config.default.pN) ?_
  simp only [freqOfBin, Config.default]
  push_cast
  ring

/-- The bins in a band at the defaults (R100): ten on either side of the centre. -/
theorem inBand_freqOfBin_default (k centre : ℕ) :
    inBand Config.default (freqOfBin Config.default k) (10 * centre) = true ↔ k ≤ centre + 10 ∧ centre ≤ k + 10 := by
  rw [inBand, decide_eq_true_iff]
  simp only [freqOfBin, Config.default]
  omega

/-! ## The statements -/

/-- Settles O33: `rdiv` is `rne` of the quotient, and the two quantizers are evaluated through it. -/
theorem quantizersAreExact : Obligations.QuantizersAreExact := by
  unfold Obligations.QuantizersAreExact
  refine ⟨fun a b hb => rdiv_eq_rne a hb, fun c f p hc hden => ?_, fun c f hden => f2b_eq_ite c hden⟩
  rw [f2c_of_legal hc, quantize_eq_rne (pStep_pos_of_legal hc) hden]

/-- Settles O34: the round trips are exact at every denominator, and rounding is monotone with cells of one step. -/
theorem codecRoundTrip : Obligations.CodecRoundTrip := by
  unfold Obligations.CodecRoundTrip
  refine ⟨fun c hc => ⟨fun code p hmin hmax => ?_, fun b d hd => ?_, fun f f' p p' x x' hden hden' hle hx hx' => ?_⟩,
    fun f p x hden hmin hmax => ?_⟩
  · exact ⟨lut c code, (c2f_of_legal hc code).trans (if_pos ⟨hmin, hmax⟩), fun d hd => f2c_lut hc p ⟨hmin, hmax⟩ hd⟩
  · exact ⟨f2b_b2f hc b hd, not_le.mpr (pTol_lt_abs_b2f_sub hc b)⟩
  · obtain ⟨-, hq⟩ := (f2c_eq_mapped_iff hc f p x).mp hx
    obtain ⟨-, hq'⟩ := (f2c_eq_mapped_iff hc f' p' x').mp hx'
    have hmono := quantize_mono (pStep_pos_of_legal hc) hden hden' hle
    omega
  · rw [f2c_eq_mapped_iff (by decide), quantize_default_eq_iff hden]
    exact and_iff_right ⟨hmin, hmax⟩

/-- Settles O35: each bin's quotient is a whole number, and each band is an interval of bins. -/
theorem defaultCodecMaps : Obligations.DefaultCodecMaps := by
  unfold Obligations.DefaultCodecMaps
  refine ⟨fun k => ⟨freqOfBin_default_hz k, quantize_freqOfBin_default k⟩, fun k p => ?_, fun k => ?_⟩
  · rw [f2c_of_legal (by decide), quantize_freqOfBin_default]
    by_cases h : 132 ≤ k ∧ k ≤ 226
    · have hcode : (k : ℤ) - 100 = (k - 100 : ℕ) := by omega
      rw [if_pos h, if_pos (by omega), hcode, BitVec.ofInt_natCast]
    · rw [if_neg h, if_neg (by omega)]
  · have h0 : inBand Config.default (freqOfBin Config.default k) Config.default.pBit0 = true ↔ 90 ≤ k ∧ k ≤ 110 :=
      (inBand_freqOfBin_default k 100).trans (by omega)
    have h1 : inBand Config.default (freqOfBin Config.default k) Config.default.pBit1 = true ↔ 190 ≤ k ∧ k ≤ 210 :=
      (inBand_freqOfBin_default k 200).trans (by omega)
    simp only [f2b, h0, h1]

/-- Settles O27: C2F responds with the character's frequency, or with NOMAP. -/
theorem c2fResult : Obligations.C2fResult := by
  unfold Obligations.C2fResult
  refine ⟨encodedAs_c2f, fun code s hc => ?_⟩
  simp only [exec, execC2f, c2f_of_legal hc]
  by_cases h : 32 ≤ code.toNat ∧ code.toNat ≤ 126
  · rw [if_pos h, if_pos h]
    rfl
  · rw [if_neg h, if_neg h]
    rfl

/-- Settles O28: F2C responds by the answer of `f2c`, which names the policy where no character is mapped. -/
theorem f2cResult : Obligations.F2cResult := by
  unfold Obligations.F2cResult
  refine ⟨encodedAs_f2c, fun fw s => ?_, fun fw s hc => ?_⟩
  · simp only [exec, execF2c, freqOfWord]
    cases f2c s.cfg ⟨fw.toNat, 256⟩ s.policy <;> rfl
  · rw [f2c_of_legal hc]
    split_ifs with hr hp
    · exact ⟨nofun, nofun⟩
    · exact ⟨fun code h => ⟨(CharMap.subst.inj h).symm, hp⟩, nofun⟩
    · exact ⟨nofun, fun _ => policy_eq_drop hp⟩

/-- Settles O29: B2F responds with the bit's frequency. -/
theorem b2fResult : Obligations.B2fResult := by
  unfold Obligations.B2fResult
  exact ⟨encodedAs_b2f, fun _ _ => rfl⟩

/-- Settles O30: F2B responds by the answer of `f2b`, which takes no policy. -/
theorem f2bResult : Obligations.F2bResult := by
  unfold Obligations.F2bResult
  refine ⟨encodedAs_f2b, fun fw s => ?_⟩
  simp only [exec, execF2b, freqOfWord]
  cases f2b s.cfg ⟨fw.toNat, 256⟩ <;> rfl

end Sys2Proof.Machine
end

section
/-! SUPPORT. The estimator (R110 to R117, R119): the peak bin has the greatest amplitude, a constant frame peaks at bin 0,
and the SAMPLE that completes a frame acts on the frame's outcome. -/

namespace Sys2Proof.Machine

open Finset

/-! ## The peak -/

theorem windowSum_nonneg (c : Config) : 0 ≤ windowSum c := sum_nonneg fun n _ => hann_nonneg c n

/-- Amax of R117 is the greatest normalized magnitude. -/
theorem amplitude_le_amplitude_kStar (f : Frame) (hc : f.cfg.Legal) {k : ℕ} (hk : k ≤ f.cfg.lastBin) :
    f.amplitude k ≤ f.amplitude f.kStar := by
  obtain ⟨-, hmax, -⟩ := kStar_spec f hc
  have hmag : f.magnitude k ≤ f.magnitude f.kStar := (f.magnitude_le_iff hc k f.kStar).mpr (hmax k hk)
  exact div_le_div_of_nonneg_right (mul_le_mul_of_nonneg_left hmag zero_le_two) (windowSum_nonneg f.cfg)

/-- A peak below τ − δ leaves no bin admissible (R117). -/
theorem not_adm_bin_of_peak_lt (f : Frame) (hc : f.cfg.Legal) (hlow : f.amplitude f.kStar < f.tau - f.delta) (k : ℕ) :
    ¬f.Adm (.bin k) := by
  rintro ⟨⟨-, hk⟩, -, hthr⟩
  exact (amplitude_le_amplitude_kStar f hc hk).not_gt (hlow.trans_le hthr)

/-- Bin 0 is the peak once no bin exceeds it, by the tie rule of R114. -/
theorem kStar_eq_zero_of_magnitude_le (f : Frame) (hc : f.cfg.Legal)
    (h0 : ∀ j ≤ f.cfg.lastBin, f.magnitude j ≤ f.magnitude 0) : f.kStar = 0 := by
  obtain ⟨-, -, hleast⟩ := kStar_spec f hc
  exact Nat.le_zero.mp (hleast 0 (Nat.zero_le _) fun j hj => (f.magnitude_le_iff hc j 0).mp (h0 j hj))

theorem est_eq_silent_of_kStar_eq_zero (f : Frame) (h : f.kStar = 0) : f.est = .silent := if_pos (Or.inr h)

/-! ## Constant frames -/

/-- Every factor of the transform has modulus 1 (R112). -/
theorem norm_exp_bin (N k n : ℕ) : ‖Complex.exp (-2 * Real.pi * Complex.I * k * n / N)‖ = 1 := by
  have hreal : (-2 * Real.pi * Complex.I * k * n / N : ℂ) = ((-2 * Real.pi * k * n / N : ℝ) : ℂ) * Complex.I := by
    push_cast
    ring
  rw [hreal, Complex.norm_exp_ofReal_mul_I]

theorem magnitude_le_sum (f : Frame) (k : ℕ) : f.magnitude k ≤ ∑ n ∈ range f.cfg.pN, |f.x n| * hann f.cfg n := by
  refine (norm_sum_le _ _).trans (sum_le_sum fun n _ => le_of_eq ?_)
  rw [norm_mul, norm_mul, norm_exp_bin, mul_one, Complex.norm_real, Complex.norm_real, Real.norm_eq_abs, Real.norm_eq_abs,
    abs_of_nonneg (hann_nonneg f.cfg n)]

theorem magnitude_zero (f : Frame) : f.magnitude 0 = |∑ n ∈ range f.cfg.pN, f.x n * hann f.cfg n| := by
  rw [← Real.norm_eq_abs, ← Complex.norm_real, Frame.magnitude, Frame.spectrum]
  simp

/-- The samples of a constant frame are one real number (R110). -/
theorem x_eq_of_constant (f : Frame) (hl : f.samples.length = f.cfg.pN) {v : ℤ} (hv : ∀ x ∈ f.samples, x = v)
    {n : ℕ} (hn : n < f.cfg.pN) : f.x n = v / 32768 := by
  have hlt : n < f.samples.length := hl ▸ hn
  rw [Frame.x, List.getD_eq_getElem _ _ hlt, hv _ (List.getElem_mem hlt)]

/-- A constant frame has its greatest magnitude at bin 0: the window is nowhere negative, so no two terms of X[0]
cancel. -/
theorem magnitude_le_magnitude_zero_of_constant (f : Frame) (hl : f.samples.length = f.cfg.pN) {v : ℤ}
    (hv : ∀ x ∈ f.samples, x = v) (k : ℕ) : f.magnitude k ≤ f.magnitude 0 := by
  have hx : ∀ n ∈ range f.cfg.pN, f.x n = v / 32768 := fun n hn => x_eq_of_constant f hl hv (mem_range.mp hn)
  calc f.magnitude k ≤ ∑ n ∈ range f.cfg.pN, |f.x n| * hann f.cfg n := magnitude_le_sum f k
    _ = |(v : ℝ) / 32768| * windowSum f.cfg := by
        rw [windowSum, mul_sum]
        exact sum_congr rfl fun n hn => by rw [hx n hn]
    _ = |(v : ℝ) / 32768 * windowSum f.cfg| := by rw [abs_mul, abs_of_nonneg (windowSum_nonneg f.cfg)]
    _ = |∑ n ∈ range f.cfg.pN, f.x n * hann f.cfg n| := by
        rw [windowSum, mul_sum]
        exact congrArg _ (sum_congr rfl fun n hn => by rw [hx n hn])
    _ = f.magnitude 0 := (magnitude_zero f).symm

/-! ## The sample that completes a frame -/

theorem exec_sample_last (x : Sample) {s : State} (hwf : s.fb.wf = true) (hr : s.session = .running)
    (hlast : s.fill.toNat + 1 = s.cfg.pN) :
    exec (.sample x) s = .next (respond .ok 0
      (frameResult (outcomeOf (completedFrame x s) (Config.estDraw s.draws)) (takeDraw (storeSample x s)))) := by
  rw [exec_sample_accepted x hr, pushSample, if_pos hlast, frameComplete, frameOutcome, frameOf_storeSample x s hwf]
  rfl

/-! ## The statements -/

/-- Settles O22: the completing SAMPLE takes no draw, and the outcome at tolerance 0 is the reference's. -/
theorem frameUsesReferenceEstimator : Obligations.FrameUsesReferenceEstimator := by
  unfold Obligations.FrameUsesReferenceEstimator
  intro x s hc hwf hzero hr hlast
  obtain ⟨href, -⟩ := outcomeOf_spec (completedFrame x s) (completedFrame_complete x s hc) (completedFrame_inRange x s hwf)
    (Config.estDraw s.draws)
  have hdraw : takeDraw (storeSample x s) = storeSample x s := if_pos hzero
  rw [exec_sample_last x hwf hr hlast, href hzero, hdraw]
  rfl

/-- Settles O23: the witness is the outcome of the frame for the draw at hand. -/
theorem frameDrawsAdmissibleOutcome : Obligations.FrameDrawsAdmissibleOutcome := by
  unfold Obligations.FrameDrawsAdmissibleOutcome
  intro x s hc hwf htol hr hlast
  obtain ⟨-, hadm⟩ := outcomeOf_spec (completedFrame x s) (completedFrame_complete x s hc) (completedFrame_inRange x s hwf)
    (Config.estDraw s.draws)
  obtain ⟨hmem, htaken⟩ := hadm htol
  have hdraw : takeDraw (storeSample x s) = { storeSample x s with draws := s.draws + 1 } := if_neg htol
  refine ⟨_, hmem, htaken, ?_⟩
  rw [exec_sample_last x hwf hr hlast, hdraw]
  rfl

/-- Settles O24: the reference outcome is admissible at every δ ≥ 0, and no bin exceeds the peak. -/
theorem admissibleSetNeverEmpty : Obligations.AdmissibleSetNeverEmpty := by
  unfold Obligations.AdmissibleSetNeverEmpty
  exact fun f hf => ⟨est_mem_adm f hf, not_adm_bin_of_peak_lt f hf.1⟩

/-- Settles O25: a constant frame peaks at bin 0, and the computed outcome is the reference's. -/
theorem constantFrameIsSilent : Obligations.ConstantFrameIsSilent := by
  unfold Obligations.ConstantFrameIsSilent
  rintro f ⟨hc, hl⟩ ⟨v, hv⟩
  have hpeak : f.kStar = 0 :=
    kStar_eq_zero_of_magnitude_le f hc fun j _ => magnitude_le_magnitude_zero_of_constant f hl hv j
  have hest : f.est = .silent := est_eq_silent_of_kStar_eq_zero f hpeak
  exact ⟨hest, (estimate_eq_est f ⟨hc, hl⟩).trans hest⟩

end Sys2Proof.Machine
end

section
/-! SUPPORT. The decode procedures (R138 to R141) as the cases of a detection, and what a run of one symbol and eight bits
in a row emit (R142). -/

namespace Sys2Proof.Machine

/-! ## One detection -/

/-- The repeat counter of a legal configuration stops at 255 (R7, R13). -/
theorem satInc_of_legal {c : Config} (hc : c.Legal) (n : BitVec 8) :
    satInc c.cntMax n = BitVec.ofNat 8 (min (n.toNat + 1) 255) := by
  rw [satInc, cntMax_of_legal hc]

/-- The threshold test of R139 on numbers. -/
theorem le_satInc_iff {c : Config} (hc : c.Legal) (r n : BitVec 8) :
    r ≤ satInc c.cntMax n ↔ r.toNat ≤ min (n.toNat + 1) 255 := by
  rw [BitVec.le_def, cntMax_of_legal hc, satInc_toNat le_rfl]

/-- A character that is mapped or put in place of an unmapped frequency is a detected symbol (R139, R141). -/
theorem decodeText_eq_textSymbol {r : CharMap} {c : BitVec 7} (hr : r = .mapped c ∨ r = .subst c) (s : State) :
    decodeText r s = textSymbol c s := by
  rcases hr with rfl | rfl <;> rfl

theorem textSymbol_repeat {c : BitVec 7} {s : State} (h : s.lastSymV = true ∧ c = s.lastSym) :
    textSymbol c s = repeatSymbol s := if_pos h

theorem textSymbol_new {c : BitVec 7} {s : State} (h : ¬(s.lastSymV = true ∧ c = s.lastSym)) :
    textSymbol c s = newSymbol c s := if_neg h

theorem decodeBinary_eighth (b : BitVec 1) {s : State} (h : s.pcnt = 7) :
    decodeBinary (some b) s = { emit .byte (s.pbits ++ b) s with pbits := 0, pcnt := 0 } := if_pos h

theorem decodeBinary_append (b : BitVec 1) {s : State} (h : s.pcnt ≠ 7) :
    decodeBinary (some b) s = { s with pbits := s.pbits.extractLsb' 0 6 ++ b, pcnt := s.pcnt + 1 } := if_neg h

/-! ## A run of one symbol -/

/-- The pause space of a run of `n` detections of `c` is due (R139, R142 (b)). -/
def SpaceDue (repeatT : BitVec 8) (c : BitVec 7) (n : ℕ) : Prop := 2 ≤ n ∧ repeatT.toNat ≤ n ∧ c ≠ 0x20

theorem runTokens_of_due {r : BitVec 8} {c : BitVec 7} {n : ℕ} (h : SpaceDue r c n) :
    runTokens r c n = [mkToken .char (c.setWidth 8), mkToken .char 0x20] := congrArg _ (if_pos h)

theorem runTokens_of_not_due {r : BitVec 8} {c : BitVec 7} {n : ℕ} (h : ¬SpaceDue r c n) :
    runTokens r c n = [mkToken .char (c.setWidth 8)] := congrArg _ (if_neg h)

/-- A space once due stays so, and one more detection makes it due when the count reaches the threshold. -/
theorem spaceDue_succ_iff {r : BitVec 8} {c : BitVec 7} {n : ℕ} (hn : 1 ≤ n) :
    SpaceDue r c (n + 1) ↔ r.toNat ≤ n + 1 ∧ c ≠ 0x20 :=
  and_iff_right (Nat.succ_le_succ hn)

theorem SpaceDue.succ {r : BitVec 8} {c : BitVec 7} {n : ℕ} (h : SpaceDue r c n) : SpaceDue r c (n + 1) :=
  ⟨h.1.trans n.le_succ, h.2.1.trans n.le_succ, h.2.2⟩

/-- `t` is the state after a run of `n` detections of `c` that began in `s`. The last output tells whether the space has
been emitted. -/
structure AfterRun (s : State) (c : BitVec 7) (n : ℕ) (t : State) : Prop where
  cfg : t.cfg = s.cfg
  repeatT : t.repeatT = s.repeatT
  lastSymV : t.lastSymV = true
  lastSym : t.lastSym = c
  rptCnt : t.rptCnt.toNat = min n 255
  lastOutV : t.lastOutV = true
  lastOut : t.lastOut = 0x20 ↔ c = 0x20 ∨ SpaceDue s.repeatT c n
  out : t.out = s.out ++ runTokens s.repeatT c n

theorem afterRun_one {s : State} {c : BitVec 7} (h : ¬(s.lastSymV = true ∧ c = s.lastSym)) :
    AfterRun s c 1 (textSymbol c s) := by
  have hdue : ¬SpaceDue s.repeatT c 1 := fun hd => absurd hd.1 (by decide)
  rw [textSymbol_new h]
  exact ⟨rfl, rfl, rfl, rfl, rfl, rfl, by simp [hdue], by rw [runTokens_of_not_due hdue]; rfl⟩

/-- The test of R139 at the next detection of the run: the space is due then, and was not yet. -/
theorem AfterRun.space_iff {s t : State} {c : BitVec 7} {n : ℕ} (h : AfterRun s c n t) (hc : s.cfg.Legal) (hn : 1 ≤ n) :
    (t.repeatT ≤ satInc t.cfg.cntMax t.rptCnt ∧ t.lastSym ≠ 0x20 ∧ ¬(t.lastOutV = true ∧ t.lastOut = 0x20)) ↔
      SpaceDue s.repeatT c (n + 1) ∧ ¬SpaceDue s.repeatT c n := by
  have hT : s.repeatT.toNat < 256 := s.repeatT.isLt
  rw [le_satInc_iff (h.cfg ▸ hc), h.rptCnt, h.repeatT, h.lastSym, h.lastOut, h.lastOutV, spaceDue_succ_iff hn]
  have hle : s.repeatT.toNat ≤ min (min n 255 + 1) 255 ↔ s.repeatT.toNat ≤ n + 1 := by omega
  rw [hle]
  tauto

theorem AfterRun.succ {s t : State} {c : BitVec 7} {n : ℕ} (h : AfterRun s c n t) (hc : s.cfg.Legal) (hn : 1 ≤ n) :
    AfterRun s c (n + 1) (textSymbol c t) := by
  have hcnt : (satInc t.cfg.cntMax t.rptCnt).toNat = min (n + 1) 255 := by
    rw [h.cfg, cntMax_of_legal hc, satInc_toNat le_rfl, h.rptCnt]
    omega
  rw [textSymbol_repeat ⟨h.lastSymV, h.lastSym.symm⟩]
  rcases repeatSymbol_cases t with ⟨he, hno⟩ | ⟨he, hyes⟩ <;> rw [he]
  · have hsame : SpaceDue s.repeatT c (n + 1) ↔ SpaceDue s.repeatT c n :=
      ⟨fun hd => by_contra fun hn' => hno ((h.space_iff hc hn).mpr ⟨hd, hn'⟩), SpaceDue.succ⟩
    have htok : runTokens s.repeatT c (n + 1) = runTokens s.repeatT c n := by
      by_cases hd : SpaceDue s.repeatT c n
      · rw [runTokens_of_due hd, runTokens_of_due hd.succ]
      · rw [runTokens_of_not_due hd, runTokens_of_not_due (mt hsame.mp hd)]
    exact ⟨h.cfg, h.repeatT, h.lastSymV, h.lastSym, hcnt, h.lastOutV, h.lastOut.trans (or_congr_right hsame.symm),
      htok ▸ h.out⟩
  · obtain ⟨hdue, hnot⟩ := (h.space_iff hc hn).mp hyes
    refine ⟨h.cfg, h.repeatT, h.lastSymV, h.lastSym, hcnt, rfl, iff_of_true rfl (Or.inr hdue), ?_⟩
    rw [emitChar_out, runTokens_of_due hdue, h.out, runTokens_of_not_due hnot, List.append_assoc]
    rfl

theorem afterRun_iterate {s : State} {c : BitVec 7} (hc : s.cfg.Legal) (h : ¬(s.lastSymV = true ∧ c = s.lastSym))
    (n : ℕ) : AfterRun s c (n + 1) ((decodeText (.mapped c))^[n + 1] s) := by
  induction n with
  | zero => exact afterRun_one h
  | succ n ih =>
    rw [Function.iterate_succ_apply']
    exact ih.succ hc (Nat.le_add_left 1 n)

/-! ## Eight bits -/

/-- The accumulator after the first `j` bits of `b`, the first one oldest (R27, R140). -/
def leadingBits (b : BitVec 8) (j : ℕ) : BitVec 7 := (b.extractLsb' (8 - j) j).setWidth 7

theorem leadingBits_zero (b : BitVec 8) : leadingBits b 0 = 0 := by
  simp [leadingBits]

theorem leadingBits_succ (b : BitVec 8) {j : ℕ} (hj : j < 7) :
    (leadingBits b j).extractLsb' 0 6 ++ b.extractLsb' (7 - j) 1 = leadingBits b (j + 1) := by
  apply BitVec.eq_of_getLsbD_eq
  intro i hi
  simp only [leadingBits, BitVec.getLsbD_append, BitVec.getLsbD_extractLsb', BitVec.getLsbD_setWidth]
  by_cases h0 : i = 0
  · subst h0
    simp
  · have hidx : 8 - j + (i - 1) = 8 - (j + 1) + i := by omega
    have hlt : i - 1 < j ↔ i < j + 1 := by omega
    simp [show ¬ i < 1 by omega, show i - 1 < 6 by omega, show i - 1 < 7 by omega, hi, hidx, hlt]

/-- Fewer than eight bits from an empty accumulator are kept, and emit nothing. -/
theorem foldl_decodeBinary {s : State} (b : BitVec 8) (hbits : s.pbits = 0) (hcnt : s.pcnt = 0) {j : ℕ} (hj : j ≤ 7) :
    (List.range j).foldl (fun t j => decodeBinary (some (b.extractLsb' (7 - j) 1)) t) s =
      { s with pbits := leadingBits b j, pcnt := BitVec.ofNat 3 j } := by
  induction j with
  | zero =>
    have hempty : BitVec.ofNat 3 0 = s.pcnt := hcnt.symm
    rw [leadingBits_zero, ← hbits, hempty]
    rfl
  | succ j ih =>
    rw [List.range_succ, List.foldl_concat, ih (by omega)]
    have hne : BitVec.ofNat 3 j ≠ 7 := by bv_omega
    rw [decodeBinary_append _ hne, ← leadingBits_succ b hj, BitVec.ofNat_add]
    rfl

/-- The last bit completes the byte. -/
theorem leadingBits_seven_append (b : BitVec 8) : leadingBits b 7 ++ b.extractLsb' 0 1 = b :=
  (extract_append_extract b 0 1).trans BitVec.extractLsb'_eq_self

/-! ## The statements -/

/-- Settles O39: the run of `n + 1` detections by induction on `n`. -/
theorem textRunEmitsOnce : Obligations.TextRunEmitsOnce := by
  unfold Obligations.TextRunEmitsOnce
  exact fun s c n hc h => (afterRun_iterate hc h n).out

/-- Settles O37: a detection repeats the last symbol, or is a new one. -/
theorem decodeTextProcedure : Obligations.DecodeTextProcedure := by
  unfold Obligations.DecodeTextProcedure
  refine fun s => ⟨rfl, fun r c hr => ⟨fun hrep hc => ?_, fun hnew => ?_⟩⟩
  · rw [decodeText_eq_textSymbol hr, textSymbol_repeat hrep, ← satInc_of_legal hc]
    simp only [← le_satInc_iff hc, hrep.2]
    rfl
  · rw [decodeText_eq_textSymbol hr, textSymbol_new hnew]
    rfl

/-- Settles O40: seven bits are kept, and the eighth emits them all. -/
theorem eightBitsMakeAByte : Obligations.EightBitsMakeAByte := by
  unfold Obligations.EightBitsMakeAByte
  intro s b hbits hcnt
  rw [List.range_succ, List.foldl_concat, foldl_decodeBinary b hbits hcnt le_rfl, decodeBinary_eighth _ rfl,
    leadingBits_seven_append, ← hbits, ← hcnt]
  rfl

/-- Settles O38: the eighth bit drains the buffer, any other is appended. -/
theorem decodeBinaryProcedure : Obligations.DecodeBinaryProcedure := by
  unfold Obligations.DecodeBinaryProcedure
  refine fun s => ⟨rfl, fun b => ?_⟩
  split_ifs with h
  · exact decodeBinary_eighth b h
  · exact decodeBinary_append b h

/-- Settles O36: silence in both modes, else the mode's procedure. -/
theorem decodeFrequency : Obligations.DecodeFrequency := by
  unfold Obligations.DecodeFrequency
  intro f s
  rw [decodeFreq]
  split_ifs with h0 hm
  · rfl
  · rw [hm]
  · cases hb : s.mode with
    | text => exact absurd hb hm
    | binary => rfl

end Sys2Proof.Machine
end

section
/-! SUPPORT. The commands of a session (R132 to R137): the words of each, what each does in and outside a session, and what
it leaves as it was. -/

namespace Sys2Proof.Machine

/-! ## Encoding -/

theorem encodedAs_start : EncodedAs 0x01 0x0100000000000000 0xFFFFFFFFFFFFFFFF (fun _ => .start) :=
  encodedAs_of_row (by decide) (by decide) fun _ => rfl

theorem encodedAs_stop : EncodedAs 0x02 0x0200000000000000 0xFFFFFFFFFFFFFFFF (fun _ => .stop) :=
  encodedAs_of_row (by decide) (by decide) fun _ => rfl

theorem encodedAs_fault : EncodedAs 0x03 0x0300000000000000 0xFFFFFFFFFFFFFFFF (fun _ => .fault) :=
  encodedAs_of_row (by decide) (by decide) fun _ => rfl

theorem encodedAs_sample :
    EncodedAs 0x10 0x1000000000000000 0xFFFFFFFFFFFF0000 (fun w => .sample (w.extractLsb' 0 16)) :=
  encodedAs_of_row (by decide) (by decide) fun w =>
    congrArg (fun x => some (Instr.sample x)) (BitVec.extractLsb'_extractLsb'_of_le (by omega))

theorem encodedAs_freq :
    EncodedAs 0x11 0x1100000000000000 0xFFFFFFFF00000000 (fun w => .freq (w.extractLsb' 0 32)) :=
  encodedAs_of_row (by decide) (by decide) fun _ => rfl

/-! ## Accepted and refused -/

theorem exec_start_refused {s : State} (hr : s.session = .running) :
    exec .start s = .next (raiseError (some .start) .alreadyRunning s) := if_pos hr

theorem exec_start_accepted {s : State} (hr : s.session ≠ .running) :
    exec .start s = .next (respond .ok 0 { clearSession s with session := .running }) := if_neg hr

theorem exec_stop_accepted {s : State} (hr : s.session = .running) :
    exec .stop s = .next (respond .ok 0 (emit .done 0x00 { clearSession s with session := .stopped })) := if_pos hr

theorem exec_stop_refused {s : State} (hr : s.session ≠ .running) :
    exec .stop s = .next (raiseError (some .stop) .notRunning s) := if_neg hr

theorem exec_fault_accepted {s : State} (hr : s.session = .running) :
    exec .fault s = .next (respond .ok 0 (emit .done 0x01 { clearSession (setFlag .fault s) with session := .stopped })) :=
  if_pos hr

theorem exec_fault_refused {s : State} (hr : s.session ≠ .running) :
    exec .fault s = .next (raiseError (some .fault) .notRunning s) := if_neg hr

theorem exec_freq_accepted (fw : RegWord) {s : State} (hr : s.session = .running) :
    exec (.freq fw) s = .next (respond .ok 0 (decodeFreq (freqOfWord fw) s)) := if_pos hr

theorem exec_freq_refused (fw : RegWord) {s : State} (hr : s.session ≠ .running) :
    exec (.freq fw) s = .next (raiseError (some (.freq fw)) .notRunning s) := if_neg hr

theorem pushSample_last (x : Sample) {s : State} (h : s.fill.toNat + 1 = s.cfg.pN) :
    pushSample x s = frameComplete (storeSample x s) := if_pos h

theorem pushSample_advance (x : Sample) {s : State} (h : s.fill.toNat + 1 ≠ s.cfg.pN) :
    pushSample x s = { storeSample x s with fill := s.fill + 1 } := if_neg h

/-! ## What Decode(f) leaves of the other mode -/

theorem decodeFreq_bits_of_text (f : Freq) {s : State} (hm : s.mode = .text) :
    (decodeFreq f s).pbits = s.pbits ∧ (decodeFreq f s).pcnt = s.pcnt := by
  rcases decodeFreq_cases f s with ⟨_, h⟩ | ⟨_, h⟩ | ⟨_, _, c, _, h⟩ | ⟨_, hb, _⟩
  · rw [h]; exact ⟨rfl, rfl⟩
  · rw [h]; exact ⟨rfl, rfl⟩
  · rw [h]; exact ⟨textSymbol_pbits c s, textSymbol_pcnt c s⟩
  · exact absurd (hm.symm.trans hb) (by decide)

theorem decodeFreq_lastOut_of_binary (f : Freq) {s : State} (hm : s.mode = .binary) :
    (decodeFreq f s).lastOutV = s.lastOutV ∧ (decodeFreq f s).lastOut = s.lastOut := by
  rcases decodeFreq_cases f s with ⟨_, h⟩ | ⟨_, h⟩ | ⟨_, ht, _⟩ | ⟨_, _, b, _, h⟩
  · rw [h]; exact ⟨rfl, rfl⟩
  · rw [h]; exact ⟨rfl, rfl⟩
  · exact absurd (hm.symm.trans ht) (by decide)
  · rw [h]; exact ⟨decodeBinary_lastOutV _ s, decodeBinary_lastOut _ s⟩

/-- Only silence clears the last symbol in binary mode (R138). -/
theorem decodeFreq_symbol_of_binary {f : Freq} {s : State} (hm : s.mode = .binary) (hf : f.num ≠ 0) :
    (decodeFreq f s).lastSymV = s.lastSymV ∧ (decodeFreq f s).lastSym = s.lastSym ∧
      (decodeFreq f s).rptCnt = s.rptCnt := by
  rcases decodeFreq_cases f s with ⟨h0, _⟩ | ⟨_, h⟩ | ⟨_, ht, _⟩ | ⟨_, _, b, _, h⟩
  · exact absurd h0 hf
  · rw [h]; exact ⟨rfl, rfl, rfl⟩
  · exact absurd (hm.symm.trans ht) (by decide)
  · rw [h]; exact ⟨decodeBinary_lastSymV _ s, decodeBinary_lastSym _ s, decodeBinary_rptCnt _ s⟩

/-! ## Tokens -/

/-- STOP, FAULT, SAMPLE and FREQ are refused outside a session, and no other command emits a token (R177). -/
theorem exec_out_of_not_running {i : Instr} {s t : State} (hr : s.session ≠ .running) (hx : exec i s = .next t) :
    t.out = s.out := by
  rcases exec_cases i s with ⟨k, d, _, he, _⟩ | ⟨k, _, _, he⟩ | ⟨_, _, he⟩ | ⟨_, h, _⟩ | ⟨_, h, _⟩ | ⟨x, _, h, _⟩ |
    ⟨fw, _, h, _⟩ | ⟨sel, v, _, _, he⟩
  · obtain rfl := Host.Outcome.next.inj (he.symm.trans hx)
    rfl
  · obtain rfl := Host.Outcome.next.inj (he.symm.trans hx)
    exact raiseError_out (some i) k s
  · obtain rfl := Host.Outcome.next.inj (he.symm.trans hx)
    rfl
  · exact absurd h hr
  · exact absurd h hr
  · exact absurd h hr
  · exact absurd h hr
  · obtain rfl := Host.Outcome.next.inj (he.symm.trans hx)
    exact regWrite_out sel v s

/-! ## The statements -/

/-- Settles O20: refused outside a session, else the sample completes a frame or FILL advances. -/
theorem sampleResult : Obligations.SampleResult := by
  unfold Obligations.SampleResult
  refine ⟨encodedAs_sample, fun x s => ?_⟩
  split_ifs with hr hlast
  · exact exec_sample_refused x hr
  · rw [exec_sample_accepted x (not_not.mp hr), pushSample_last x hlast]
    rfl
  · rw [exec_sample_accepted x (not_not.mp hr), pushSample_advance x hlast]
    rfl

/-- Settles O49: an ILLEGAL word is refused, and outside a session no command emits. -/
theorem noTokenOutsideSession : Obligations.NoTokenOutsideSession := by
  unfold Obligations.NoTokenOutsideSession
  intro w s t hx hr
  rcases runWord_cases w s with ⟨_, he⟩ | ⟨i, _, he⟩
  · obtain rfl := Host.Outcome.next.inj (he.symm.trans hx)
    exact raiseError_out none .illegal s
  · exact exec_out_of_not_running hr (he.symm.trans hx)

/-- Settles O54: each of the three commands accepted and refused. -/
theorem sessionCommandsFrame : Obligations.SessionCommandsFrame := by
  unfold Obligations.SessionCommandsFrame
  rintro i s (rfl | rfl | rfl) <;> by_cases hr : s.session = .running
  · exact ⟨_, exec_start_refused hr, by simp [refusalFlag]⟩
  · exact ⟨_, exec_start_accepted hr, by simp⟩
  · exact ⟨_, exec_stop_accepted hr, by simp⟩
  · exact ⟨_, exec_stop_refused hr, by simp [refusalFlag, notRunningFlag]⟩
  · exact ⟨_, exec_fault_accepted hr, by simp⟩
  · exact ⟨_, exec_fault_refused hr, by simp [refusalFlag, notRunningFlag]⟩

/-- Settles O55: a refused FREQ sets F_DROPPED; an accepted one decodes a frequency, silence only for the word 0. -/
theorem freqFrame : Obligations.FreqFrame := by
  unfold Obligations.FreqFrame
  intro fw s
  by_cases hr : s.session = .running
  · have hnum : fw ≠ 0 → (freqOfWord fw).num ≠ 0 := fun hfw h0 => hfw (BitVec.eq_of_toNat_eq h0)
    have htext := decodeFreq_bits_of_text (freqOfWord fw) (s := s)
    have hbinary := decodeFreq_lastOut_of_binary (freqOfWord fw) (s := s)
    have hsymbol := fun hm hfw => decodeFreq_symbol_of_binary (s := s) hm (hnum hfw)
    exact ⟨_, exec_freq_accepted fw hr, by simpa using ⟨htext, hbinary, hsymbol⟩⟩
  · exact ⟨_, exec_freq_refused fw hr, by simp [refusalFlag, notRunningFlag, hr]⟩

/-- Settles O56: a refused SAMPLE sets F_DROPPED; an accepted one writes FB at FILL, and a frame that it does not complete
changes FILL alone. -/
theorem sampleFrame : Obligations.SampleFrame := by
  unfold Obligations.SampleFrame
  intro x s hwf
  by_cases hr : s.session = .running
  · have hread := fun a => Memory.read_write s.fill.toNat a x hwf
    refine ⟨_, exec_sample_accepted x hr, ?_⟩
    by_cases hlast : s.fill.toNat + 1 = s.cfg.pN
    · simp +contextual [hr, hlast, hread, storeIndex]
    · simp +contextual [hr, hlast, hread, storeIndex, pushSample_advance x hlast]
  · exact ⟨_, exec_sample_refused x hr, by simp [refusalFlag, notRunningFlag, hr]⟩

/-- Settles O17: a START in a session is refused. -/
theorem startResult : Obligations.StartResult := by
  unfold Obligations.StartResult
  refine ⟨encodedAs_start, fun s => ?_⟩
  split_ifs with hr
  · exact exec_start_refused hr
  · exact exec_start_accepted hr

/-- Settles O18: a STOP outside a session is refused. -/
theorem stopResult : Obligations.StopResult := by
  unfold Obligations.StopResult
  refine ⟨encodedAs_stop, fun s => ?_⟩
  split_ifs with hr
  · exact exec_stop_accepted hr
  · exact exec_stop_refused hr

/-- Settles O19: a FAULT sets its flag in a session and, by its refusal, outside one. -/
theorem faultResult : Obligations.FaultResult := by
  unfold Obligations.FaultResult
  refine ⟨encodedAs_fault, fun s => ?_⟩
  split_ifs with hr
  · exact exec_fault_accepted hr
  · exact exec_fault_refused hr

/-- Settles O26: a FREQ outside a session is refused. -/
theorem freqResult : Obligations.FreqResult := by
  unfold Obligations.FreqResult
  refine ⟨encodedAs_freq, fun fw s => ?_⟩
  split_ifs with hr
  · exact exec_freq_accepted fw hr
  · exact exec_freq_refused fw hr

/-- Settles O21: the frame step is its outcome and its draw, and each outcome writes EST and FILL and decodes. -/
theorem frameStepResult : Obligations.FrameStepResult := by
  unfold Obligations.FrameStepResult
  exact fun s => ⟨rfl, rfl, fun _ => rfl⟩

end Sys2Proof.Machine
end

section
/-! SUPPORT. FLAGS, and the tokens and responses of the past, influence nothing but FLAGS and what RDREG FLAGS returns
(R142 (e), R173, R192): every command runs alike whatever they are, and appends the same to them. -/

namespace Sys2Proof.Machine

/-! ## The same state after another past -/

/-- The four flags (R30). -/
structure FlagBits where
  fault : Bool
  reject : Bool
  illegal : Bool
  dropped : Bool

/-- `s` with the flags `fl`, and with the responses `rs` and the tokens `ts` before its own. -/
def State.withPast (fl : FlagBits) (rs : List RespWord) (ts : List Token) (s : State) : State :=
  { s with
    fFault := fl.fault, fReject := fl.reject, fIllegal := fl.illegal, fDropped := fl.dropped
    resp := rs ++ s.resp, out := ts ++ s.out }

section

variable {fl : FlagBits} {rs : List RespWord} {ts : List Token}

@[simp] theorem withPast_mode (s : State) : (s.withPast fl rs ts).mode = s.mode := rfl
@[simp] theorem withPast_policy (s : State) : (s.withPast fl rs ts).policy = s.policy := rfl
@[simp] theorem withPast_cfg (s : State) : (s.withPast fl rs ts).cfg = s.cfg := rfl

/-! ## The operations that leave FLAGS alone do not depend on the past -/

theorem respond_withPast (k : RespCode) (d : RegWord) (s : State) :
    respond k d (s.withPast fl rs ts) = (respond k d s).withPast fl rs ts := by
  simp only [respond, State.withPast, List.append_assoc]

theorem emit_withPast (kind : TokenKind) (v : BitVec 8) (s : State) :
    emit kind v (s.withPast fl rs ts) = (emit kind v s).withPast fl rs ts := by
  simp only [emit, State.withPast, List.append_assoc]

theorem emitChar_withPast (c : BitVec 7) (s : State) :
    emitChar c (s.withPast fl rs ts) = (emitChar c s).withPast fl rs ts := by
  rw [emitChar, emit_withPast]
  rfl

theorem newSymbol_withPast (c : BitVec 7) (s : State) :
    newSymbol c (s.withPast fl rs ts) = (newSymbol c s).withPast fl rs ts := by
  rw [newSymbol, emitChar_withPast]
  rfl

theorem repeatSymbol_withPast (s : State) : repeatSymbol (s.withPast fl rs ts) = (repeatSymbol s).withPast fl rs ts := by
  rcases repeatSymbol_cases s with ⟨he, hn⟩ | ⟨he, hp⟩ <;> rw [he]
  · exact if_neg hn
  · exact (if_pos hp).trans (emitChar_withPast 0x20 { s with rptCnt := satInc s.cfg.cntMax s.rptCnt })

theorem textSymbol_withPast (c : BitVec 7) (s : State) :
    textSymbol c (s.withPast fl rs ts) = (textSymbol c s).withPast fl rs ts := by
  rcases textSymbol_cases c s with ⟨hv, hc, he⟩ | ⟨hn, he⟩ <;> rw [he]
  · exact (if_pos ⟨hv, hc⟩).trans (repeatSymbol_withPast s)
  · exact (if_neg hn).trans (newSymbol_withPast c s)

theorem decodeBinary_withPast (b : BitVec 1) (s : State) :
    decodeBinary (some b) (s.withPast fl rs ts) = (decodeBinary (some b) s).withPast fl rs ts := by
  rcases decodeBinary_cases b s with ⟨hp, he⟩ | ⟨hn, he⟩ <;> rw [he]
  · refine (if_pos hp).trans ?_
    rw [emit_withPast]
    rfl
  · exact if_neg hn

theorem decodeFreq_withPast (f : Freq) (s : State) :
    decodeFreq f (s.withPast fl rs ts) = (decodeFreq f s).withPast fl rs ts := by
  unfold decodeFreq
  simp only [withPast_mode, withPast_cfg, withPast_policy]
  split_ifs
  · rfl
  · cases s.mode with
    | text =>
      cases f2c s.cfg f s.policy with
      | nomap => rfl
      | mapped c => exact textSymbol_withPast c s
      | subst c => exact textSymbol_withPast c s
    | binary =>
      cases f2b s.cfg f with
      | none => rfl
      | some b => exact decodeBinary_withPast b s

theorem takeDraw_withPast (s : State) : takeDraw (s.withPast fl rs ts) = (takeDraw s).withPast fl rs ts := by
  unfold takeDraw
  rw [apply_ite (State.withPast fl rs ts)]
  rfl

theorem frameResult_withPast (e : Est) (s : State) :
    frameResult e (s.withPast fl rs ts) = (frameResult e s).withPast fl rs ts := by
  cases e with
  | silent => exact decodeFreq_withPast Freq.silence { s with evalid := true, fill := 0, esilent := true, ebin := 0 }
  | bin k =>
    exact decodeFreq_withPast (freqOfBin s.cfg k)
      { s with evalid := true, fill := 0, esilent := false, ebin := BitVec.ofNat 16 k }

theorem frameComplete_withPast (s : State) :
    frameComplete (s.withPast fl rs ts) = (frameComplete s).withPast fl rs ts := by
  rw [frameComplete, takeDraw_withPast, frameResult_withPast]
  rfl

theorem pushSample_withPast (x : Sample) (s : State) :
    pushSample x (s.withPast fl rs ts) = (pushSample x s).withPast fl rs ts := by
  by_cases hlast : s.fill.toNat + 1 = s.cfg.pN
  · rw [pushSample_last x hlast, pushSample_last x (s := s.withPast fl rs ts) hlast]
    exact frameComplete_withPast (storeSample x s)
  · rw [pushSample_advance x hlast, pushSample_advance x (s := s.withPast fl rs ts) hlast]
    rfl

/-! ## The operations on FLAGS -/

/-- `t` is `s` after the responses `rs` and the tokens `ts`, with any FLAGS. -/
def AfterPast (rs : List RespWord) (ts : List Token) (s t : State) : Prop := ∃ fl, t = s.withPast fl rs ts

theorem setFlag_withPast (f : Flag) (s : State) : AfterPast rs ts (setFlag f s) (setFlag f (s.withPast fl rs ts)) := by
  cases f with
  | fault => exact ⟨{ fl with fault := true }, rfl⟩
  | reject => exact ⟨{ fl with reject := true }, rfl⟩
  | illegal => exact ⟨{ fl with illegal := true }, rfl⟩
  | dropped => exact ⟨{ fl with dropped := true }, rfl⟩

theorem AfterPast.respond {s t : State} (h : AfterPast rs ts s t) (k : RespCode) (d : RegWord) :
    AfterPast rs ts (respond k d s) (respond k d t) := by
  obtain ⟨fl, rfl⟩ := h
  exact ⟨fl, respond_withPast k d s⟩

theorem AfterPast.raiseError {s t : State} (h : AfterPast rs ts s t) (cmd : Option Instr) (k : RespCode) :
    AfterPast rs ts (raiseError cmd k s) (raiseError cmd k t) := by
  obtain ⟨fl, rfl⟩ := h
  refine AfterPast.respond ?_ k 0
  unfold applyRefusalFlag
  cases refusalFlag cmd k with
  | none => exact ⟨fl, rfl⟩
  | some f => exact setFlag_withPast f s

theorem regWrite_withPast (sel : BitVec 8) (v : RegWord) (s : State) :
    AfterPast rs ts (regWrite sel v s) (regWrite sel v (s.withPast fl rs ts)) := by
  unfold regWrite
  split_ifs
  · exact ⟨fl, rfl⟩
  · exact ⟨fl, rfl⟩
  · exact ⟨{ fault := fl.fault && !v.getLsbD 0, reject := fl.reject && !v.getLsbD 1,
              illegal := fl.illegal && !v.getLsbD 2, dropped := fl.dropped && !v.getLsbD 3 }, rfl⟩
  · exact ⟨fl, rfl⟩

/-! ## Every command -/

/-- Where the first answer goes on, the second goes on to the same state after the past. -/
def AnswersAfter (rs : List RespWord) (ts : List Token) (x y : Host.Outcome State Fault Refusal) : Prop :=
  ∀ s, x = .next s → ∃ t, y = .next t ∧ AfterPast rs ts s t

theorem AfterPast.answers {s t : State} (h : AfterPast rs ts s t) : AnswersAfter rs ts (.next s) (.next t) := fun _ hu =>
  ⟨t, rfl, Host.Outcome.next.inj hu ▸ h⟩

theorem answersAfter_ite {p : Prop} [Decidable p] {a b a' b' : State} (ha : AfterPast rs ts a a')
    (hb : AfterPast rs ts b b') :
    AnswersAfter rs ts (if p then .next a else .next b) (if p then .next a' else .next b') := by
  split_ifs
  · exact ha.answers
  · exact hb.answers

/-- FLAGS are read by no register but FLAGS, and the past by none (R160). -/
theorem regRead_withPast {sel : BitVec 8} (hsel : sel ≠ 0x07#8) (s : State) :
    regRead sel (s.withPast fl rs ts) = regRead sel s := by
  unfold regRead
  rw [if_neg hsel, if_neg hsel]
  rfl

theorem exec_withPast {i : Instr} (hi : i ≠ .rdreg 0x07) (s : State) :
    AnswersAfter rs ts (exec i s) (exec i (s.withPast fl rs ts)) := by
  have hself : AfterPast rs ts s (s.withPast fl rs ts) := ⟨fl, rfl⟩
  cases i with
  | start => exact answersAfter_ite (hself.raiseError (some .start) .alreadyRunning) (AfterPast.respond ⟨fl, rfl⟩ .ok 0)
  | stop =>
    exact answersAfter_ite (AfterPast.respond ⟨fl, emit_withPast .done 0x00 _⟩ .ok 0)
      (hself.raiseError (some .stop) .notRunning)
  | fault =>
    exact answersAfter_ite (AfterPast.respond ⟨{ fl with fault := true }, emit_withPast .done 0x01 _⟩ .ok 0)
      (hself.raiseError (some .fault) .notRunning)
  | sample x =>
    exact answersAfter_ite (AfterPast.respond ⟨fl, pushSample_withPast x s⟩ .ok 0)
      (hself.raiseError (some (.sample x)) .notRunning)
  | freq fw =>
    exact answersAfter_ite (AfterPast.respond ⟨fl, decodeFreq_withPast (freqOfWord fw) s⟩ .ok 0)
      (hself.raiseError (some (.freq fw)) .notRunning)
  | c2f code =>
    simp only [exec, execC2f, withPast_cfg]
    cases c2f s.cfg code.toNat with
    | none => exact (hself.respond .nomap 0).answers
    | some f => exact (hself.respond .ok (wordOfHz f)).answers
  | f2c fw =>
    simp only [exec, execF2c, withPast_cfg, withPast_policy]
    cases f2c s.cfg (freqOfWord fw) s.policy with
    | mapped code => exact (hself.respond .ok (code.setWidth 32)).answers
    | subst code => exact (hself.respond .nomap (code.setWidth 32)).answers
    | nomap => exact (hself.respond .nomap 0).answers
  | b2f bit => exact (hself.respond .ok (wordOfHz (b2f s.cfg bit))).answers
  | f2b fw =>
    simp only [exec, execF2b, withPast_cfg]
    cases f2b s.cfg (freqOfWord fw) with
    | none => exact (hself.respond .nomap 0).answers
    | some b => exact (hself.respond .ok (b.setWidth 32)).answers
  | rdreg sel =>
    have hsel : sel ≠ 0x07 := fun h => hi (congrArg Instr.rdreg h)
    simp only [exec, execRdreg, regRead_withPast hsel]
    cases regRead sel s with
    | none => exact (hself.raiseError (some (.rdreg sel)) .badSel).answers
    | some v => exact (hself.respond .ok v).answers
  | wrreg sel v =>
    have hcheck : wrregRefusal sel v (s.withPast fl rs ts) = wrregRefusal sel v s := rfl
    simp only [exec, execWrreg, hcheck]
    cases wrregRefusal sel v s with
    | none => exact ((regWrite_withPast sel v s).respond .ok 0).answers
    | some k => exact (hself.raiseError (some (.wrreg sel v)) k).answers

/-! ## Every word -/

theorem runWord_withPast {w : CmdWord} (hw : decode w ≠ some (.rdreg 0x07)) (s : State) :
    AnswersAfter rs ts (runWord w s) (runWord w (s.withPast fl rs ts)) := by
  rcases hdec : decode w with _ | i
  · rw [runWord_of_illegal hdec, runWord_of_illegal hdec]
    exact (AfterPast.raiseError ⟨fl, rfl⟩ none .illegal).answers
  · rw [runWord_of_decode hdec, runWord_of_decode hdec]
    exact exec_withPast (fun h => hw (hdec.trans (congrArg some h))) s

end

/-! ## Two states that agree -/

/-- Two states agree but for FLAGS, and the tokens and responses of the past. -/
def AgreePast (s t : State) : Prop :=
  { s with
    fFault := t.fFault, fReject := t.fReject, fIllegal := t.fIllegal, fDropped := t.fDropped
    resp := t.resp, out := t.out } = t

/-- `s` without its past. -/
def State.fresh (s : State) : State := { s with resp := [], out := [] }

theorem AgreePast.afterPast {s t : State} (h : AgreePast s t) : AfterPast t.resp t.out s.fresh t := by
  refine ⟨⟨t.fFault, t.fReject, t.fIllegal, t.fDropped⟩, h.symm.trans ?_⟩
  simp only [State.withPast, State.fresh, List.append_nil]

/-- `s'` and `t'` have the same responses and tokens more than `s` and `t`. -/
def AppendAlike (s t s' t' : State) : Prop :=
  ∃ (r : RespWord) (new : List Token), s'.resp = s.resp ++ [r] ∧ t'.resp = t.resp ++ [r] ∧
    s'.out = s.out ++ new ∧ t'.out = t.out ++ new

/-- Both states answer as the one without its past does. -/
theorem runWord_agreePast {w : CmdWord} {s t s' : State} (hw : decode w ≠ some (.rdreg 0x07)) (h : AgreePast s t)
    (hx : runWord w s = .next s') : ∃ t', runWord w t = .next t' ∧ AgreePast s' t' ∧ AppendAlike s t s' t' := by
  have hself : AgreePast s s := rfl
  obtain ⟨fs, hs⟩ := hself.afterPast
  obtain ⟨ft, ht⟩ := h.afterPast
  obtain ⟨u, hu, ⟨-, -, ⟨r, -, hr⟩, -⟩⟩ := runWord_answers w s.fresh
  obtain ⟨s'', hxs, fs', hs'⟩ := runWord_withPast hw s.fresh u hu
  obtain ⟨t', hxt, ft', ht'⟩ := runWord_withPast hw s.fresh u hu
  rw [← hs, hx] at hxs
  rw [← ht] at hxt
  obtain rfl := Host.Outcome.next.inj hxs
  refine ⟨t', hxt, by rw [hs', ht']; rfl, r, u.out, ?_, ?_, ?_, ?_⟩
  · exact (congrArg State.resp hs').trans (congrArg (s.resp ++ ·) hr)
  · exact (congrArg State.resp ht').trans (congrArg (t.resp ++ ·) hr)
  · exact congrArg State.out hs'
  · exact congrArg State.out ht'

/-- RDREG FLAGS returns the flags, and changes nothing. -/
theorem runWord_agreePast_of_rdreg_flags {w : CmdWord} {s t s' : State} (hw : decode w = some (.rdreg 0x07))
    (h : AgreePast s t) (hx : runWord w s = .next s') :
    ∃ t', runWord w t = .next t' ∧ AgreePast s' t' ∧ s'.out = s.out ∧ t'.out = t.out := by
  rw [runWord_of_decode hw] at hx ⊢
  obtain rfl := Host.Outcome.next.inj hx
  exact ⟨respond .ok (flagsWord t) t, rfl, by rw [← h]; rfl, rfl, rfl⟩

/-! ## The agreements of the statements -/

theorem agreeButFlags_iff {s t : State} : AgreeButFlags s t ↔ AgreePast s t ∧ s.out = t.out := by
  constructor
  · intro h
    have hout : s.out = t.out := by rw [← h]
    exact ⟨by rw [AgreePast, ← hout]; exact h, hout⟩
  · rintro ⟨h, hout⟩
    rw [AgreePast, ← hout] at h
    exact h

theorem AgreePast.fb_eq {s t : State} (h : AgreePast s t) : s.fb = t.fb := by rw [← h]

/-- Agreement of the session is agreement below FILL with a state that differs in its past alone. -/
theorem agreeSession_iff {s t : State} : AgreeSession s t ↔ ∃ u, AgreeFrame s u ∧ AgreePast u t := by
  constructor
  · rintro ⟨h, hm⟩
    exact ⟨s.withFb t.fb, ⟨rfl, hm⟩, h⟩
  · rintro ⟨u, hf, hp⟩
    obtain ⟨m, rfl, hm⟩ := agreeFrame_iff.mp hf
    obtain rfl : m = t.fb := hp.fb_eq
    exact ⟨hp, hm⟩

theorem AgreeFrame.out_eq {s t : State} (h : AgreeFrame s t) : s.out = t.out := by rw [← h.1]

/-- An accepted START leaves nothing of the state before it but its settings and its past (R132). -/
theorem agreeSession_start {s t : State} (hmode : s.mode = t.mode) (hpolicy : s.policy = t.policy)
    (hrepeat : s.repeatT = t.repeatT) (hethresh : s.ethresh = t.ethresh) (hcfg : s.cfg = t.cfg)
    (hdraws : s.draws = t.draws) (hinp : s.inp = t.inp) :
    AgreeSession { clearSession s with session := .running } { clearSession t with session := .running } := by
  refine ⟨?_, fun i hi => absurd hi (Nat.not_lt_zero i)⟩
  simp only [clearSession, hmode, hpolicy, hrepeat, hethresh, hcfg, hdraws, hinp]

theorem AgreeSession.respond {s t : State} (h : AgreeSession s t) (k : RespCode) (d : RegWord) :
    AgreeSession (respond k d s) (respond k d t) := by
  obtain ⟨ht, hm⟩ := h
  exact ⟨by rw [← ht]; rfl, hm⟩

/-- Every word keeps the agreement of two sessions, and emits the same tokens in both. -/
theorem runWord_agreeSession {w : CmdWord} {s t s' : State} (hs : s.fb.wf = true) (ht : t.fb.wf = true)
    (h : AgreeSession s t) (hx : runWord w s = .next s') :
    ∃ t', runWord w t = .next t' ∧ AgreeSession s' t' ∧ ∃ new, s'.out = s.out ++ new ∧ t'.out = t.out ++ new := by
  obtain ⟨u, hf, hp⟩ := agreeSession_iff.mp h
  obtain ⟨u', hxu, hf'⟩ := runWord_agreeFrame hs (hp.fb_eq ▸ ht) hf hx
  rw [hf.out_eq, hf'.out_eq]
  by_cases hw : decode w = some (.rdreg 0x07)
  · obtain ⟨t', hxt, hp', hu, ht'⟩ := runWord_agreePast_of_rdreg_flags hw hp hxu
    exact ⟨t', hxt, agreeSession_iff.mpr ⟨u', hf', hp'⟩, [], by simp [hu, ht']⟩
  · obtain ⟨t', hxt, hp', r, new, -, -, hu, ht'⟩ := runWord_agreePast hw hp hxu
    exact ⟨t', hxt, agreeSession_iff.mpr ⟨u', hf', hp'⟩, new, hu, ht'⟩

/-! ## The statements -/

/-- Settles O51: the two states differ in their past alone; RDREG FLAGS is the one word that returns it. -/
theorem flagsInfluenceNothing : Obligations.FlagsInfluenceNothing := by
  unfold Obligations.FlagsInfluenceNothing
  intro w s t s' h hx
  obtain ⟨hp, hout⟩ := agreeButFlags_iff.mp h
  by_cases hw : decode w = some (.rdreg 0x07)
  · obtain ⟨t', hxt, hp', hs', ht'⟩ := runWord_agreePast_of_rdreg_flags hw hp hx
    exact ⟨t', hxt, agreeButFlags_iff.mpr ⟨hp', by rw [hs', ht', hout]⟩, fun hn => absurd hw hn⟩
  · obtain ⟨t', hxt, hp', r, new, hrs, hrt, hs', ht'⟩ := runWord_agreePast hw hp hx
    exact ⟨t', hxt, agreeButFlags_iff.mpr ⟨hp', by rw [hs', ht', hout]⟩, fun _ => ⟨r, hrs, hrt⟩⟩

/-- Settles O52: START clears the session state, and every word keeps the agreement. -/
theorem sessionsAreIndependent : Obligations.SessionsAreIndependent := by
  unfold Obligations.SessionsAreIndependent
  refine ⟨fun s t s' t' hs ht hmode hpolicy hrepeat hethresh hcfg hdraws hinp hxs hxt => ?_,
    fun w s t s' hs ht h hx => runWord_agreeSession hs ht h hx⟩
  obtain rfl := Host.Outcome.next.inj ((exec_start_accepted hs).symm.trans hxs)
  obtain rfl := Host.Outcome.next.inj ((exec_start_accepted ht).symm.trans hxt)
  exact (agreeSession_start hmode hpolicy hrepeat hethresh hcfg hdraws hinp).respond .ok 0

end Sys2Proof.Machine
end

section
/-! SUPPORT. The register space (R22 to R33) and the commands RDREG and WRREG (R160 to R165): each register word as the
shifts and ors of its fields, and the outcome of an access by its select number. -/

namespace Sys2Proof.Machine

variable {sel : BitVec 8} {v : RegWord}

/-! ## Encoding -/

theorem encodedAs_rdreg :
    EncodedAs 0x30 0x3000000000000000 0xFF00FFFFFFFFFFFF (fun w => .rdreg (w.extractLsb' 48 8)) :=
  encodedAs_of_row (by decide) (by decide) fun _ => rfl

theorem encodedAs_wrreg : EncodedAs 0x31 0x3100000000000000 0xFF00FFFF00000000
    (fun w => .wrreg (w.extractLsb' 48 8) (w.extractLsb' 0 32)) :=
  encodedAs_of_row (by decide) (by decide) fun _ => rfl

/-! ## The select numbers -/

theorem reservedSel_iff : reservedSel sel = true ↔ 0x0A ≤ sel.toNat := decide_eq_true_iff

theorem readOnlySel_iff :
    readOnlySel sel = true ↔ sel ∈ [0x00#8, 0x03#8, 0x04#8, 0x05#8, 0x06#8, 0x08#8, 0x09#8] := decide_eq_true_iff

theorem lockableSel_iff : lockableSel sel = true ↔ sel = 0x01#8 ∨ sel = 0x02#8 := by
  simp [lockableSel]

/-- The select numbers that are not reserved (R22, R33). -/
theorem implemented_sel (hres : ¬ 0x0A ≤ sel.toNat) :
    sel = 0x00#8 ∨ sel = 0x01#8 ∨ sel = 0x02#8 ∨ sel = 0x03#8 ∨ sel = 0x04#8 ∨ sel = 0x05#8 ∨ sel = 0x06#8 ∨
      sel = 0x07#8 ∨ sel = 0x08#8 ∨ sel = 0x09#8 := by
  bv_omega

/-- The registers that are neither reserved nor read-only: CONFIG, ETHRESH and FLAGS (R33, R165). -/
theorem writable_sel (hres : ¬ 0x0A ≤ sel.toNat)
    (hro : sel ∉ [0x00#8, 0x03#8, 0x04#8, 0x05#8, 0x06#8, 0x08#8, 0x09#8]) :
    sel = 0x01#8 ∨ sel = 0x02#8 ∨ sel = 0x07#8 := by
  revert sel
  decide

/-! ## The register words

Each is a concatenation at width 32, and the shifts of nested concatenations add up. -/

theorem statusWord_eq (s : State) : statusWord s = (stateBits s.session).setWidth 32 := by
  rw [← BitVec.setWidth_eq (statusWord s)]
  simp only [statusWord, setWidth_append_eq_or]
  simp

theorem configWord_eq (s : State) : configWord s =
    (s.repeatT.setWidth 32 <<< 8) ||| ((if s.policy = .placeholder then 1 else 0) <<< 1) |||
      (if s.mode = .binary then 1 else 0) := by
  rw [← BitVec.setWidth_eq (configWord s)]
  simp only [configWord, setWidth_append_eq_or, BitVec.shiftLeft_or_distrib, ← BitVec.shiftLeft_add]
  cases s.policy <;> cases s.mode <;> simp [policyBit, modeBit]

theorem decWord_eq (s : State) : decWord s =
    ((BitVec.ofBool s.lastOutV).setWidth 32 <<< 23) ||| (s.lastOut.setWidth 32 <<< 16) |||
      (s.rptCnt.setWidth 32 <<< 8) ||| ((BitVec.ofBool s.lastSymV).setWidth 32 <<< 7) ||| s.lastSym.setWidth 32 := by
  rw [← BitVec.setWidth_eq (decWord s)]
  simp only [decWord, setWidth_append_eq_or, BitVec.shiftLeft_or_distrib, ← BitVec.shiftLeft_add]
  simp

theorem bitsWord_eq (s : State) : bitsWord s = (s.pcnt.setWidth 32 <<< 8) ||| s.pbits.setWidth 32 := by
  rw [← BitVec.setWidth_eq (bitsWord s)]
  simp only [bitsWord, setWidth_append_eq_or]
  simp

theorem estWord_eq (s : State) : estWord s =
    (s.ebin.setWidth 32 <<< 16) ||| ((BitVec.ofBool s.esilent).setWidth 32 <<< 1) |||
      (BitVec.ofBool s.evalid).setWidth 32 := by
  rw [← BitVec.setWidth_eq (estWord s)]
  simp only [estWord, setWidth_append_eq_or, BitVec.shiftLeft_or_distrib, ← BitVec.shiftLeft_add]
  simp

theorem fillWord_eq (s : State) : fillWord s = s.fill.setWidth 32 := by
  rw [← BitVec.setWidth_eq (fillWord s)]
  simp only [fillWord, setWidth_append_eq_or]
  simp

theorem flagsWord_eq (s : State) : flagsWord s =
    ((BitVec.ofBool s.fDropped).setWidth 32 <<< 3) ||| ((BitVec.ofBool s.fIllegal).setWidth 32 <<< 2) |||
      ((BitVec.ofBool s.fReject).setWidth 32 <<< 1) ||| (BitVec.ofBool s.fFault).setWidth 32 := by
  rw [← BitVec.setWidth_eq (flagsWord s)]
  simp only [flagsWord, setWidth_append_eq_or, BitVec.shiftLeft_or_distrib, ← BitVec.shiftLeft_add]
  simp

/-! ## RDREG -/

theorem regRead_of_reserved (hres : 0x0A ≤ sel.toNat) (s : State) : regRead sel s = none := by
  have hne (x : BitVec 8) (hx : x.toNat < 0x0A) : sel ≠ x := by
    rintro rfl
    omega
  unfold regRead
  iterate 10 refine (if_neg (hne _ (by decide))).trans ?_
  rfl

/-- The select numbers below 0x0A, each with its register (R22, R33). -/
theorem regRead_of_not_reserved (hres : ¬ 0x0A ≤ sel.toNat) (s : State) : regRead sel s = some
    (if sel = 0x00#8 then statusWord s else if sel = 0x01#8 then configWord s else if sel = 0x02#8 then s.ethresh
    else if sel = 0x03#8 then decWord s else if sel = 0x04#8 then bitsWord s else if sel = 0x05#8 then estWord s
    else if sel = 0x06#8 then fillWord s else if sel = 0x07#8 then flagsWord s
    else if sel = 0x08#8 then BitVec.ofNat 32 s.cfg.pRate else BitVec.ofNat 32 s.cfg.pN) := by
  rcases implemented_sel hres with rfl | rfl | rfl | rfl | rfl | rfl | rfl | rfl | rfl | rfl <;> rfl

/-- BAD_SEL sets no flag (R173), so a reserved read does nothing but respond. -/
theorem exec_rdreg_reserved (hres : 0x0A ≤ sel.toNat) (s : State) :
    exec (.rdreg sel) s = .next (respond .badSel 0 s) := by
  simp only [exec, execRdreg, regRead_of_reserved hres]
  rfl

/-! ## WRREG -/

/-- WRREG responds with its refusal, which sets no flag (R173), or writes and responds OK (R161). -/
theorem exec_wrreg (sel : BitVec 8) (v : RegWord) (s : State) : exec (.wrreg sel v) s =
    .next ((wrregRefusal sel v s).elim (respond .ok 0 (regWrite sel v s)) (respond · 0 s)) := by
  simp only [exec, execWrreg]
  cases h : wrregRefusal sel v s with
  | none => rfl
  | some k =>
    unfold wrregRefusal at h
    split_ifs at h <;> (obtain rfl := Option.some.inj h; rfl)

theorem legalConfig_eq_false_iff :
    legalConfig v = false ↔ v.extractLsb' 2 6 ≠ 0 ∨ v.extractLsb' 16 16 ≠ 0 ∨ v.extractLsb' 8 8 = 0 := by
  simp only [legalConfig, Bool.and_eq_false_iff, decide_eq_false_iff_not, bne_eq_false_iff_eq, or_assoc]
  rfl

theorem legalFlags_eq_false_iff : legalFlags v = false ↔ v.extractLsb' 4 28 ≠ 0 := decide_eq_false_iff_not

/-! ## The statements -/

/-- Settles O32: the checks in their order, and the write of each register that they let through. -/
theorem wrregResult : Obligations.WrregResult := by
  unfold Obligations.WrregResult
  refine ⟨encodedAs_wrreg, fun sel v s => ?_⟩
  simp only [exec_wrreg, wrregRefusal, reservedSel_iff, readOnlySel_iff, lockableSel_iff, legalConfig_eq_false_iff,
    legalFlags_eq_false_iff]
  refine congrArg Host.Outcome.next ?_
  by_cases hres : 0x0A ≤ sel.toNat
  · simp only [if_pos hres]
    rfl
  by_cases hro : sel ∈ [0x00#8, 0x03#8, 0x04#8, 0x05#8, 0x06#8, 0x08#8, 0x09#8]
  · simp only [if_neg hres, if_pos hro]
    rfl
  by_cases hlock : (sel = 0x01#8 ∨ sel = 0x02#8) ∧ s.session = .running
  · simp only [if_neg hres, if_neg hro, if_pos hlock]
    rfl
  simp only [if_neg hres, if_neg hro, if_neg hlock]
  rcases writable_sel hres hro with rfl | rfl | rfl
  · by_cases hbad : v.extractLsb' 2 6 ≠ 0 ∨ v.extractLsb' 16 16 ≠ 0 ∨ v.extractLsb' 8 8 = 0
    · rw [if_pos ⟨rfl, hbad⟩, if_pos rfl, if_pos hbad]
      rfl
    · rw [if_neg fun h => hbad h.2, if_neg nofun, if_pos rfl, if_neg hbad]
      rfl
  · rfl
  · by_cases hbad : v.extractLsb' 4 28 ≠ 0
    · rw [if_neg nofun, if_pos ⟨rfl, hbad⟩, if_neg nofun, if_neg nofun, if_pos hbad]
      rfl
    · rw [if_neg nofun, if_neg fun h => hbad h.2, if_neg nofun, if_neg nofun, if_neg hbad]
      rfl

/-- Settles O57: a refusal only responds, and each write changes the register it names. -/
theorem wrregFrame : Obligations.WrregFrame := by
  unfold Obligations.WrregFrame
  intro sel v s
  refine ⟨_, exec_wrreg sel v s, ?_⟩
  cases h : wrregRefusal sel v s with
  | some k => exact ⟨fun _ => ⟨rfl, rfl, rfl⟩, fun _ => rfl, fun _ => ⟨rfl, rfl, rfl, rfl⟩, rfl, fun _ => rfl⟩
  | none =>
    rw [Option.elim_none]
    rcases regWrite_cases h with ⟨rfl, _, _, hw⟩ | ⟨rfl, _, hw⟩ | ⟨rfl, _, hw⟩ <;> rw [hw]
    · exact ⟨fun hsel => absurd rfl hsel, fun _ => rfl, fun _ => ⟨rfl, rfl, rfl, rfl⟩, rfl, fun _ => rfl⟩
    · exact ⟨fun _ => ⟨rfl, rfl, rfl⟩, fun hsel => absurd rfl hsel, fun _ => ⟨rfl, rfl, rfl, rfl⟩, rfl, fun _ => rfl⟩
    · exact ⟨fun _ => ⟨rfl, rfl, rfl⟩, fun _ => rfl, fun hsel => absurd rfl hsel, rfl, fun _ => rfl⟩

/-- Settles O31: each register's word by its fields. -/
theorem rdregResult : Obligations.RdregResult := by
  unfold Obligations.RdregResult
  refine ⟨encodedAs_rdreg, fun sel s => ?_⟩
  by_cases hres : 0x0A ≤ sel.toNat
  · rw [exec_rdreg_reserved hres, if_pos hres]
    rfl
  · rw [exec_rdreg_of_regRead (regRead_of_not_reserved hres s), if_neg hres, respond]
    simp only [statusWord_eq, configWord_eq, decWord_eq, bitsWord_eq, estWord_eq, fillWord_eq, flagsWord_eq]
    cases s.session <;> rfl

end Sys2Proof.Machine
end

section
/-! SUPPORT. Every session ends with one DONE (R177): the sessions ended and the one still active, counted together, grow by
one at an accepted START and by nothing else. -/

namespace Sys2Proof.Machine

/-! ## DONE tokens -/

@[simp] theorem doneCount_append_mkToken (ts : List Token) (k : TokenKind) (v : BitVec 8) :
    doneCount (ts ++ [mkToken k v]) = doneCount ts + if k = .done then 1 else 0 := by
  cases k <;> simp [doneCount, kindBits]

/-- A detected symbol emits CHAR tokens alone (R139). -/
theorem doneCount_textSymbol (c : BitVec 7) (s : State) : doneCount (textSymbol c s).out = doneCount s.out := by
  rcases textSymbol_cases c s with ⟨_, _, h⟩ | ⟨_, h⟩ <;> rw [h]
  · rcases repeatSymbol_cases s with ⟨h, _⟩ | ⟨h, _⟩ <;> rw [h]
    simp
  · simp

/-- A detected bit emits BYTE tokens alone (R140). -/
theorem doneCount_decodeBinary (b : BitVec 1) (s : State) : doneCount (decodeBinary (some b) s).out = doneCount s.out := by
  rcases decodeBinary_cases b s with ⟨_, h⟩ | ⟨_, h⟩ <;> rw [h]
  simp

theorem doneCount_decodeFreq (f : Freq) (s : State) : doneCount (decodeFreq f s).out = doneCount s.out := by
  rcases decodeFreq_cases f s with ⟨_, h⟩ | ⟨_, h⟩ | ⟨_, _, c, _, h⟩ | ⟨_, _, b, _, h⟩ <;> rw [h]
  · rfl
  · exact doneCount_textSymbol c s
  · exact doneCount_decodeBinary b s

theorem doneCount_frameComplete (s : State) : doneCount (frameComplete s).out = doneCount s.out := by
  unfold frameComplete
  cases frameOutcome s <;> simp [frameResult, doneCount_decodeFreq]

theorem doneCount_pushSample (x : Sample) (s : State) : doneCount (pushSample x s).out = doneCount s.out := by
  by_cases hlast : s.fill.toNat + 1 = s.cfg.pN
  · rw [pushSample_last x hlast]
    exact doneCount_frameComplete (storeSample x s)
  · rw [pushSample_advance x hlast]
    rfl

/-! ## Sessions -/

/-- The sessions that have ended with a DONE, and the one that is active (R62, R177). -/
def sessionCount (s : State) : ℕ := doneCount s.out + activeCount s

theorem sessionCount_congr {s t : State} (hout : doneCount t.out = doneCount s.out) (hsession : t.session = s.session) :
    sessionCount t = sessionCount s := by
  rw [sessionCount, sessionCount, activeCount, activeCount, hout, hsession]

theorem activeCount_of_not_running {s : State} (hr : s.session ≠ .running) : activeCount s = 0 := by
  unfold activeCount
  cases hs : s.session with
  | idle => rfl
  | running => exact absurd hs hr
  | stopped => rfl

/-- START begins a session and emits nothing, STOP and FAULT end one with a DONE, and no other command does either. -/
theorem exec_sessionCount {i : Instr} {s t : State} (hx : exec i s = .next t) :
    sessionCount t = sessionCount s + if i = .start ∧ s.session ≠ .running then 1 else 0 := by
  rcases exec_cases i s with ⟨k, d, _, he, hq⟩ | ⟨k, _, hk, he⟩ | ⟨rfl, hr, he⟩ | ⟨rfl, hr, he⟩ | ⟨rfl, hr, he⟩ |
    ⟨x, rfl, _, he⟩ | ⟨fw, rfl, _, he⟩ | ⟨sel, v, rfl, _, he⟩ <;> obtain rfl := Host.Outcome.next.inj (he.symm.trans hx)
  · have hi : i ≠ .start := by rintro rfl; simp at hq
    rw [if_neg fun h => hi h.1]
    rfl
  · have hi : ¬(i = .start ∧ s.session ≠ .running) := by
      rintro ⟨rfl, hr⟩
      simp [Refused, hr] at hk
    rw [if_neg hi]
    exact sessionCount_congr (by simp) (by simp)
  · rw [if_pos ⟨rfl, hr⟩, sessionCount, sessionCount, activeCount_of_not_running hr]
    rfl
  · simp [sessionCount, activeCount, hr]
  · simp [sessionCount, activeCount, hr]
  · exact sessionCount_congr (doneCount_pushSample x s) (by simp)
  · exact sessionCount_congr (doneCount_decodeFreq (freqOfWord fw) s) (by simp)
  · exact sessionCount_congr (by simp) (by simp)

theorem runWord_sessionCount {w : CmdWord} {s t : State} (hx : runWord w s = .next t) :
    sessionCount t = sessionCount s + if acceptedStart w s then 1 else 0 := by
  rcases runWord_cases w s with ⟨hdec, he⟩ | ⟨i, hdec, he⟩
  · obtain rfl := Host.Outcome.next.inj (he.symm.trans hx)
    rw [acceptedStart, hdec]
    exact sessionCount_congr (by simp) (by simp)
  · simpa [acceptedStart, hdec] using exec_sessionCount (he.symm.trans hx)

/-! ## The statement -/

/-- Settles O48: by induction on the run, the count grows at each accepted START. -/
theorem doneOncePerSession : Obligations.DoneOncePerSession := by
  unfold Obligations.DoneOncePerSession
  intro ws n s t hrun
  induction hrun with
  | nil s => rfl
  | cons w ws n s t u hw _ ih =>
    have hstep := runWord_sessionCount hw
    unfold sessionCount at hstep
    split_ifs at hstep ⊢ <;> omega

end Sys2Proof.Machine
end

section
/-! SUPPORT. The response codes (R171, R172), the FLAGS (R173) and the precision of a refusal (R170): what each command
answers, and what it may change besides. -/

namespace Sys2Proof.Machine

/-! ## No command -/

theorem step_of_inp_nil {s : State} (h : s.inp = []) : step s = .next s := by
  rw [step, takeWord, h]

/-! ## Refusals -/

/-- A refusal writes FLAGS and returns its response (R170). -/
theorem agreeButFlags_raiseError (cmd : Option Instr) (k : RespCode) (s : State) :
    AgreeButFlags s (raiseError cmd k s) := by
  unfold AgreeButFlags raiseError applyRefusalFlag
  cases refusalFlag cmd k with
  | none => rfl
  | some f => cases f <;> rfl

/-- A word is refused by `raiseError`, or its response code is OK or NOMAP (R170, R171). -/
theorem runWord_refused_or_not {w : CmdWord} {s t : State} (hx : runWord w s = .next t) :
    (∃ cmd k, t = raiseError cmd k s) ∨ ∃ k d, isRefusal k = false ∧ t.resp = s.resp ++ [mkResponse k d] := by
  rcases runWord_cases w s with ⟨_, he⟩ | ⟨i, _, he⟩ <;> rw [hx] at he
  · exact Or.inl ⟨none, .illegal, Host.Outcome.next.inj he⟩
  · rcases exec_cases i s with ⟨k, d, hk, h, _⟩ | ⟨k, _, _, h⟩ | ⟨_, _, h⟩ | ⟨_, _, h⟩ | ⟨_, _, h⟩ | ⟨x, _, _, h⟩ |
      ⟨fw, _, _, h⟩ | ⟨sel, v, _, _, h⟩ <;> obtain rfl := Host.Outcome.next.inj (he.trans h)
    · exact Or.inr ⟨k, d, hk, rfl⟩
    · exact Or.inl ⟨some i, k, rfl⟩
    · exact Or.inr ⟨.ok, 0, rfl, rfl⟩
    · exact Or.inr ⟨.ok, 0, rfl, rfl⟩
    · exact Or.inr ⟨.ok, 0, rfl, rfl⟩
    · exact Or.inr ⟨.ok, 0, rfl, by simp⟩
    · exact Or.inr ⟨.ok, 0, rfl, by simp⟩
    · exact Or.inr ⟨.ok, 0, rfl, by simp⟩

/-! ## FLAGS -/

/-- The one outcome that sets each flag (R173); the command is `none` for an ILLEGAL word. -/
def SetsFlag (cmd : Option Instr) (s : State) : Flag → Prop
  | .fault => cmd = some .fault
  | .reject => cmd = some .start ∧ s.session = .running
  | .illegal => cmd = none
  | .dropped => s.session ≠ .running ∧ ((∃ x, cmd = some (.sample x)) ∨ ∃ fw, cmd = some (.freq fw))

/-- The flags of `t` are those of `s` and the ones that the command sets. -/
def FlagsAfter (cmd : Option Instr) (s t : State) : Prop :=
  (t.fFault = true ↔ s.fFault = true ∨ SetsFlag cmd s .fault) ∧
  (t.fReject = true ↔ s.fReject = true ∨ SetsFlag cmd s .reject) ∧
  (t.fIllegal = true ↔ s.fIllegal = true ∨ SetsFlag cmd s .illegal) ∧
  (t.fDropped = true ↔ s.fDropped = true ∨ SetsFlag cmd s .dropped)

/-- A refusal sets the flag that `refusalFlag` gives it. -/
theorem flagsAfter_raiseError {cmd : Option Instr} {k : RespCode} {s : State}
    (h : ∀ f, SetsFlag cmd s f ↔ refusalFlag cmd k = some f) : FlagsAfter cmd s (raiseError cmd k s) := by
  simp [FlagsAfter, h]

/-- No refusal of a WRREG sets a flag (R173). -/
theorem refusalFlag_of_wrregRefusal {sel : BitVec 8} {v : RegWord} {s : State} {k : RespCode}
    (h : wrregRefusal sel v s = some k) (cmd : Option Instr) : refusalFlag cmd k = none := by
  unfold wrregRefusal at h
  split_ifs at h <;> (obtain rfl := Option.some.inj h; rfl)

/-- The flag of a refused command is the one that its refusal sets. -/
theorem Refused.setsFlag_iff {i : Instr} {k : RespCode} {s : State} (h : Refused i k s) (f : Flag) :
    SetsFlag (some i) s f ↔ refusalFlag (some i) k = some f := by
  rcases h with ⟨rfl, hr, rfl⟩ | ⟨hi, hr, rfl⟩ | ⟨sel, rfl, _, rfl⟩ | ⟨sel, v, rfl, hk⟩
  · cases f <;> simp [SetsFlag, refusalFlag, hr]
  · rcases hi with rfl | rfl | ⟨x, rfl⟩ | ⟨fw, rfl⟩
    · cases f <;> simp [SetsFlag, refusalFlag, notRunningFlag]
    · cases f <;> simp [SetsFlag, refusalFlag, notRunningFlag]
    · cases f <;> simp [SetsFlag, refusalFlag, notRunningFlag, hr]
    · cases f <;> simp [SetsFlag, refusalFlag, notRunningFlag, hr]
  · cases f <;> simp [SetsFlag, refusalFlag]
  · rw [refusalFlag_of_wrregRefusal hk]
    cases f <;> simp [SetsFlag]

/-- Each command but an accepted WRREG FLAGS sets the flags of its outcome and no other (R173). -/
theorem exec_flagsAfter {i : Instr} {s t : State} (hx : exec i s = .next t)
    (hw : ∀ v, i = .wrreg 0x07 v → legalFlags v = false) : FlagsAfter (some i) s t := by
  rcases exec_cases i s with ⟨k, d, _, he, hq⟩ | ⟨k, _, hk, he⟩ | ⟨rfl, hr, he⟩ | ⟨rfl, _, he⟩ | ⟨rfl, _, he⟩ |
    ⟨x, rfl, hr, he⟩ | ⟨fw, rfl, hr, he⟩ | ⟨sel, v, rfl, ha, he⟩ <;> obtain rfl := Host.Outcome.next.inj (he.symm.trans hx)
  · rcases hq with ⟨c, rfl⟩ | ⟨fw, rfl⟩ | ⟨b, rfl⟩ | ⟨fw, rfl⟩ | ⟨sel, rfl⟩ <;> simp [FlagsAfter, SetsFlag]
  · exact flagsAfter_raiseError hk.setsFlag_iff
  · simp [FlagsAfter, SetsFlag, hr]
  · simp [FlagsAfter, SetsFlag]
  · simp [FlagsAfter, SetsFlag]
  · simp [FlagsAfter, SetsFlag, hr]
  · simp [FlagsAfter, SetsFlag, hr]
  · rcases regWrite_cases ha with ⟨_, _, _, he⟩ | ⟨_, _, he⟩ | ⟨rfl, hv, _⟩
    · simp [FlagsAfter, SetsFlag, he]
    · simp [FlagsAfter, SetsFlag, he]
    · exact absurd (hv.symm.trans (hw v rfl)) nofun

/-- WRREG FLAGS with a legal value clears the flags that it has a 1 for (R164). -/
theorem exec_wrreg_flags {v : RegWord} (hv : legalFlags v = true) (s : State) :
    exec (.wrreg 0x07 v) s = .next (respond .ok 0 (clearFlags v s)) := by
  have ha : wrregRefusal 0x07 v s = none := by
    simp [wrregRefusal, reservedSel, readOnlySel, lockableSel, hv]
  rw [exec_wrreg, ha]
  rfl

/-! ## The response codes -/

/-- What NOMAP returns: the code of the substitute that F2C has under PLACEHOLDER, else 0 (R97, R172). -/
def nomapData : Instr → State → RegWord
  | .f2c _, s => if s.policy = .placeholder then 63 else 0
  | _, _ => 0

/-- The command answers with the code `k`, and NOMAP has its data. -/
def AnswersWith (i : Instr) (s : State) (k : RespCode) : Prop :=
  ∃ t d, exec i s = .next t ∧ t.resp = s.resp ++ [mkResponse k d] ∧ (k = .nomap → d = nomapData i s)

section

variable {i : Instr} {s : State} {k : RespCode}

theorem answersWith_ok {u : State} {d : RegWord} (h : exec i s = .next (respond .ok d u)) (hu : u.resp = s.resp) :
    AnswersWith i s .ok := ⟨_, d, h, by rw [respond_resp, hu], nofun⟩

theorem answersWith_nomap (h : exec i s = .next (respond .nomap (nomapData i s) s)) : AnswersWith i s .nomap :=
  ⟨_, _, h, rfl, fun _ => rfl⟩

theorem answersWith_refusal (hk : isRefusal k = true) {cmd : Option Instr}
    (h : exec i s = .next (raiseError cmd k s)) : AnswersWith i s k :=
  ⟨_, 0, h, raiseError_resp cmd k s, by rintro rfl; exact absurd hk nofun⟩

/-- The clauses of NOMAP, for F2C and for the other commands. -/
theorem AnswersWith.nomap_clauses (h : AnswersWith i s k) : ∃ (t : State) (code : RespCode) (data : RegWord),
    exec i s = .next t ∧ t.resp = s.resp ++ [mkResponse code data] ∧ code = k ∧
    (∀ fw, some i = some (.f2c fw) → code = .nomap → data = if s.policy = .placeholder then 63 else 0) ∧
    ((∀ fw, some i ≠ some (.f2c fw)) → code = .nomap → data = 0) := by
  obtain ⟨t, d, hx, hresp, hd⟩ := h
  refine ⟨t, k, d, hx, hresp, rfl, fun fw hi hk => ?_, fun hi hk => ?_⟩
  · obtain rfl := Option.some.inj hi
    exact hd hk
  · cases i with
    | f2c fw => exact absurd rfl (hi fw)
    | _ => exact hd hk

end

/-! ## The code of each command -/

theorem answersWith_start (s : State) :
    AnswersWith .start s (if s.session = .running then .alreadyRunning else .ok) := by
  split_ifs with hr
  · exact answersWith_refusal rfl (exec_start_refused hr)
  · exact answersWith_ok (exec_start_accepted hr) rfl

theorem answersWith_stop (s : State) : AnswersWith .stop s (if s.session = .running then .ok else .notRunning) := by
  split_ifs with hr
  · exact answersWith_ok (exec_stop_accepted hr) rfl
  · exact answersWith_refusal rfl (exec_stop_refused hr)

theorem answersWith_fault (s : State) : AnswersWith .fault s (if s.session = .running then .ok else .notRunning) := by
  split_ifs with hr
  · exact answersWith_ok (exec_fault_accepted hr) rfl
  · exact answersWith_refusal rfl (exec_fault_refused hr)

theorem answersWith_sample (x : Sample) (s : State) :
    AnswersWith (.sample x) s (if s.session = .running then .ok else .notRunning) := by
  split_ifs with hr
  · exact answersWith_ok (exec_sample_accepted x hr) (pushSample_resp x s)
  · exact answersWith_refusal rfl (exec_sample_refused x hr)

theorem answersWith_freq (fw : RegWord) (s : State) :
    AnswersWith (.freq fw) s (if s.session = .running then .ok else .notRunning) := by
  split_ifs with hr
  · exact answersWith_ok (exec_freq_accepted fw hr) (decodeFreq_resp (freqOfWord fw) s)
  · exact answersWith_refusal rfl (exec_freq_refused fw hr)

theorem answersWith_c2f (c : BitVec 8) {s : State} (hc : s.cfg.Legal) :
    AnswersWith (.c2f c) s (if 32 ≤ c.toNat ∧ c.toNat ≤ 126 then .ok else .nomap) := by
  have hx : exec (.c2f c) s = execC2f c s := rfl
  rw [execC2f, c2f_of_legal hc] at hx
  split_ifs at hx ⊢ with h
  · exact answersWith_ok hx rfl
  · exact answersWith_nomap hx

/-- OK for a mapped frequency, NOMAP for a substitute or none (R97). -/
def charMapCode : CharMap → RespCode
  | .mapped _ => .ok
  | .subst _ => .nomap
  | .nomap => .nomap

/-- A substitute is 63 and comes under PLACEHOLDER alone, so NOMAP has the data of the policy (R91). -/
theorem answersWith_f2c (fw : RegWord) {s : State} (hc : s.cfg.Legal) :
    AnswersWith (.f2c fw) s (charMapCode (f2c s.cfg (freqOfWord fw) s.policy)) := by
  have hx : exec (.f2c fw) s = execF2c fw s := rfl
  rw [execF2c, f2c_of_legal hc] at hx
  rw [f2c_of_legal hc]
  split_ifs at hx ⊢ with hr hp
  · exact answersWith_ok hx rfl
  · exact answersWith_nomap (by rw [hx, nomapData, if_pos hp]; rfl)
  · exact answersWith_nomap (by rw [hx, nomapData, if_neg hp])

theorem answersWith_b2f (b : BitVec 1) (s : State) : AnswersWith (.b2f b) s .ok := answersWith_ok rfl rfl

/-- OK for a bit, NOMAP for none (R99). -/
def bitCode : Option (BitVec 1) → RespCode
  | some _ => .ok
  | none => .nomap

theorem answersWith_f2b (fw : RegWord) (s : State) :
    AnswersWith (.f2b fw) s (bitCode (f2b s.cfg (freqOfWord fw))) := by
  have hx : exec (.f2b fw) s = execF2b fw s := rfl
  rw [execF2b] at hx
  cases hb : f2b s.cfg (freqOfWord fw) with
  | some b => rw [hb] at hx; exact answersWith_ok hx rfl
  | none => rw [hb] at hx; exact answersWith_nomap hx

theorem answersWith_rdreg (sel : BitVec 8) (s : State) :
    AnswersWith (.rdreg sel) s (if sel.toNat ≤ 0x09 then .ok else .badSel) := by
  split_ifs with hsel
  · exact answersWith_ok (exec_rdreg_of_regRead (regRead_of_not_reserved (by omega) s)) rfl
  · exact answersWith_refusal (cmd := none) rfl (exec_rdreg_reserved (by omega) s)

/-- Of the registers that are not reserved, all but CONFIG, ETHRESH and FLAGS are read-only (R165). -/
theorem readOnlySel_iff_of_not_reserved {sel : BitVec 8} (hres : ¬0x0A ≤ sel.toNat) :
    readOnlySel sel = true ↔ sel ≠ 0x01 ∧ sel ≠ 0x02 ∧ sel ≠ 0x07 := by
  revert sel
  decide

/-- The checks of WRREG in their order, each by its bits (R161, R172, R174). -/
theorem wrregRefusal_getD_ok (sel : BitVec 8) (v : RegWord) (s : State) : (wrregRefusal sel v s).getD .ok =
    if 0x0A ≤ sel.toNat then .badSel
    else if sel ≠ 0x01 ∧ sel ≠ 0x02 ∧ sel ≠ 0x07 then .readOnly
    else if sel ≠ 0x07 ∧ s.session = .running then .locked
    else if sel = 0x01 ∧ (v.extractLsb' 2 6 ≠ 0 ∨ v.extractLsb' 16 16 ≠ 0 ∨ v.extractLsb' 8 8 = 0) then .badValue
    else if sel = 0x07 ∧ v.extractLsb' 4 28 ≠ 0 then .badValue
    else .ok := by
  simp only [wrregRefusal, reservedSel_iff, legalConfig_eq_false_iff, legalFlags_eq_false_iff]
  by_cases hres : 0x0A ≤ sel.toNat
  · simp only [if_pos hres, Option.getD_some]
  simp only [if_neg hres, readOnlySel_iff_of_not_reserved hres]
  by_cases hro : sel ≠ 0x01 ∧ sel ≠ 0x02 ∧ sel ≠ 0x07
  · simp only [if_pos hro, Option.getD_some]
  have hlock : lockableSel sel = true ↔ sel ≠ 0x07 := by
    revert sel
    decide
  simp only [hlock, BitVec.ofNat_eq_ofNat]
  split_ifs <;> rfl

theorem answersWith_wrreg (sel : BitVec 8) (v : RegWord) (s : State) :
    AnswersWith (.wrreg sel v) s ((wrregRefusal sel v s).getD .ok) := by
  rcases exec_wrreg_cases sel v s with ⟨k, hk, ha, hx⟩ | ⟨ha, hx⟩ <;> rw [ha]
  · exact answersWith_refusal hk hx
  · exact answersWith_ok hx (regWrite_resp sel v s)

/-! ## The statements -/

/-- Settles O41: an ILLEGAL word answers ILLEGAL, and each command as its own condition says. -/
theorem responseMatrix : Obligations.ResponseMatrix := by
  unfold Obligations.ResponseMatrix
  intro w s hc
  rcases runWord_cases w s with ⟨hdec, he⟩ | ⟨i, hdec, he⟩ <;> rw [he, hdec]
  · exact ⟨_, .illegal, 0, rfl, raiseError_resp none .illegal s, rfl, nofun, nofun⟩
  · cases i with
    | start => exact (answersWith_start s).nomap_clauses
    | stop => exact (answersWith_stop s).nomap_clauses
    | fault => exact (answersWith_fault s).nomap_clauses
    | sample x => exact (answersWith_sample x s).nomap_clauses
    | freq fw => exact (answersWith_freq fw s).nomap_clauses
    | c2f c => exact (answersWith_c2f c hc).nomap_clauses
    | f2c fw => exact (answersWith_f2c fw hc).nomap_clauses
    | b2f b => exact (answersWith_b2f b s).nomap_clauses
    | f2b fw => exact (answersWith_f2b fw s).nomap_clauses
    | rdreg sel => exact (answersWith_rdreg sel s).nomap_clauses
    | wrreg sel v =>
      have h := answersWith_wrreg sel v s
      rw [wrregRefusal_getD_ok] at h
      exact h.nomap_clauses

/-- Settles O42: a word whose code is a refusal was refused by `raiseError`. -/
theorem refusalsArePrecise : Obligations.RefusalsArePrecise := by
  unfold Obligations.RefusalsArePrecise
  intro w s t code data hx hresp hcode
  rcases runWord_refused_or_not hx with ⟨cmd, k, rfl⟩ | ⟨k, d, hk, hr⟩
  · rw [raiseError_resp] at hresp
    obtain ⟨_, hdata⟩ := mkResponse_inj (List.singleton_inj.mp (List.append_cancel_left hresp))
    exact ⟨hdata.symm, agreeButFlags_raiseError cmd k s⟩
  · obtain ⟨rfl, _⟩ := mkResponse_inj (List.singleton_inj.mp (List.append_cancel_left (hr.symm.trans hresp)))
    exact absurd (hk.symm.trans hcode) nofun

/-- Settles O43: an accepted WRREG FLAGS clears, and every other word sets the flags of its outcome. -/
theorem flagsRule : Obligations.FlagsRule := by
  unfold Obligations.FlagsRule
  intro w s t hx
  constructor
  · intro v hdec hv
    rw [runWord_of_decode hdec, exec_wrreg_flags (decide_eq_true hv)] at hx
    obtain rfl := Host.Outcome.next.inj hx
    exact ⟨rfl, rfl, rfl, rfl⟩
  · intro hw
    suffices h : FlagsAfter (decode w) s t from h
    rcases runWord_cases w s with ⟨hdec, he⟩ | ⟨i, hdec, he⟩ <;> rw [hdec]
    · obtain rfl := Host.Outcome.next.inj (he.symm.trans hx)
      exact flagsAfter_raiseError fun f => by cases f <;> simp [SetsFlag, refusalFlag]
    · exact exec_flagsAfter (he.symm.trans hx) fun v hi =>
        legalFlags_eq_false_iff.mpr (hw v (hdec.trans (congrArg some hi)))

/-- Settles O46: the words left are the ILLEGAL ones and the queries, which only answer, and WRREG, which has its frame. -/
theorem decoderStateIsProtected : Obligations.DecoderStateIsProtected := by
  unfold Obligations.DecoderStateIsProtected
  intro w s t hx hstart hstop hfault hsample hfreq
  rcases runWord_cases w s with ⟨_, he⟩ | ⟨i, hdec, he⟩ <;> rw [hx] at he
  · obtain rfl := Host.Outcome.next.inj he
    rfl
  rw [hdec] at hstart hstop hfault hsample hfreq
  by_cases hq : IsQuery i
  · obtain ⟨k, d, hk⟩ := exec_query hq s
    obtain rfl := Host.Outcome.next.inj (he.trans hk)
    rfl
  · cases i with
    | start => exact absurd rfl hstart
    | stop => exact absurd rfl hstop
    | fault => exact absurd rfl hfault
    | sample x => exact absurd rfl (hsample x)
    | freq fw => exact absurd rfl (hfreq fw)
    | wrreg sel v =>
      obtain ⟨t', hx', -, -, -, hframe, -⟩ := wrregFrame sel v s
      obtain rfl := Host.Outcome.next.inj (he.trans hx')
      exact hframe
    | _ => simp [IsQuery] at hq

/-- Settles O10: no word is taken. -/
theorem stepHoldsState : Obligations.StepHoldsState := by
  unfold Obligations.StepHoldsState
  exact fun _ h => step_of_inp_nil h

end Sys2Proof.Machine
end

section
/-! SUPPORT. Reset (R190): the decoder state is clear and so are the flags, and the registers that hold them read 0. -/

namespace Sys2Proof.Machine

variable {s : State}

/-- The registers of the decoder state read 0 when it is clear: after reset, and after STOP and FAULT (R26 to R29, R192). -/
theorem SessionClear.words_eq_zero (h : SessionClear s) :
    decWord s = 0 ∧ bitsWord s = 0 ∧ estWord s = 0 ∧ fillWord s = 0 := by
  obtain ⟨hsymV, hsym, hcnt, houtV, hout, hbits, hpcnt, hvalid, hsilent, hbin, hfill⟩ := h
  refine ⟨?_, ?_, ?_, ?_⟩
  · simp [decWord_eq, hsymV, hsym, hcnt, houtV, hout]
  · simp [bitsWord_eq, hbits, hpcnt]
  · simp [estWord_eq, hvalid, hsilent, hbin]
  · simp [fillWord_eq, hfill]

theorem flagsWord_eq_zero_of_flagsClear (h : flagsClear s = true) : flagsWord s = 0 := by
  obtain ⟨⟨⟨hfault, hreject⟩, hillegal⟩, hdropped⟩ :
      ((s.fFault = false ∧ s.fReject = false) ∧ s.fIllegal = false) ∧ s.fDropped = false := by
    simpa [flagsClear] using h
  simp [flagsWord_eq, hfault, hreject, hillegal, hdropped]

theorem sessionClear_resetWith (c : Config) (hc : c.Legal) : SessionClear (State.resetWith c hc) :=
  ⟨rfl, rfl, rfl, rfl, rfl, rfl, rfl, rfl, rfl, rfl, rfl⟩

theorem flagsClear_resetWith (c : Config) (hc : c.Legal) : flagsClear (State.resetWith c hc) = true := rfl

/-- STATUS reads the code of IDLE, which is 0 (R23). -/
theorem statusWord_resetWith (c : Config) (hc : c.Legal) : statusWord (State.resetWith c hc) = 0 := by
  simp [statusWord_eq, State.resetWith, stateBits]

/-- CONFIG reads `REPEAT_T` = 3 in its bits 15:8, under TEXT and DROP, which are 0 (R24). -/
theorem configWord_resetWith (c : Config) (hc : c.Legal) : configWord (State.resetWith c hc) = 0x00000300 := by
  simp [configWord_eq, State.resetWith]

/-- Settles O13: DEC, BITS, EST and FILL read the clear decoder state, FLAGS the clear flags, and the other registers
what reset puts there; the ROM is C2F's at the legal code range. -/
theorem resetValues : Obligations.ResetValues := by
  unfold Obligations.ResetValues
  intro c hc
  have hclear := sessionClear_resetWith c hc
  have hflags := flagsClear_resetWith c hc
  have hrom (code : ℕ) (hmin : 32 ≤ code) (hmax : code ≤ 126) : c2f c code = some (c.pBase + code * c.pStep) :=
    (c2f_of_legal hc code).trans (if_pos ⟨hmin, hmax⟩)
  obtain ⟨hdec, hbits, hest, hfill⟩ := hclear.words_eq_zero
  exact ⟨hrom, rfl, rfl, rfl, rfl, hclear, hflags, rfl, congrArg some (statusWord_resetWith c hc),
    congrArg some (configWord_resetWith c hc), rfl, congrArg some hdec, congrArg some hbits, congrArg some hest,
    congrArg some hfill, congrArg some (flagsWord_eq_zero_of_flagsClear hflags), rfl, rfl⟩

end Sys2Proof.Machine
end
